-- ==== Sys2Proof/Word.lean ====
section
/-! DEFINITION. The word types of IRRX: the 32-bit command and response word (30_encoding.md R80, R86), the 16-bit field
and the byte of the buffer (20_memory.md R50, R53). -/

namespace Sys2Proof

/-- One command word or one response word (R80, R86). -/
abbrev Word := BitVec 32

/-- One 16-bit field of the buffer, or the DATA field of a response (R53, R86). -/
abbrev Half := BitVec 16

/-- One byte of the buffer (R50). -/
abbrev Byte := BitVec 8

end Sys2Proof
end

