-- ==== Sys2Proof/Syntax.lean ====
section
/-! DEFINITION. The commands of IRRX (30_encoding.md R81, one constructor per row of the opcode table), the reasons a word
is no command (R84), and the lines of the assembler with its pseudo-instructions (R88, R89). -/

namespace Sys2Proof

/-- The level whose duration a sample measures: carrier on or carrier off (R82, 00_scope.md glossary). -/
inductive Edge where
  | mark
  | space
  deriving DecidableEq, Repr

/-- The three formats of the Format Table, in table order (R102). Their codes are `Format.code`. -/
inductive Format where
  | nec
  | kadenkyo
  | sony
  deriving DecidableEq, Repr

/-- The field RDFRAME selects: SEL 0 KB, 1 ELAPSED, 2 PAYLOAD, 3 OFFSET (R88, R194). -/
inductive FrameSel where
  | kb
  | elapsed
  | payload
  | offset
  deriving DecidableEq, Repr

/-- The register RDSTATUS selects: SEL 0 STATUS, 1 LM, 2 LS, 3 CAP (R88, R198). -/
inductive StatusSel where
  | status
  | lm
  | ls
  | cap
  deriving DecidableEq, Repr

/-- The commands, one constructor per row of the opcode table, each operand at the width R81 gives it. -/
inductive Instr where
  /-- INIT: declare the buffer capacity in bytes (R190, R191). -/
  | init (cap : BitVec 16)
  /-- MARK: one sample of a mark, with its duration in ticks (R121). -/
  | mark (dur : BitVec 24)
  /-- SPACE: one sample of a space, with its duration in ticks (R121). -/
  | space (dur : BitVec 24)
  /-- RDCOUNT: read the frame count (R193). -/
  | rdcount
  /-- RDFRAME: read one field of one frame (R194). -/
  | rdframe (sel : FrameSel) (index : BitVec 8)
  /-- RDBYTE: read one byte of the buffer (R196). -/
  | rdbyte (addr : BitVec 16)
  /-- RDSTATUS: read one register (R198). -/
  | rdstatus (sel : StatusSel)
  deriving DecidableEq, Repr

/-- The rows of the opcode table by name. -/
inductive Opcode where
  | init
  | mark
  | space
  | rdcount
  | rdframe
  | rdbyte
  | rdstatus
  deriving DecidableEq, Repr

/-- Why a word is no command: the two kinds of reserved encodings of R84. Both decode to ILLEGAL. -/
inductive DecodeError where
  /-- OP is 0x0 or 0x7 to 0xF. -/
  | unassignedOpcode (op : BitVec 4)
  /-- OP is assigned, and a reserved bit is 1. -/
  | reservedBit (op : BitVec 4)
  deriving DecidableEq, Repr

/-- One line of the assembler (R88) or one pseudo-instruction (R89), operands as written: unsigned numbers that may
be out of range, which `AsmLine.wellFormed` refuses. -/
inductive AsmLine where
  | init (cap : Nat)
  | mark (dur : Nat)
  | space (dur : Nat)
  | rdcount
  | rdframe (index : Nat) (sel : Nat)
  | rdbyte (addr : Nat)
  | rdstatus (sel : Nat)
  /-- `SAMPLE <e>, <dur>`. -/
  | sample (edge : Edge) (dur : Nat)
  /-- `LEADER <m>, <s>`. -/
  | leader (m : Nat) (s : Nat)
  /-- `<F>.LEADER`. -/
  | formatLeader (f : Format)
  /-- `<F>.REPEAT`; R89 gives none for Sony. -/
  | formatRepeat (f : Format)
  /-- `<F>.BIT <b>`. -/
  | formatBit (f : Format) (b : Nat)
  /-- `<F>.END`. -/
  | formatEnd (f : Format)
  /-- `<F>.BYTE <v>`. -/
  | formatByte (f : Format) (v : Nat)
  deriving DecidableEq, Repr

end Sys2Proof
end

