-- ==== Sys2Proof/Config.lean ====
section
/-! DEFINITION. The implementation parameters of 00_scope.md R7 that IRRX v1 fixes, and the shape of the one parameter that
is configuration, the Format Table (40_classifier.md R100). -/

namespace Sys2Proof

namespace Config

/-- `MAX_FRAMES`: entries of the offset index (R7, R162). -/
abbrev maxFrames : Nat := 10

/-- `HDR_SIZE`: bytes of the store header (R7, R55). -/
abbrev hdrSize : Nat := 22

/-- `REC_HDR`: bytes of a frame record's header (R7, R56). -/
abbrev recHdr : Nat := 4

/-- `BUF_BYTES`: size of the buffer's address space (R7, R50). -/
abbrev bufBytes : Nat := 65536

/-- The largest representable duration, 15 bits (`DUR_REPR_BITS`, R7, R122). -/
abbrev maxDuration : Nat := 0x7FFF

/-- The largest bit count of a frame, 14 bits (`BITCOUNT_BITS`, R7, R163). -/
abbrev maxBitCount : Nat := 0x3FFF

/-- The value at which the elapsed accumulator saturates, 20 bits (`EACC_BITS`, R7, R167). -/
abbrev eaccMax : Nat := 0xFFFFF

/-- `ELAPSED_SHIFT`: one unit of ELAPSED is 16 ticks (R7, R167). -/
abbrev elapsedShift : Nat := 4

end Config

/-- A present range of a descriptor, given by its nominal value N (R100). Its bounds are `Range.lo` and `Range.hi`, which
R103 computes from N. -/
structure Range where
  nominal : Nat
  deriving DecidableEq, Repr

/-- One format descriptor (R100); an absent range is `none`. The pulse-count hints are not modelled (R108). -/
structure Descriptor where
  leaderMark : Range
  leaderSpace : Option Range
  repeater : Option Range
  symbol0 : Range
  symbol1 : Range
  infoEdge : Edge
  deriving DecidableEq, Repr

/-- The Format Table: three descriptors, in the order of R102. -/
structure FormatTable where
  nec : Descriptor
  kadenkyo : Descriptor
  sony : Descriptor
  deriving DecidableEq, Repr

end Sys2Proof
end

