-- ==== Sys2Proof/WellFormed.lean ====
section
/-! DEFINITION. What a well-formed assembler line is (30_encoding.md R88, R89: the assembler checks each operand's range and
refuses a value that does not fit its field), what a well-formed command is, and what a well-formed Format Table is
(40_classifier.md R100, R102). -/

namespace Sys2Proof

/-- The operand ranges of R88, and of the pseudo-instructions of R89. -/
def AsmLine.wellFormed : AsmLine → Bool
  | .init cap => decide (cap ≤ 65535)
  | .mark dur => decide (dur ≤ 0xFFFFFF)
  | .space dur => decide (dur ≤ 0xFFFFFF)
  | .rdcount => true
  | .rdframe index sel => decide (index ≤ 255) && decide (sel ≤ 3)
  | .rdbyte addr => decide (addr ≤ 65535)
  | .rdstatus sel => decide (sel ≤ 3)
  | .sample _ dur => decide (dur ≤ 0xFFFFFF)
  | .leader m s => decide (m ≤ 0xFFFFFF) && decide (s ≤ 0xFFFFFF)
  | .formatLeader _ => true
  | .formatRepeat f => decide (f ≠ .sony)
  | .formatBit _ b => decide (b ≤ 1)
  | .formatEnd _ => true
  | .formatByte _ v => decide (v ≤ 255)

/-- The number a RDFRAME select is written as (R88). -/
def FrameSel.number : FrameSel → Nat
  | .kb => 0
  | .elapsed => 1
  | .payload => 2
  | .offset => 3

/-- The number a RDSTATUS select is written as (R88). -/
def StatusSel.number : StatusSel → Nat
  | .status => 0
  | .lm => 1
  | .ls => 2
  | .cap => 3

/-- The assembler line that writes a command (R88). -/
def Instr.line : Instr → AsmLine
  | .init cap => .init cap.toNat
  | .mark dur => .mark dur.toNat
  | .space dur => .space dur.toNat
  | .rdcount => .rdcount
  | .rdframe sel index => .rdframe index.toNat sel.number
  | .rdbyte addr => .rdbyte addr.toNat
  | .rdstatus sel => .rdstatus sel.number

/-- A command is well formed when its assembler line passes R88's range check. The operand types are exactly as wide as
R81's fields, so every command is (`Sys2Proof.Laws.instr_wellFormed`). -/
def Instr.wellFormed (i : Instr) : Bool := i.line.wellFormed

/-- A present range has N ≥ 1 (R100). -/
def Range.wellFormed (r : Range) : Bool := decide (1 ≤ r.nominal)

/-- An optional range is well formed when it is absent or present with N ≥ 1 (R100). -/
def Range.wellFormedOption : Option Range → Bool
  | none => true
  | some r => r.wellFormed

/-- Every present range of the descriptor has N ≥ 1 (R100). -/
def Descriptor.wellFormed (d : Descriptor) : Bool :=
  d.leaderMark.wellFormed && Range.wellFormedOption d.leaderSpace && Range.wellFormedOption d.repeater
    && d.symbol0.wellFormed && d.symbol1.wellFormed

/-- A Format Table a model may take: R100's ranges, and the informative edges R102 keeps (space, space, mark). -/
def FormatTable.wellFormed (t : FormatTable) : Bool :=
  t.nec.wellFormed && t.kadenkyo.wellFormed && t.sony.wellFormed
    && decide (t.nec.infoEdge = .space) && decide (t.kadenkyo.infoEdge = .space) && decide (t.sony.infoEdge = .mark)

end Sys2Proof
end

