-- ==== Sys2Proof/Decode.lean ====
section
/-! DEFINITION. Decoding a command word, total, and encoding a command (30_encoding.md R80 to R85, opcode_table.json). A word
that no row matches is rejected by the name of its reserved encoding (R84). -/

namespace Sys2Proof

/-- One row of the opcode table: `(w & mask) = pattern` selects it (R83). -/
structure OpcodeRow where
  name : Opcode
  mask : Word
  pattern : Word
  deriving DecidableEq, Repr

/-- The rows of opcode_table.json, in its order. -/
def opcodeRows : List OpcodeRow := [
  { name := .init, mask := 0xFFFF0000, pattern := 0x10000000 },
  { name := .mark, mask := 0xFF000000, pattern := 0x21000000 },
  { name := .space, mask := 0xFF000000, pattern := 0x20000000 },
  { name := .rdcount, mask := 0xFFFFFFFF, pattern := 0x30000000 },
  { name := .rdframe, mask := 0xFFFFFC00, pattern := 0x40000000 },
  { name := .rdbyte, mask := 0xFFFF0000, pattern := 0x50000000 },
  { name := .rdstatus, mask := 0xFFFFFFFC, pattern := 0x60000000 }]

/-- The row's mask and match agree with the word (R83). -/
def OpcodeRow.hits (r : OpcodeRow) (w : Word) : Bool := w &&& r.mask == r.pattern

/-- RDFRAME's SEL field, `w[9:8]` (R82, R88). -/
def FrameSel.ofBits (b : BitVec 2) : FrameSel :=
  if b = 0 then .kb else if b = 1 then .elapsed else if b = 2 then .payload else .offset

/-- The SEL field that selects a frame field (R88). -/
def FrameSel.toBits : FrameSel → BitVec 2
  | .kb => 0
  | .elapsed => 1
  | .payload => 2
  | .offset => 3

/-- RDSTATUS's SEL field, `w[1:0]` (R82, R88). -/
def StatusSel.ofBits (b : BitVec 2) : StatusSel :=
  if b = 0 then .status else if b = 1 then .lm else if b = 2 then .ls else .cap

/-- The SEL field that selects a register (R88). -/
def StatusSel.toBits : StatusSel → BitVec 2
  | .status => 0
  | .lm => 1
  | .ls => 2
  | .cap => 3

/-- The operands of a word whose row is known, with no sign extension, scaling or shifting (R82). -/
def Opcode.operands (w : Word) : Opcode → Instr
  | .init => .init (w.extractLsb' 0 16)
  | .mark => .mark (w.extractLsb' 0 24)
  | .space => .space (w.extractLsb' 0 24)
  | .rdcount => .rdcount
  | .rdframe => .rdframe (FrameSel.ofBits (w.extractLsb' 8 2)) (w.extractLsb' 0 8)
  | .rdbyte => .rdbyte (w.extractLsb' 0 16)
  | .rdstatus => .rdstatus (StatusSel.ofBits (w.extractLsb' 0 2))

/-- The name of the reserved encoding a word without a row has (R84). -/
def reservedReason (w : Word) : DecodeError :=
  let op : BitVec 4 := w.extractLsb' 28 4
  if 1 ≤ op.toNat ∧ op.toNat ≤ 6 then .reservedBit op else .unassignedOpcode op

/-- Decode a command word: the first row that matches selects the command, and a word no row matches is ILLEGAL (R83). -/
def decode (w : Word) : Except DecodeError Instr :=
  match opcodeRows.find? (fun r => r.hits w) with
  | some r => .ok (r.name.operands w)
  | none => .error (reservedReason w)

/-- The word of a command, field by field as R81's patterns write it. -/
def encode : Instr → Word
  | .init cap => 0x1000#16 ++ cap
  | .mark dur => 0x21#8 ++ dur
  | .space dur => 0x20#8 ++ dur
  | .rdcount => 0x30000000#32
  | .rdframe sel index => 0x100000#22 ++ sel.toBits ++ index
  | .rdbyte addr => 0x5000#16 ++ addr
  | .rdstatus sel => 0x18000000#30 ++ sel.toBits

/-- The row of the opcode table a command belongs to. -/
def Instr.opcode : Instr → Opcode
  | .init _ => .init
  | .mark _ => .mark
  | .space _ => .space
  | .rdcount => .rdcount
  | .rdframe _ _ => .rdframe
  | .rdbyte _ => .rdbyte
  | .rdstatus _ => .rdstatus

/-- The command word whose lowest `nbits` bits are those of `w`, every other bit 0. A command is one 32-bit word (R80), so
bit 0 of the table is bit 0 of the word. -/
def tableWord (nbits w : Nat) : Word := BitVec.ofNat 32 (w % 2 ^ nbits)

/-- The instruction the decoder reads from the table's bits `w` of an instruction of `nbits` bits. -/
def decodeTableWord (nbits w : Nat) : Option Instr :=
  match decode (tableWord nbits w) with
  | .ok i => some i
  | .error _ => none

end Sys2Proof
end

