-- ==== Sys2Proof/Machine/FormatTable.lean ====
section
/-! DEFINITION. The default Format Table of IRRX v1 (40_classifier.md R101), and the codes of the formats (10_state.md R28). -/

namespace Sys2Proof

/-- The FORMAT code of a format (R28): NEC 1, Kadenkyo 2, Sony 3; 0 is "unknown". -/
def Format.code : Format → Byte
  | .nec => 1
  | .kadenkyo => 2
  | .sony => 3

/-- The format of a FORMAT code, none for 0 (unknown) and for the codes 4 to 255, which are never written (R28). -/
def Format.ofCode (c : Byte) : Option Format :=
  if c = 1 then some .nec else if c = 2 then some .kadenkyo else if c = 3 then some .sony else none

/-- The descriptor of a format (00_scope.md R10). -/
def FormatTable.descriptor (t : FormatTable) : Format → Descriptor
  | .nec => t.nec
  | .kadenkyo => t.kadenkyo
  | .sony => t.sony

/-- R101's NEC row. The repeater's nominal is the spec's general knowledge (93_implementation_defined.md G1; log entry 6). -/
def necDefault : Descriptor where
  leaderMark := ⟨8992⟩
  leaderSpace := some ⟨4496⟩
  repeater := some ⟨2248⟩
  symbol0 := ⟨562⟩
  symbol1 := ⟨1686⟩
  infoEdge := .space

/-- R101's Kadenkyo row; every nominal is the spec's general knowledge (G2; log entry 6). -/
def kadenkyoDefault : Descriptor where
  leaderMark := ⟨3400⟩
  leaderSpace := some ⟨1700⟩
  repeater := some ⟨3400⟩
  symbol0 := ⟨425⟩
  symbol1 := ⟨1275⟩
  infoEdge := .space

/-- R101's Sony row; every nominal is the spec's general knowledge (G3; log entry 6). -/
def sonyDefault : Descriptor where
  leaderMark := ⟨2400⟩
  leaderSpace := none
  repeater := none
  symbol0 := ⟨600⟩
  symbol1 := ⟨1200⟩
  infoEdge := .mark

/-- R101's default table. -/
def FormatTable.default : FormatTable where
  nec := necDefault
  kadenkyo := kadenkyoDefault
  sony := sonyDefault

end Sys2Proof
end

