-- ==== Sys2Proof/Machine/State.lean ====
section
/-! DEFINITION. The state of IRRX as plain data (10_state.md R20 to R31), the reasons a step can stop, and the state after
hardware reset (R33, 70_reset_and_hazards.md R230). -/

namespace Sys2Proof.Machine

/-- The register STATE (R21, R22). Its codes are `SessionState.code`. -/
inductive SessionState where
  /-- UNINIT: no session. -/
  | uninit
  /-- AWAIT: waiting for a leader. -/
  | await
  /-- ASSEMBLE: taking the bits of a frame. -/
  | assemble
  /-- ERROR: the session has ended with an error. -/
  | error
  deriving DecidableEq, Repr

/-- The kinds of session errors that `raise SessionError(k)` takes (60_exceptions.md R211, R212). Their codes are
`SessionErrorKind.code`. -/
inductive SessionErrorKind where
  | timingOverflow
  | unrecognizedLeader
  | formatMismatch
  | timingTooShort
  | unexpectedTiming
  | bufferOverflow
  deriving DecidableEq, Repr

/-- The kinds of command errors (R211, R214). Their codes are `CommandErrorKind.code`. -/
inductive CommandErrorKind where
  | notInitialized
  | illegalCommand
  | outOfRange
  deriving DecidableEq, Repr

/-- The OUTCOME field of a response (30_encoding.md R86). Its codes are `RespOutcome.code`. -/
inductive RespOutcome where
  | continued
  | frameBoundary
  | sessionError
  | commandError
  deriving DecidableEq, Repr

/-- The kind of a frame (20_memory.md R58). The codes are `FrameKind.code`; code 3 is reserved and never written. -/
inductive FrameKind where
  | data
  | sameAsFirst
  | repeater
  deriving DecidableEq, Repr

/-- The buffer: the bytes that hold a specified value, as (address, byte) pairs with strictly rising addresses. A byte that
nothing has written since power-on is unspecified (R33, R230) and is not listed (log entry 3). -/
abbrev Memory := List Host.Cell

/-- What the host does to IRRX: issue a command word, or reset it between commands (00_scope.md R6, R231). -/
inductive HostEvent where
  /-- A command word at the command port (R80). -/
  | command (w : Word)
  /-- A hardware reset (R230, R231). -/
  | reset
  deriving DecidableEq, Repr

/-- The state of IRRX, and of the host as far as a step reads it. The Frame Store (FORMAT, FRAME_COUNT, OFFSET, the
records) has its one copy in `buf` (R27). -/
structure State where
  /-- The Format Table, a constant of the machine that a model takes as configuration (R30, R7; log entry 6). -/
  table : FormatTable
  /-- STATE (R21, R22). -/
  st : SessionState
  /-- CAP, the declared capacity in bytes (R21). -/
  cap : BitVec 16
  /-- ERR_KIND (R21, R25). -/
  errKind : BitVec 4
  /-- LM, the latched leader mark (R21, R26). -/
  lm : BitVec 15
  /-- LS, the space of the most recent leader pair (R21, R26). -/
  ls : BitVec 15
  /-- LM_VALID, the one flag (R24). -/
  lmValid : Bool
  /-- EACC, the elapsed accumulator (R21, R167). -/
  eacc : BitVec 20
  /-- BUF (20_memory.md R50). -/
  buf : Memory
  /-- The model's own: the events the host has yet to issue, next first (log entry 1). -/
  port : List HostEvent
  /-- The model's own: the response to the last command, none while no command has been answered (log entry 2). -/
  resp : Option Word
  deriving DecidableEq, Repr

/-- Why the model stops. Every one arises only in a state that R34's invariants rule out, so no run from reset meets one;
each is safe (the model stops where a claim could otherwise lean on a value the spec does not give). -/
inductive Fault where
  /-- Raised by `State.read8` and `State.write8` at an address outside the 65536 bytes of BUF (R50). Safe (log entry 7). -/
  | outsideBuffer (addr : Nat)
  /-- Raised by `State.read8` at a byte that nothing has written since power-on, whose value is unspecified (R33). Safe
  (log entry 3). -/
  | unspecifiedByte (addr : Nat)
  /-- Raised by `State.currentFrame` when FRAME_COUNT is 0, where R160 does not define CUR. Safe (log entry 8). -/
  | noCurrentFrame
  /-- Raised by `State.descriptor` in ASSEMBLE when FORMAT is not 1, 2 or 3, where FORMAT_TABLE has no row. Safe (log
  entry 8). -/
  | noDescriptor (code : Byte)
  deriving DecidableEq, Repr

/-- Why an instruction has no meaning. Raised by an arm of `exec` whose instruction is not modelled yet; safe. Every
instruction of the table has its meaning, so no arm raises it. -/
inductive Refusal where
  /-- Raised by an arm of `exec` only. Safe. -/
  | notModelled (mnemonic : String)
  deriving DecidableEq, Repr

/-- How an operation inside a command ends early: by raising a session error (R212), or in a fault of the model. -/
inductive Raised where
  | session (k : SessionErrorKind)
  | fault (f : Fault)
  deriving DecidableEq, Repr

/-- What one step gives. -/
abbrev Result := Host.Outcome State Fault Refusal

/-- IRRX after hardware reset (R33, R230): UNINIT, every register 0, no byte of BUF specified, the default Format Table;
the host has issued nothing and no command has been answered. -/
def State.reset : State where
  table := FormatTable.default
  st := .uninit
  cap := 0
  errKind := 0
  lm := 0
  ls := 0
  lmValid := false
  eacc := 0
  buf := []
  port := []
  resp := none

end Sys2Proof.Machine
end

