-- ==== Sys2Proof/Machine/Flags.lean ====
section
/-! DEFINITION. The writes of LM_VALID, the one flag of IRRX, with the latches they guard (10_state.md R24, R26). There are no
condition codes. -/

namespace Sys2Proof.Machine

/-- Latch a duration as the leader mark: `LM <- d; LM_VALID <- 1` (41_leader.md R124, 42_bits.md R146). -/
def State.latch (s : State) (d : BitVec 15) : State := { s with lm := d, lmValid := true }

/-- The two writes of a paired space, `LS <- d; LM_VALID <- 0`, which stand even if the command raises (R127). -/
def State.pairSpace (s : State) (d : BitVec 15) : State := { s with ls := d, lmValid := false }

end Sys2Proof.Machine
end

