-- ==== Sys2Proof/Machine/Memory.lean ====
section
/-! DEFINITION. The buffer as a list of (address, byte) pairs in one canonical form: its reads, its writes, the zeroing that
INIT does, and the form itself (20_memory.md R50; log entry 3). -/

namespace Sys2Proof.Machine

/-- The byte at an address, none where the byte's value is unspecified (R33). -/
def Memory.read : Memory → Nat → Option Byte
  | [], _ => none
  | (a', b) :: m, a => if a' = a then some b else Memory.read m a

/-- Write one byte, in its place in the order of the addresses (R9, R63). -/
def Memory.write : Memory → Nat → Byte → Memory
  | [], a, b => [(a, b)]
  | (a', b') :: m, a, b =>
    if a < a' then (a, b) :: (a', b') :: m
    else if a' = a then (a, b) :: m
    else (a', b') :: Memory.write m a b

/-- The cells 0 to c - 1, each holding 0. -/
def zeroCells (c : Nat) : Memory := (List.range c).map (fun a => (a, 0))

/-- `for a in 0 .. c-1: BUF[a] <- 0` (45_host_commands.md R190): the bytes below c hold 0, the others are as they were. -/
def Memory.zeroBelow (m : Memory) (c : Nat) : Memory :=
  zeroCells c ++ m.filter (fun x => decide (c ≤ x.1))

/-- The canonical form: addresses strictly rising, all inside the buffer. An unlisted address reads as no value, so no
listed byte equals what an unlisted one reads as. -/
abbrev Memory.wf (m : Memory) : Prop :=
  m.Pairwise (fun x y => x.1 < y.1) ∧ ∀ x ∈ m, x.1 < Config.bufBytes

end Sys2Proof.Machine
end

