-- ==== Sys2Proof/Machine/Operands.lean ====
section
/-! DEFINITION. The arithmetic of operands and fields: `ceil8`, `align2`, `sat20` (00_scope.md R8), the width changes of R82,
the KB halfword of a record (20_memory.md R56, R57), and the codes of the registers and of the responses. -/

namespace Sys2Proof.Machine

/-- `ceil8(n) = (n + 7) div 8` (R8): the bytes that n bits take. -/
def ceil8 (n : Nat) : Nat := (n + 7) / 8

/-- `align2(x) = x + (x mod 2)` (R8): the next even number. -/
def align2 (x : Nat) : Nat := x + x % 2

/-- `sat20(x) = min(x, 0xFFFFF)` (R8). -/
def sat20 (x : Nat) : BitVec 20 := BitVec.ofNat 20 (min x Config.eaccMax)

/-- The representable part of a duration, `dur[14:0]` (R121). -/
def shortDuration (dur : BitVec 24) : BitVec 15 := dur.extractLsb' 0 15

/-- `DUR > 0x7FFF`: the duration does not fit 15 bits (41_leader.md R122). -/
def unrepresentable (dur : BitVec 24) : Bool := decide (Config.maxDuration < dur.toNat)

/-- `EACC >> ELAPSED_SHIFT` as the 16-bit ELAPSED field holds it (R161, R167). -/
def elapsedField (e : BitVec 20) : Half := e.extractLsb' Config.elapsedShift 16

/-- The 16-bit field whose low byte is at the lower address (R53). -/
def joinBytes (low high : Byte) : Half := high ++ low

/-- `v[7:0]`, the byte at the lower address (R9, R53). -/
def lowByte (v : Half) : Byte := v.extractLsb' 0 8

/-- `v[15:8]`, the byte at the next address (R9, R53). -/
def highByte (v : Half) : Byte := v.extractLsb' 8 8

/-- KIND, bits [15:14] of the KB halfword (R57). -/
def kindOf (kb : Half) : BitVec 2 := kb.extractLsb' 14 2

/-- BITCOUNT, bits [13:0] of the KB halfword (R57). -/
def bitCountOf (kb : Half) : Nat := (kb.extractLsb' 0 14).toNat

/-- The KB halfword of a kind code and a bit count, `(k << 14) | n` (R56). -/
def makeKb (k : BitVec 2) (n : Nat) : Half := k ++ BitVec.ofNat 14 n

/-- The codes of KIND (R58). -/
def FrameKind.code : FrameKind → BitVec 2
  | .data => 0
  | .sameAsFirst => 1
  | .repeater => 2

/-- The size of a record, used to place the next one: its payload counts only when it is Data (R59). -/
def recordSize (kb : Half) : Nat :=
  Config.recHdr + (if kindOf kb = FrameKind.data.code then ceil8 (bitCountOf kb) else 0)

/-- The codes of STATE (R21). -/
def SessionState.code : SessionState → BitVec 2
  | .uninit => 0
  | .await => 1
  | .assemble => 2
  | .error => 3

/-- The kind codes of the session errors (60_exceptions.md R211). -/
def SessionErrorKind.code : SessionErrorKind → BitVec 4
  | .timingOverflow => 1
  | .unrecognizedLeader => 2
  | .formatMismatch => 3
  | .timingTooShort => 4
  | .unexpectedTiming => 5
  | .bufferOverflow => 6

/-- The kind code of BufferTooSmall, which only INIT reports (R191, R211). -/
def bufferTooSmallCode : BitVec 4 := 7

/-- The kind codes of the command errors (R211). -/
def CommandErrorKind.code : CommandErrorKind → BitVec 4
  | .notInitialized => 8
  | .illegalCommand => 9
  | .outOfRange => 10

/-- The codes of OUTCOME (30_encoding.md R86). -/
def RespOutcome.code : RespOutcome → BitVec 4
  | .continued => 0
  | .frameBoundary => 1
  | .sessionError => 2
  | .commandError => 3

/-- `respond(o, k, d)` returns `{o[3:0], k[3:0], 0x00, d[15:0]}` (R86). -/
def respWord (o : RespOutcome) (k : BitVec 4) (d : Half) : Word := o.code ++ k ++ 0#8 ++ d

end Sys2Proof.Machine
end

