-- ==== Sys2Proof/Machine/Ops.lean ====
section
/-! DEFINITION. The operations every command shares: responding (30_encoding.md R86), taking an error (60_exceptions.md R212,
R214), the end of a command, hardware reset (70_reset_and_hazards.md R230), the host's next event, and the accesses to BUF
(00_scope.md R9). -/

namespace Sys2Proof.Machine

/-- `respond(o, k, d)` (R9, R86). -/
def State.respond (s : State) (o : RespOutcome) (k : BitVec 4) (d : Half) : State :=
  { s with resp := some (respWord o k d) }

/-- The response of a command that goes on: `respond(CONTINUE, 0, d)`. -/
def State.continued (s : State) (d : Half) : State := s.respond .continued 0 d

/-- `raise SessionError(k)`, taking the error from the state `s` in which the discarded writes of the command have not
happened (R212): STATE and ERR_KIND are written, the response is 0x2k000000, and nothing else is saved. -/
def State.raiseSession (s : State) (k : SessionErrorKind) : State :=
  { s with st := .error, errKind := k.code }.respond .sessionError k.code 0

/-- `raise CommandError(k)`: the response is 0x3k000000 and nothing else changes (R214). -/
def State.raiseCommand (s : State) (k : CommandErrorKind) : State :=
  s.respond .commandError k.code 0

/-- The end of a command whose writes started from `base`, the state that stands if it raises (R9, R64, R212). There is no
return from an error: INIT is the only way out of ERROR (R213). -/
def State.conclude (base : State) : Except Raised State → Result
  | .ok t => .next t
  | .error (.session k) => .next (base.raiseSession k)
  | .error (.fault f) => .fault f

/-- A hardware reset between commands: every register takes its reset value (R230). It does not clear BUF (R231, log entry
4), the Format Table is constant (R30), and the host's events are the host's. -/
def State.hardReset (s : State) : State :=
  { State.reset with table := s.table, buf := s.buf, port := s.port }

/-- The state whose port holds the events `rest`. -/
def State.withPort (s : State) (rest : List HostEvent) : State := { s with port := rest }

/-- The host's next event, and the state in which it has been taken from the port (R85: one word per command). -/
def State.nextEvent (s : State) : Option (HostEvent × State) :=
  match s.port with
  | [] => none
  | e :: rest => some (e, s.withPort rest)

/-- The state with one byte of BUF replaced; its effect is on that byte alone (R63). -/
def State.setByte (s : State) (a : Nat) (v : Byte) : State := { s with buf := s.buf.write a v }

/-- The state with the 16-bit field at a replaced, low byte first (R53). -/
def State.setHalf (s : State) (a : Nat) (v : Half) : State :=
  (s.setByte a (lowByte v)).setByte (a + 1) (highByte v)

/-- `EACC <- e`. -/
def State.setEacc (s : State) (e : BitVec 20) : State := { s with eacc := e }

/-- `STATE <- x` (R22). -/
def State.enter (s : State) (x : SessionState) : State := { s with st := x }

/-- `BUF[a]` (R9). -/
def State.read8 (s : State) (a : Nat) : Except Raised Byte :=
  if a < Config.bufBytes then
    match s.buf.read a with
    | some b => .ok b
    | none => .error (.fault (.unspecifiedByte a))
  else .error (.fault (.outsideBuffer a))

/-- `BUF[a] <- v` (R9). -/
def State.write8 (s : State) (a : Nat) (v : Byte) : Except Raised State :=
  if a < Config.bufBytes then .ok (s.setByte a v)
  else .error (.fault (.outsideBuffer a))

/-- `MemRead(a, 2)`, little-endian (R9, R53). -/
def State.read16 (s : State) (a : Nat) : Except Raised Half := do
  let low ← s.read8 a
  let high ← s.read8 (a + 1)
  .ok (joinBytes low high)

/-- `MemWrite(a, 2, v)`, little-endian (R9, R53). -/
def State.write16 (s : State) (a : Nat) (v : Half) : Except Raised State := do
  let s1 ← s.write8 a (lowByte v)
  s1.write8 (a + 1) (highByte v)

end Sys2Proof.Machine
end

