-- ==== Sys2Proof/Machine/FrameStore.lean ====
section
/-! DEFINITION. The Frame Store (43_frame_store.md) over the layout of 20_memory.md R55 to R59, the packing of payload bits
(R165), and the Frame Finalizer (44_finalizer.md R180). -/

namespace Sys2Proof.Machine

/-- The address of FORMAT (R55). -/
def formatAddr : Nat := 0

/-- The address of FRAME_COUNT (R55). -/
def countAddr : Nat := 1

/-- The address of OFFSET[i] (R55). -/
def offsetAddr (i : Nat) : Nat := 2 + 2 * i

/-- FRAME_COUNT, `MemRead(1, 1)`. -/
def State.frameCount (s : State) : Except Raised Nat := do
  let n ← s.read8 countAddr
  .ok n.toNat

/-- `OFFSET[i] = MemRead(2 + 2i, 2)`, the record of frame i (R160). -/
def State.offset (s : State) (i : Nat) : Except Raised Nat := do
  let p ← s.read16 (offsetAddr i)
  .ok p.toNat

/-- `currentFrame()`: CUR, the record of the last appended frame, defined when FRAME_COUNT ≥ 1 (R160). -/
def State.currentFrame (s : State) : Except Raised Nat := do
  let n ← s.frameCount
  if n = 0 then .error (.fault .noCurrentFrame) else s.offset (n - 1)

/-- Where appendFrame places record n: HDR_SIZE for the first, else the next even address after the previous record (R59,
R161). -/
def State.nextRecord (s : State) (n : Nat) : Except Raised Nat :=
  if n = 0 then .ok Config.hdrSize
  else do
    let p ← s.offset (n - 1)
    let kb ← s.read16 p
    .ok (align2 (p + recordSize kb))

/-- The four writes of appendFrame, once its checks have passed (R161). -/
def State.writeRecord (s : State) (n off : Nat) (k : FrameKind) (e : BitVec 20) : Except Raised State := do
  let s1 ← s.write16 (offsetAddr n) (BitVec.ofNat 16 off)
  let s2 ← s1.write16 off (makeKb k.code 0)
  let s3 ← s2.write16 (off + 2) (elapsedField e)
  s3.write8 countAddr (BitVec.ofNat 8 (n + 1))

/-- `appendFrame(k, e)` (R161, R162). -/
def State.appendFrame (s : State) (k : FrameKind) (e : BitVec 20) : Except Raised State := do
  let n ← s.frameCount
  if n = Config.maxFrames then .error (.session .bufferOverflow)
  else do
    let off ← s.nextRecord n
    if s.cap.toNat < off + Config.recHdr then .error (.session .bufferOverflow)
    else s.writeRecord n off k e

/-- A bit at place j of its byte, most significant first: `b << (7 - j)` (R54, R165). -/
def bitAt (b : Bool) (j : Nat) : Byte := if b then 0x80#8 >>> j else 0

/-- The payload byte that a bit goes to, before the write: a new byte starts with seven zeros and must lie below CAP, a
byte already started is read back (R163). -/
def State.payloadByte (s : State) (n a : Nat) : Except Raised Byte :=
  if n % 8 = 0 then
    if s.cap.toNat ≤ a then .error (.session .bufferOverflow) else .ok 0
  else s.read8 a

/-- `writeBit(b)`: append a bit to the current frame (R163). -/
def State.writeBit (s : State) (b : Bool) : Except Raised State := do
  let p ← s.currentFrame
  let kb ← s.read16 p
  let n := bitCountOf kb
  if n = Config.maxBitCount then .error (.session .bufferOverflow)
  else do
    let a := p + Config.recHdr + n / 8
    let old ← s.payloadByte n a
    let s1 ← s.write8 a (old ||| bitAt b (n % 8))
    s1.write16 p (makeKb (kindOf kb) (n + 1))

/-- `addElapsed(d)`: `EACC <- sat20(EACC + d)`, shown in the current record's ELAPSED (R167). -/
def State.addElapsed (s : State) (d : BitVec 15) : Except Raised State := do
  let p ← s.currentFrame
  let e := sat20 (s.eacc.toNat + d.toNat)
  (s.setEacc e).write16 (p + 2) (elapsedField e)

/-- `PAYLOAD(p, k) = PAYLOAD(q, k)` for all k below n (R180). -/
def State.samePayload (s : State) (p q : Nat) : Nat → Except Raised Bool
  | 0 => .ok true
  | k + 1 => do
    let same ← s.samePayload p q k
    if same then do
      let x ← s.read8 (p + Config.recHdr + k)
      let y ← s.read8 (q + Config.recHdr + k)
      .ok (x == y)
    else .ok false

/-- The test of finalize: the record at p is Data, and its bit count and payload are those of the record at q (R180). -/
def State.duplicates (s : State) (p q : Nat) : Except Raised Bool := do
  let kp ← s.read16 p
  let kq ← s.read16 q
  if kindOf kp = FrameKind.data.code ∧ bitCountOf kp = bitCountOf kq then s.samePayload p q (ceil8 (bitCountOf kp))
  else .ok false

/-- `finalize(i)`: a sealed frame after the first that duplicates frame 0 becomes SameAsFirst, its bit count kept (R180). -/
def State.finalize (s : State) (i : Nat) : Except Raised State :=
  if i = 0 then .ok s
  else do
    let p ← s.offset i
    let q ← s.offset 0
    let dup ← s.duplicates p q
    if dup then do
      let kb ← s.read16 p
      s.write16 p (makeKb FrameKind.sameAsFirst.code (bitCountOf kb))
    else .ok s

/-- The bits of one byte, from place j on (R165). -/
def packFrom (j : Nat) : List Bool → Byte
  | [] => 0
  | b :: bs => bitAt b j ||| packFrom (j + 1) bs

/-- `pack(bits)`: byte k holds bits 8k to 8k + 7, most significant first, unused bits 0 (R165). -/
def pack (bits : List Bool) : List Byte :=
  (List.range (ceil8 bits.length)).map fun k => packFrom 0 ((bits.drop (8 * k)).take 8)

/-- `unpack(bytes, n)`: bit j is bit `7 - (j mod 8)` of byte `j div 8` (R165). -/
def unpack (bytes : List Byte) (n : Nat) : List Bool :=
  (List.range n).map fun j => (bytes.getD (j / 8) 0).getLsbD (7 - j % 8)

end Sys2Proof.Machine
end

