-- ==== Sys2Proof/Machine/HostCommands.lean ====
section
/-! DEFINITION. The host commands INIT, RDCOUNT, RDFRAME, RDBYTE and RDSTATUS, and the answer to a word that is no command
(45_host_commands.md R190 to R199). -/

namespace Sys2Proof.Machine

/-- INIT with CAP ≥ HDR_SIZE: a new session in a zeroed buffer, from any STATE (R190). -/
def State.startSession (s : State) (c : BitVec 16) : State :=
  { s with
    buf := s.buf.zeroBelow c.toNat, cap := c, st := .await,
    errKind := 0, lm := 0, ls := 0, lmValid := false, eacc := 0 }.continued 0

/-- `initFail()`: BufferTooSmall leaves no session; BUF, LM, LS and EACC are unchanged (R191). -/
def State.initFail (s : State) : State :=
  { s with st := .uninit, cap := 0, errKind := bufferTooSmallCode, lmValid := false }.respond .sessionError
    bufferTooSmallCode 0

/-- INIT (R190, R191). -/
def execInit (c : BitVec 16) (s : State) : Result :=
  if c.toNat < Config.hdrSize then .next s.initFail else .next (s.startSession c)

/-- What the read commands share: NotInitialized in UNINIT, else the read (R192). -/
def State.readCommand (s : State) (read : Except Raised State) : Result :=
  if s.st = .uninit then .next (s.raiseCommand .notInitialized) else s.conclude read

/-- RDCOUNT: FRAME_COUNT (R193). -/
def execRdcount (s : State) : Result :=
  s.readCommand do
    let n ← s.read8 countAddr
    .ok (s.continued (n.setWidth 16))

/-- The payload address of the record at p: frame 0's for a SameAsFirst frame (R194). -/
def State.payloadAddr (s : State) (p : Nat) : Except Raised Nat := do
  let kb ← s.read16 p
  if kindOf kb = FrameKind.sameAsFirst.code then do
    let q ← s.offset 0
    .ok (q + Config.recHdr)
  else .ok (p + Config.recHdr)

/-- The field of the record at p that RDFRAME selects (R194). The DATA field of the response is 16 bits wide (R86). -/
def State.frameField (s : State) (sel : FrameSel) (p : Nat) : Except Raised Half :=
  match sel with
  | .kb => s.read16 p
  | .elapsed => s.read16 (p + 2)
  | .payload => do
    let a ← s.payloadAddr p
    .ok (BitVec.ofNat 16 a)
  | .offset => .ok (BitVec.ofNat 16 p)

/-- RDFRAME: one field of frame `index`, OutOfRange when there is no such frame (R194, R195). -/
def execRdframe (sel : FrameSel) (index : BitVec 8) (s : State) : Result :=
  s.readCommand do
    let n ← s.frameCount
    if n ≤ index.toNat then .ok (s.raiseCommand .outOfRange)
    else do
      let p ← s.offset index.toNat
      let data ← s.frameField sel p
      .ok (s.continued data)

/-- RDBYTE: one byte below CAP, OutOfRange above (R196). -/
def execRdbyte (addr : BitVec 16) (s : State) : Result :=
  s.readCommand
    (if s.cap ≤ addr then .ok (s.raiseCommand .outOfRange)
    else do
      let b ← s.read8 addr.toNat
      .ok (s.continued (b.setWidth 16)))

/-- The status word from STATE, the FMT and NFR fields, LM_VALID and ERR_KIND (10_state.md R32). -/
def statusWord (nfr : BitVec 4) (err : BitVec 4) (lmv : Bool) (fmt : BitVec 2) (st : BitVec 2) : Half :=
  nfr ++ err ++ 0#3 ++ BitVec.ofBool lmv ++ fmt ++ st

/-- The status word: FMT and NFR are FORMAT[1:0] and FRAME_COUNT[3:0], both 0 in UNINIT (R32, R198). -/
def State.readStatus (s : State) : Except Raised Half :=
  if s.st = .uninit then .ok (statusWord 0 s.errKind s.lmValid 0 s.st.code)
  else do
    let fmt ← s.read8 formatAddr
    let nfr ← s.read8 countAddr
    .ok (statusWord (nfr.extractLsb' 0 4) s.errKind s.lmValid (fmt.extractLsb' 0 2) s.st.code)

/-- The register RDSTATUS selects (R198). -/
def State.readRegister (s : State) (sel : StatusSel) : Except Raised Half :=
  match sel with
  | .status => s.readStatus
  | .lm => .ok (s.lm.setWidth 16)
  | .ls => .ok (s.ls.setWidth 16)
  | .cap => .ok s.cap

/-- RDSTATUS, valid in every STATE (R198). -/
def execRdstatus (sel : StatusSel) (s : State) : Result :=
  s.conclude do
    let data ← s.readRegister sel
    .ok (s.continued data)

/-- A word that is no command: CommandError(IllegalCommand) in every STATE (R199). -/
def execIllegal (s : State) : Result := .next (s.raiseCommand .illegalCommand)

end Sys2Proof.Machine
end

