-- ==== Sys2Proof/Machine/Classifier.lean ====
section
/-! DEFINITION. The Margin Classifier (40_classifier.md R103) and the leader match that uses it (41_leader.md R126). Pure
functions of durations and of the Format Table. -/

namespace Sys2Proof

/-- `lo = ceil(8·N / 10)` (R103). -/
def Range.lo (r : Range) : Nat := (8 * r.nominal + 9) / 10

/-- `hi = floor(12·N / 10)` (R103). -/
def Range.hi (r : Range) : Nat := 12 * r.nominal / 10

/-- `inR(v, r)` of a present range: `10·v ≥ 8·N` and `10·v ≤ 12·N` (R103). -/
def inR (v : Nat) (r : Range) : Bool := decide (8 * r.nominal ≤ 10 * v) && decide (10 * v ≤ 12 * r.nominal)

/-- `inR(v, r)` of a range that may be absent; an absent range matches no duration, not even 0 (R100, R103). -/
def inRange (v : Nat) : Option Range → Bool
  | none => false
  | some r => inR v r

end Sys2Proof

namespace Sys2Proof.Machine

/-- The kind a descriptor gives a leader pair, none when it does not accept the pair: one turn of the loop of R126. -/
def leaderKind (D : Descriptor) (m s : Nat) : Option FrameKind :=
  if inR m D.leaderMark then
    if D.leaderSpace = none then some .data
    else if inRange s D.leaderSpace then some .data
    else if inRange s D.repeater then some .repeater
    else none
  else none

/-- `matchLeader(m, s)`: the first format in table order whose descriptor accepts the pair, with the kind it gives (R126). -/
def matchLeader (t : FormatTable) (m s : Nat) : Option (Format × FrameKind) :=
  [Format.nec, Format.kadenkyo, Format.sony].findSome? fun f =>
    (leaderKind (t.descriptor f) m s).map fun k => (f, k)

end Sys2Proof.Machine
end

