-- ==== Sys2Proof/Machine/Bits.lean ====
section
/-! DEFINITION. The bit extractor: SAMPLE in ASSEMBLE, after the representability check (42_bits.md R140 to R150). -/

namespace Sys2Proof.Machine

/-- `D = FORMAT_TABLE[FORMAT]`, the session format's descriptor (42_bits.md's opening, 00_scope.md R10). -/
def State.descriptor (s : State) : Except Raised Descriptor := do
  let c ← s.read8 formatAddr
  match Format.ofCode c with
  | some f => .ok (s.table.descriptor f)
  | none => .error (.fault (.noDescriptor c))

/-- `syncStep(d)`: only symbol0's lower bound is checked, and the duration is added to the frame's elapsed time (R141). -/
def State.syncStep (s : State) (D : Descriptor) (d : BitVec 15) : Except Raised State :=
  if d.toNat < D.symbol0.lo then .error (.session .timingTooShort)
  else do
    let s1 ← s.addElapsed d
    .ok (s1.continued 0)

/-- `bitStep(b, d)`: write the bit, add the duration (R143, R144). -/
def State.bitStep (s : State) (b : Bool) (d : BitVec 15) : Except Raised State := do
  let s1 ← s.writeBit b
  let s2 ← s1.addElapsed d
  .ok (s2.continued 0)

/-- A sample in a symbol range: UnexpectedTiming in a Repeater frame, a bit in any other (R142, R150). -/
def State.symbolStep (s : State) (b : Bool) (d : BitVec 15) : Except Raised State := do
  let p ← s.currentFrame
  let kb ← s.read16 p
  if kindOf kb = FrameKind.repeater.code then .error (.session .unexpectedTiming)
  else s.bitStep b d

/-- `isBoundary(d)`: beyond both symbol ranges, at a byte boundary, in the format's leaderMark range (R145). -/
def State.isBoundary (s : State) (D : Descriptor) (d : BitVec 15) : Except Raised Bool := do
  let p ← s.currentFrame
  let kb ← s.read16 p
  .ok (decide (D.symbol0.hi < d.toNat) && decide (D.symbol1.hi < d.toNat)
    && decide (bitCountOf kb % 8 = 0) && inR d.toNat D.leaderMark)

/-- `seal(d)`: finalize the current frame, return to AWAIT, and latch the sealing sample as the next leader's mark (R146). -/
def State.sealFrame (s : State) (d : BitVec 15) : Except Raised State := do
  let n ← s.frameCount
  let s1 ← s.finalize (n - 1)
  .ok (((s1.enter .await).latch d).respond .frameBoundary 0 0)

/-- `infoStep(d)`: a 0 bit, a 1 bit, the frame boundary, or UnexpectedTiming, tested in this order (R142, R147). -/
def State.infoStep (s : State) (D : Descriptor) (d : BitVec 15) : Except Raised State :=
  if inR d.toNat D.symbol0 then s.symbolStep false d
  else if inR d.toNat D.symbol1 then s.symbolStep true d
  else do
    let boundary ← s.isBoundary D d
    if boundary then s.sealFrame d else .error (.session .unexpectedTiming)

/-- `frameStep(edge, d)`: the informative edge carries a bit, the other is the sync pulse (R140). -/
def State.frameStep (s : State) (e : Edge) (d : BitVec 15) : Except Raised State := do
  let D ← s.descriptor
  if e = D.infoEdge then s.infoStep D d else s.syncStep D d

end Sys2Proof.Machine
end

