-- ==== Sys2Proof/Machine/Leader.lean ====
section
/-! DEFINITION. The leader detector: SAMPLE in AWAIT, after the representability check (41_leader.md R123 to R130). -/

namespace Sys2Proof.Machine

/-- Fix the session format if none is fixed: `if FORMAT = 0: MemWrite(0, 1, f)` (R128). -/
def State.fixFormat (s : State) (f : Format) : Except Raised State := do
  let fmt ← s.read8 formatAddr
  if fmt = 0 then s.write8 formatAddr f.code else .ok s

/-- `leaderPair(d)` after its two committed writes (R128): match, format check, append, fix the format, start the frame. -/
def State.acceptLeader (s : State) (d : BitVec 15) : Except Raised State :=
  match matchLeader s.table s.lm.toNat d.toNat with
  | none => .error (.session .unrecognizedLeader)
  | some (f, k) => do
    let fmt ← s.read8 formatAddr
    if fmt ≠ 0 ∧ fmt ≠ f.code then .error (.session .formatMismatch)
    else do
      let e := sat20 (s.lm.toNat + d.toNat)
      let s1 ← s.appendFrame k e
      let s2 ← s1.fixFormat f
      .ok (((s2.setEacc e).enter .assemble).continued 0)

/-- `leaderPair(d)`: LS and LM_VALID are written first, and stand even if the rest raises (R127, R128). -/
def State.leaderPair (s : State) (d : BitVec 15) : Result :=
  (s.pairSpace d).conclude ((s.pairSpace d).acceptLeader d)

/-- `leaderStep(edge, d)` (R123): a mark is latched (R124), a space with no latched mark is ignored (R125), and a space
with one makes a leader pair. -/
def State.leaderStep (s : State) (e : Edge) (d : BitVec 15) : Result :=
  match e with
  | .mark => .next ((s.latch d).continued 0)
  | .space => if s.lmValid then s.leaderPair d else .next (s.continued 0)

end Sys2Proof.Machine
end

