-- ==== Sys2Proof/Machine/Sample.lean ====
section
/-! DEFINITION. The SAMPLE commands MARK and SPACE (41_leader.md R120 to R122). -/

namespace Sys2Proof.Machine

/-- SAMPLE: NotInitialized in UNINIT, the session's error again in ERROR (R120); else the representability check (R122) and
the step of the state (R121). -/
def State.sample (s : State) (e : Edge) (dur : BitVec 24) : Result :=
  match s.st with
  | .uninit => .next (s.raiseCommand .notInitialized)
  | .error => .next (s.respond .sessionError s.errKind 0)
  | .await =>
    if unrepresentable dur then .next (s.raiseSession .timingOverflow)
    else s.leaderStep e (shortDuration dur)
  | .assemble =>
    if unrepresentable dur then .next (s.raiseSession .timingOverflow)
    else s.conclude (s.frameStep e (shortDuration dur))

/-- MARK (R81, R121). -/
def execMark (dur : BitVec 24) (s : State) : Result := s.sample .mark dur

/-- SPACE (R81, R121). -/
def execSpace (dur : BitVec 24) (s : State) : Result := s.sample .space dur

end Sys2Proof.Machine
end

