-- ==== Sys2Proof/Machine/Dispatch.lean ====
section
/-! DEFINITION. The meaning of each command: one arm per constructor of Instr, each one direct call. -/

namespace Sys2Proof.Machine

def exec (i : Instr) (s : State) : Host.Outcome State Fault Refusal :=
  match i with
  | .init cap => Sys2Proof.Machine.execInit cap s
  | .mark dur => Sys2Proof.Machine.execMark dur s
  | .space dur => Sys2Proof.Machine.execSpace dur s
  | .rdcount => Sys2Proof.Machine.execRdcount s
  | .rdframe sel index => Sys2Proof.Machine.execRdframe sel index s
  | .rdbyte addr => Sys2Proof.Machine.execRdbyte addr s
  | .rdstatus sel => Sys2Proof.Machine.execRdstatus sel s

end Sys2Proof.Machine
end

