-- ==== Sys2Proof/Machine/Step.lean ====
section
/-! DEFINITION. One step of IRRX: the host's next event, whole (00_scope.md R5, R6). -/

namespace Sys2Proof.Machine

/-- Run one command word: the command it decodes to, or the answer to ILLEGAL (30_encoding.md R83, R84). -/
def runWord (w : Word) (s : State) : Host.Outcome State Fault Refusal :=
  match decode w with
  | .ok i => exec i s
  | .error _ => execIllegal s

/-- One step: with no event pending IRRX holds its state (R6, 60_exceptions.md R224); a reset resets it (R230); a command
word is taken from the port, decoded and run (R65, R85). -/
def step (s : State) : Host.Outcome State Fault Refusal :=
  match s.nextEvent with
  | none => .next s
  | some (.reset, s1) => .next s1.hardReset
  | some (.command w, s1) => runWord w s1

/-- The state whose next step runs the command word with the table's bits `w`: the host issues that word next (log entry
1). -/
def State.withFetchWord (s : State) (nbits w : Nat) : State :=
  s.withPort (.command (tableWord nbits w) :: s.port)

end Sys2Proof.Machine
end

