-- ==== Sys2Proof/Machine/Assembler.lean ====
section
/-! DEFINITION. The assembler of 30_encoding.md R88 and the pseudo-instructions of R89: a line of text to an `AsmLine`, and an
`AsmLine` to its command words. The nominal durations are those of the default Format Table, as R89 says. -/

namespace Sys2Proof

/-- The command of a duration on an edge (R89's `SAMPLE`). -/
def sampleInstr (e : Edge) (dur : Nat) : Instr :=
  match e with
  | .mark => .mark (BitVec.ofNat 24 dur)
  | .space => .space (BitVec.ofNat 24 dur)

/-- `LEADER <m>, <s>` (R89). -/
def leaderInstrs (m s : Nat) : List Instr := [sampleInstr .mark m, sampleInstr .space s]

/-- The range whose nominal a `<F>.LEADER` space has: leaderSpace, or symbol0 where the format has none (R89). -/
def leaderSpaceNominal (D : Descriptor) : Nat := (D.leaderSpace.getD D.symbol0).nominal

/-- `<F>.BIT <b>` with the descriptor's nominals: NEC and Kadenkyo send a symbol0 mark and the bit's space, Sony the bit's
mark and a symbol0 space (R89). -/
def bitInstrs (D : Descriptor) (b : Bool) : List Instr :=
  let symbol := if b then D.symbol1.nominal else D.symbol0.nominal
  match D.infoEdge with
  | .space => [sampleInstr .mark D.symbol0.nominal, sampleInstr .space symbol]
  | .mark => [sampleInstr .mark symbol, sampleInstr .space D.symbol0.nominal]

/-- The eight bits of a byte, most significant first (R89). -/
def byteBits (v : Nat) : List Bool := (List.range 8).map fun j => (BitVec.ofNat 8 v).getLsbD (7 - j)

/-- The commands of a well-formed line (R88, R89). -/
def AsmLine.instrs : AsmLine → List Instr
  | .init cap => [.init (BitVec.ofNat 16 cap)]
  | .mark dur => [sampleInstr .mark dur]
  | .space dur => [sampleInstr .space dur]
  | .rdcount => [.rdcount]
  | .rdframe index sel => [.rdframe (FrameSel.ofBits (BitVec.ofNat 2 sel)) (BitVec.ofNat 8 index)]
  | .rdbyte addr => [.rdbyte (BitVec.ofNat 16 addr)]
  | .rdstatus sel => [.rdstatus (StatusSel.ofBits (BitVec.ofNat 2 sel))]
  | .sample e dur => [sampleInstr e dur]
  | .leader m s => leaderInstrs m s
  | .formatLeader f =>
    let D := FormatTable.default.descriptor f
    leaderInstrs D.leaderMark.nominal (leaderSpaceNominal D)
  | .formatRepeat f =>
    let D := FormatTable.default.descriptor f
    match D.repeater with
    | some r => leaderInstrs D.leaderMark.nominal r.nominal
    | none => []
  | .formatBit f b => bitInstrs (FormatTable.default.descriptor f) (b == 1)
  | .formatEnd f =>
    let D := FormatTable.default.descriptor f
    [sampleInstr D.infoEdge D.leaderMark.nominal]
  | .formatByte f v => (byteBits v).flatMap (bitInstrs (FormatTable.default.descriptor f))

/-- Assemble a line: its words, none where an operand does not fit its field (R88). -/
def AsmLine.assemble (l : AsmLine) : Option (List Word) :=
  if l.wellFormed then some (l.instrs.map encode) else none

/-! The text of a line (R88; log entry 14). -/

/-- The value of a decimal digit. -/
def decimalDigit (c : Char) : Option Nat :=
  if '0' ≤ c ∧ c ≤ '9' then some (c.toNat - '0'.toNat) else none

/-- The value of a hexadecimal digit, of either case. -/
def hexDigit (c : Char) : Option Nat :=
  if '0' ≤ c ∧ c ≤ '9' then some (c.toNat - '0'.toNat)
  else if 'a' ≤ c ∧ c ≤ 'f' then some (c.toNat - 'a'.toNat + 10)
  else if 'A' ≤ c ∧ c ≤ 'F' then some (c.toNat - 'A'.toNat + 10)
  else none

/-- The number that digits of a base write after the number `acc`. -/
def digitsFrom (digit : Char → Option Nat) (base : Nat) : Nat → List Char → Option Nat
  | acc, [] => some acc
  | acc, c :: cs =>
    match digit c with
    | some d => digitsFrom digit base (acc * base + d) cs
    | none => none

/-- An operand: decimal, or hexadecimal after `0x` (R88). -/
def parseNumber : List Char → Option Nat
  | [] => none
  | '0' :: 'x' :: c :: cs => digitsFrom hexDigit 16 0 (c :: cs)
  | c :: cs => digitsFrom decimalDigit 10 0 (c :: cs)

/-- A space or a tab. -/
def isBlank (c : Char) : Bool := c == ' ' || c == '\t'

/-- Text without blanks at its ends. -/
def trimBlanks (t : List Char) : List Char := ((t.dropWhile isBlank).reverse.dropWhile isBlank).reverse

/-- Text up to a comment's `;` (R88). -/
def dropComment (t : List Char) : List Char := t.takeWhile (fun c => !(c == ';'))

/-- The operands of a line, split at commas. -/
def splitOperands (t : List Char) : List (List Char) :=
  if t = [] then [] else (t.splitOn ',').map trimBlanks

/-- An operand that is a name of a list or a number (R88's `KB = 0`). -/
def parseNamed (names : List (String × Nat)) (t : List Char) : Option Nat :=
  match names.find? (fun x => x.1.toList == t) with
  | some x => some x.2
  | none => parseNumber t

/-- RDFRAME's select names (R88). -/
def frameSelNames : List (String × Nat) := [("KB", 0), ("ELAPSED", 1), ("PAYLOAD", 2), ("OFFSET", 3)]

/-- RDSTATUS's select names (R88). -/
def statusSelNames : List (String × Nat) := [("STATUS", 0), ("LM", 1), ("LS", 2), ("CAP", 3)]

/-- `SAMPLE`'s edge: 1 or `mark`, 0 or `space` (R89). -/
def parseEdge (t : List Char) : Option Edge :=
  match parseNamed [("mark", 1), ("space", 0)] t with
  | some 1 => some .mark
  | some 0 => some .space
  | _ => none

/-- A line of the commands and of the two pseudo-instructions without a format (R88, R89). -/
def parseCommand (name : String) (ops : List (List Char)) : Option AsmLine :=
  match name, ops with
  | "INIT", [c] => (parseNumber c).map .init
  | "MARK", [d] => (parseNumber d).map .mark
  | "SPACE", [d] => (parseNumber d).map .space
  | "RDCOUNT", [] => some .rdcount
  | "RDFRAME", [i, s] => (parseNumber i).bind fun n => (parseNamed frameSelNames s).map (.rdframe n)
  | "RDBYTE", [a] => (parseNumber a).map .rdbyte
  | "RDSTATUS", [s] => (parseNamed statusSelNames s).map .rdstatus
  | "SAMPLE", [e, d] => (parseEdge e).bind fun x => (parseNumber d).map (.sample x)
  | "LEADER", [m, s] => (parseNumber m).bind fun x => (parseNumber s).map (.leader x)
  | _, _ => none

/-- A line of a format's pseudo-instruction, after its `<F>.` (R89). -/
def parseFormatLine (f : Format) (name : String) (ops : List (List Char)) : Option AsmLine :=
  match name, ops with
  | "LEADER", [] => some (.formatLeader f)
  | "REPEAT", [] => some (.formatRepeat f)
  | "BIT", [b] => (parseNumber b).map (.formatBit f)
  | "END", [] => some (.formatEnd f)
  | "BYTE", [v] => (parseNumber v).map (.formatByte f)
  | _, _ => none

/-- The format of a pseudo-instruction's name (R89). -/
def parseFormat (t : List Char) : Option Format :=
  if t = "NEC".toList then some .nec
  else if t = "KAD".toList then some .kadenkyo
  else if t = "SONY".toList then some .sony
  else none

/-- One line with no comment and no blanks at its ends: its name, then its operands. -/
def parseStatement (t : List Char) : Option AsmLine :=
  let name := t.takeWhile (fun c => !isBlank c)
  let ops := splitOperands (trimBlanks (t.dropWhile (fun c => !isBlank c)))
  let before := name.takeWhile (fun c => !(c == '.'))
  match name.dropWhile (fun c => !(c == '.')) with
  | [] => parseCommand (String.ofList name) ops
  | _ :: after => (parseFormat before).bind fun f => parseFormatLine f (String.ofList after) ops

/-- The words of one line of text: none where the assembler refuses it, no word for a line that is blank but for a
comment (R88). -/
def assembleText (t : String) : Option (List Word) :=
  let body := trimBlanks (dropComment t.toList)
  if body = [] then some [] else (parseStatement body).bind AsmLine.assemble

end Sys2Proof
end

