-- ==== Sys2Proof/Machine/Readout.lean ====
section
/-! DEFINITION. The host's procedure for reading one frame, command by command (45_host_commands.md R197). -/

namespace Sys2Proof.Machine

/-- The frame the host has read (R197): the source's `Frame`. -/
structure Frame where
  kind : BitVec 2
  bitCount : Nat
  elapsed : Half
  payload : List Byte
  deriving DecidableEq, Repr

/-- The DATA field of a response whose OUTCOME is CONTINUE (30_encoding.md R86). -/
def responseData (w : Word) : Option Half :=
  if w.extractLsb' 28 4 = RespOutcome.continued.code then some (w.extractLsb' 0 16) else none

/-- What a read command answers, none where it answers an error or the model stops. A read changes no state (R192). -/
def readAnswer (s : State) (i : Instr) : Option Half :=
  match exec i s with
  | .next t => t.resp.bind responseData
  | .fault _ => none
  | .refused _ => none

/-- The bytes the host reads from address a on (R197 step 6). -/
def readPayload (s : State) (a : BitVec 16) (n : Nat) : Option (List Byte) :=
  (List.range n).mapM fun k => (readAnswer s (.rdbyte (a + BitVec.ofNat 16 k))).map fun d => d.setWidth 8

/-- R197's six steps for frame i. -/
def readFrame (s : State) (i : BitVec 8) : Option Frame := do
  let kb ← readAnswer s (.rdframe .kb i)
  let el ← readAnswer s (.rdframe .elapsed i)
  let a ← readAnswer s (.rdframe .payload i)
  let bytes ← readPayload s a (ceil8 (bitCountOf kb))
  some { kind := kindOf kb, bitCount := bitCountOf kb, elapsed := el, payload := bytes }

end Sys2Proof.Machine
end

