-- ==== Sys2Proof/Safety.lean ====
section
/-! DEFINITION. What a safe run of IRRX is, in the terms the statements use: the fields of the Frame Store as a reader of BUF
sees them, the invariants of 10_state.md R34, and runs of several commands. -/

namespace Sys2Proof.Machine

/-- The byte at an address; used where `StoreInv.readable` says that it has a specified value. -/
def State.byteAt (s : State) (a : Nat) : Byte := (s.buf.read a).getD 0

/-- The 16-bit field at an address (R53). -/
def State.halfAt (s : State) (a : Nat) : Half := joinBytes (s.byteAt a) (s.byteAt (a + 1))

/-- FORMAT (R55). -/
def State.formatByte (s : State) : Byte := s.byteAt formatAddr

/-- FRAME_COUNT (R55). -/
def State.frames (s : State) : Nat := (s.byteAt countAddr).toNat

/-- OFFSET[i], the record of frame i (R55). -/
def State.recordAt (s : State) (i : Nat) : Nat := (s.halfAt (offsetAddr i)).toNat

/-- The KB halfword of frame i (R56). -/
def State.kbAt (s : State) (i : Nat) : Half := s.halfAt (s.recordAt i)

/-- KIND of frame i (R57). -/
def State.kindAt (s : State) (i : Nat) : BitVec 2 := kindOf (s.kbAt i)

/-- BITCOUNT of frame i (R57). -/
def State.bitsAt (s : State) (i : Nat) : Nat := bitCountOf (s.kbAt i)

/-- ELAPSED of frame i (R57). -/
def State.elapsedAt (s : State) (i : Nat) : Half := s.halfAt (s.recordAt i + 2)

/-- Byte k of frame i's own payload bytes (R57). -/
def State.payloadAt (s : State) (i k : Nat) : Byte := s.byteAt (s.recordAt i + Config.recHdr + k)

/-- The index of the current frame, FRAME_COUNT - 1 (R160). -/
def State.current (s : State) : Nat := s.frames - 1

/-- The payload bytes of frame i as a reader takes them (R197): a SameAsFirst frame's are frame 0's (R164, R194). -/
def State.payloadOf (s : State) (i : Nat) : List Byte :=
  let j := if s.kindAt i = FrameKind.sameAsFirst.code then 0 else i
  (List.range (ceil8 (s.bitsAt i))).map (s.payloadAt j)

/-- Where the next record would start (R59, R161). -/
def State.nextOffset (s : State) : Nat :=
  if s.frames = 0 then Config.hdrSize else align2 (s.recordAt s.current + recordSize (s.kbAt s.current))

/-- Frame i's payload bytes are still its own: it is not a SameAsFirst frame that a later frame follows (R164). -/
abbrev State.retained (s : State) (i : Nat) : Prop :=
  s.kindAt i ≠ FrameKind.sameAsFirst.code ∨ i = s.current

/-- The invariants of the Frame Store in a session (R34, with the facts of R28, R29, R55, R59, R164, R167 and R182 that make
them hold of every next state). -/
structure StoreInv (s : State) : Prop where
  /-- R34 item 1. -/
  capHolds : Config.hdrSize ≤ s.cap.toNat
  /-- Every byte below CAP has a specified value, since INIT zeroed it (R190). -/
  readable : ∀ a < s.cap.toNat, (s.buf.read a).isSome = true
  /-- R34 item 2. -/
  openFrame : s.st = .assemble → 1 ≤ s.frames
  /-- R29. -/
  countBound : s.frames ≤ Config.maxFrames
  /-- R28. -/
  formatCode : s.formatByte.toNat ≤ 3
  /-- R34 items 3 and 4. -/
  formatKnown : 1 ≤ s.frames → s.formatByte ≠ 0
  /-- R34 item 5, R56. -/
  firstRecord : 1 ≤ s.frames → s.recordAt 0 = Config.hdrSize
  /-- R59, R161. -/
  nextRecord : ∀ i < s.current, s.recordAt (i + 1) = align2 (s.recordAt i + recordSize (s.kbAt i))
  /-- R34 items 6 and 7. -/
  recordFits : ∀ i < s.frames, s.recordAt i + Config.recHdr + ceil8 (s.bitsAt i) ≤ s.cap.toNat
  /-- R55: an offset with no frame is 0. -/
  unusedOffset : ∀ i < Config.maxFrames, s.frames ≤ i → s.recordAt i = 0
  /-- R34 item 8. -/
  trailingZero : ∀ i < s.frames, s.retained i → s.bitsAt i % 8 ≠ 0 →
    s.payloadAt i (s.bitsAt i / 8) &&& (0xFF#8 >>> (s.bitsAt i % 8)) = 0
  /-- R34 item 9. -/
  firstKind : 1 ≤ s.frames → s.kindAt 0 ≠ FrameKind.sameAsFirst.code
  /-- R34 item 11. -/
  kindCode : ∀ i < s.frames, s.kindAt i ≠ 3
  /-- R34 item 11. -/
  repeaterEmpty : ∀ i < s.frames, s.kindAt i = FrameKind.repeater.code → s.bitsAt i = 0
  /-- R164: a SameAsFirst frame has frame 0's bit count. -/
  duplicateCount : ∀ i < s.frames, s.kindAt i = FrameKind.sameAsFirst.code → s.bitsAt i = s.bitsAt 0
  /-- R182: a frame still being assembled is not SameAsFirst. -/
  openKind : s.st = .assemble → s.kindAt s.current ≠ FrameKind.sameAsFirst.code
  /-- R31, R167: the last frame's ELAPSED shows EACC. -/
  elapsedShown : 1 ≤ s.frames → s.elapsedAt s.current = elapsedField s.eacc

/-- The invariant of the machine: R34 with the legal values of ERR_KIND (R25, R33, R212), the canonical buffer, and the
Format Table R100 and R102 allow. What R34 says of BUF holds in a session only: in UNINIT BUF is not meaningful (R33, log
entry 11). -/
structure Inv (s : State) : Prop where
  /-- R100, R102. -/
  tableWf : s.table.wellFormed = true
  /-- Log entry 3. -/
  bufWf : Memory.wf s.buf
  /-- R25: 0 in a session, 0 or 7 in UNINIT, 1 to 6 in ERROR. -/
  errKindLegal : (s.st = .uninit → s.errKind = 0 ∨ s.errKind = bufferTooSmallCode)
    ∧ (s.st = .await ∨ s.st = .assemble → s.errKind = 0)
    ∧ (s.st = .error → 1 ≤ s.errKind.toNat ∧ s.errKind.toNat ≤ 6)
  /-- R33: CAP is 0 after reset and after a failed INIT. -/
  uninitCap : s.st = .uninit → s.cap = 0
  /-- R34 item 10. -/
  latchState : s.lmValid = true → s.st = .await ∨ s.st = .error
  /-- R34 items 1 to 9 and 11, in a session. -/
  store : s.st ≠ .uninit → StoreInv s

/-- Run commands one after another, stopping at the first fault or refusal (R65). -/
def runAll : List Instr → State → Host.Outcome State Fault Refusal
  | [], s => .next s
  | i :: is, s =>
    match exec i s with
    | .next t => runAll is t
    | .fault f => .fault f
    | .refused r => .refused r

/-- The command that delivers one sample on an edge (R81). -/
def sampleOf (e : Edge) (dur : BitVec 24) : Instr :=
  match e with
  | .mark => .mark dur
  | .space => .space dur

end Sys2Proof.Machine
end

