-- ==== Sys2Proof/Certificates/Slice0/Obligations.lean ====
section
/-! DEFINITION. The statements about IRRX, each formalising numbered rules of spec/ (its docstring names them). Durations,
counts and addresses are numbers; a field of BUF is read with the model's own reads (`State.read8`, `State.read16`,
`State.offset`, `State.currentFrame`) or, under `Inv`, with the reader's views of Safety.lean. -/

open Sys2Proof Sys2Proof.Machine

/-! Encoding (30_encoding.md). -/

/-- R81, R82, R83: the word of every well-formed command decodes to that command, with every operand at every value. -/
def Obligations.DecodeInvertsEncode : Prop :=
  ∀ i : Instr, i.wellFormed = true → decode (encode i) = .ok i

/-- R80, R81, R84: a word that decodes to a command is that command's word, so no other word means it and every reserved
bit of it is 0. -/
def Obligations.EncodeInvertsDecode : Prop :=
  ∀ (w : Word) (i : Instr), decode w = .ok i → encode i = w

/-- R83, R82: decoding is the spec's chain of row tests with its operand fields, total on all words, and no two rows
overlap. -/
def Obligations.DecodeFollowsTable : Prop :=
  (∀ w : Word, decode w =
    if w &&& 0xFFFF0000 = 0x10000000 then .ok (.init (w.extractLsb' 0 16))
    else if w &&& 0xFF000000 = 0x21000000 then .ok (.mark (w.extractLsb' 0 24))
    else if w &&& 0xFF000000 = 0x20000000 then .ok (.space (w.extractLsb' 0 24))
    else if w = 0x30000000 then .ok .rdcount
    else if w &&& 0xFFFFFC00 = 0x40000000 then
      .ok (.rdframe (FrameSel.ofBits (w.extractLsb' 8 2)) (w.extractLsb' 0 8))
    else if w &&& 0xFFFF0000 = 0x50000000 then .ok (.rdbyte (w.extractLsb' 0 16))
    else if w &&& 0xFFFFFFFC = 0x60000000 then .ok (.rdstatus (StatusSel.ofBits (w.extractLsb' 0 2)))
    else .error (reservedReason w)) ∧
  ∀ (w : Word) (r r' : OpcodeRow), r ∈ opcodeRows → r' ∈ opcodeRows → r.hits w = true → r'.hits w = true → r = r'

/-- R84, R199: a word is ILLEGAL exactly when OP is 0 or 7 to 15, or OP is assigned and a reserved bit is 1; in every STATE
it answers IllegalCommand and changes nothing else. -/
def Obligations.ReservedWordsRefused : Prop :=
  ∀ w : Word,
    ((∃ e, decode w = .error e) ↔
      (w.extractLsb' 28 4).toNat = 0 ∨ 7 ≤ (w.extractLsb' 28 4).toNat ∨
      (w.extractLsb' 28 4 = 1#4 ∧ w.extractLsb' 16 12 ≠ 0#12) ∨
      (w.extractLsb' 28 4 = 2#4 ∧ w.extractLsb' 25 3 ≠ 0#3) ∨
      (w.extractLsb' 28 4 = 3#4 ∧ w.extractLsb' 0 28 ≠ 0#28) ∨
      (w.extractLsb' 28 4 = 4#4 ∧ w.extractLsb' 10 18 ≠ 0#18) ∨
      (w.extractLsb' 28 4 = 5#4 ∧ w.extractLsb' 16 12 ≠ 0#12) ∨
      (w.extractLsb' 28 4 = 6#4 ∧ w.extractLsb' 2 26 ≠ 0#26)) ∧
    ∀ s : State, (∃ e, decode w = .error e) → runWord w s = .next { s with resp := some 0x39000000 }

/-- R90: every worked encoding decodes to the command it stands for, and the two illegal words to none; with them R81's one
word of RDCOUNT, which R90 does not list. -/
def Obligations.WorkedEncodingsDecode : Prop :=
  decode 0x10000040 = .ok (.init 64) ∧ decode 0x21002320 = .ok (.mark 8992) ∧
  decode 0x20001190 = .ok (.space 4496) ∧ decode 0x21000232 = .ok (.mark 562) ∧
  decode 0x20000696 = .ok (.space 1686) ∧ decode 0x20009C40 = .ok (.space 40000) ∧
  decode 0x40000201 = .ok (.rdframe .payload 1) ∧ decode 0x5000001A = .ok (.rdbyte 26) ∧
  decode 0x60000000 = .ok (.rdstatus .status) ∧ decode 0x30000000 = .ok .rdcount ∧
  decode 0x22000000 = .error (.reservedBit 2) ∧ decode 0x00000000 = .error (.unassignedOpcode 0)

/-- R88: the assembler writes every command as the one word of the table, and refuses a line with an operand that does not
fit its field. -/
def Obligations.AssemblerWritesCommands : Prop :=
  (∀ i : Instr, i.line.assemble = some [encode i]) ∧
  (∀ cap : Nat, 65535 < cap → (AsmLine.init cap).assemble = none) ∧
  (∀ dur : Nat, 0xFFFFFF < dur → (AsmLine.mark dur).assemble = none ∧ (AsmLine.space dur).assemble = none) ∧
  (∀ index sel : Nat, 255 < index ∨ 3 < sel → (AsmLine.rdframe index sel).assemble = none) ∧
  (∀ addr : Nat, 65535 < addr → (AsmLine.rdbyte addr).assemble = none) ∧
  (∀ sel : Nat, 3 < sel → (AsmLine.rdstatus sel).assemble = none)

/-- R89: every row of its table. `SAMPLE` is the `MARK` or the `SPACE` of its edge, `LEADER` a `MARK` and a `SPACE` (each
refused where that line is), the rows of a format give the words of the default table's nominals, and `*.BYTE` is eight
`*.BIT` of v, most significant bit first. R89 has no `SONY.REPEAT`; that it is refused is the model's (log entry 14). -/
def Obligations.PseudoInstructionsExpand : Prop :=
  (∀ dur : Nat, AsmLine.assemble (.sample .mark dur) = AsmLine.assemble (.mark dur) ∧
    AsmLine.assemble (.sample .space dur) = AsmLine.assemble (.space dur)) ∧
  (assembleText "SAMPLE 1, 562" = some [0x21000232] ∧ assembleText "SAMPLE mark, 562" = some [0x21000232] ∧
    assembleText "SAMPLE 0, 562" = some [0x20000232] ∧ assembleText "SAMPLE space, 562" = some [0x20000232]) ∧
  (∀ m s : Nat, AsmLine.assemble (.leader m s) =
    ([AsmLine.mark m, AsmLine.space s].mapM AsmLine.assemble).map List.flatten) ∧
  AsmLine.assemble (.formatLeader .nec) = some [0x21002320, 0x20001190] ∧
  AsmLine.assemble (.formatRepeat .nec) = some [0x21002320, 0x200008C8] ∧
  AsmLine.assemble (.formatBit .nec 0) = some [0x21000232, 0x20000232] ∧
  AsmLine.assemble (.formatBit .nec 1) = some [0x21000232, 0x20000696] ∧
  AsmLine.assemble (.formatEnd .nec) = some [0x20002320] ∧
  AsmLine.assemble (.formatLeader .kadenkyo) = some [0x21000D48, 0x200006A4] ∧
  AsmLine.assemble (.formatRepeat .kadenkyo) = some [0x21000D48, 0x20000D48] ∧
  AsmLine.assemble (.formatBit .kadenkyo 0) = some [0x210001A9, 0x200001A9] ∧
  AsmLine.assemble (.formatBit .kadenkyo 1) = some [0x210001A9, 0x200004FB] ∧
  AsmLine.assemble (.formatEnd .kadenkyo) = some [0x20000D48] ∧
  AsmLine.assemble (.formatLeader .sony) = some [0x21000960, 0x20000258] ∧
  AsmLine.assemble (.formatBit .sony 0) = some [0x21000258, 0x20000258] ∧
  AsmLine.assemble (.formatBit .sony 1) = some [0x210004B0, 0x20000258] ∧
  AsmLine.assemble (.formatEnd .sony) = some [0x21000960] ∧
  AsmLine.assemble (.formatRepeat .sony) = none ∧
  ∀ (f : Format) (v : Nat), v ≤ 255 → AsmLine.assemble (.formatByte f v) =
    ([v / 128 % 2, v / 64 % 2, v / 32 % 2, v / 16 % 2, v / 8 % 2, v / 4 % 2, v / 2 % 2, v % 2].mapM
      fun b => AsmLine.assemble (.formatBit f b)).map List.flatten

/-! The step (00_scope.md R5, R6; 70_reset_and_hazards.md). -/

/-- R6, R65, R85, R199: the step takes one command word from the port, decodes it, and runs what it decodes to; a word that
decodes to nothing answers IllegalCommand. Taking the word from the port is all the step adds (log entry 1). -/
def Obligations.StepRunsDecodedCommand : Prop :=
  ∀ (s : State) (w : Word) (rest : List HostEvent), s.port = .command w :: rest →
    (∀ i, decode w = .ok i → step s = exec i { s with port := rest }) ∧
    (∀ e, decode w = .error e → step s = .next { s with port := rest, resp := some 0x39000000 })

/-- R6, R224: with nothing from the host, IRRX holds its state (the empty port is the model's form of that, log entry 1). -/
def Obligations.IdleHoldsState : Prop :=
  ∀ s : State, s.port = [] → step s = .next s

/-- R230, R231: a hardware reset between commands puts every register at its reset value; it does not clear BUF (the model's
reading, log entry 4) and no response stands after it (the model's choice, log entry 5). -/
def Obligations.HardwareResetClearsRegisters : Prop :=
  ∀ (s : State) (rest : List HostEvent), s.port = .reset :: rest →
    step s = .next
      { table := s.table, st := .uninit, cap := 0, errKind := 0, lm := 0, ls := 0, lmValid := false, eacc := 0,
        buf := s.buf, port := rest, resp := none }

/-- R33, R230: the state after power-on: UNINIT and every register 0. The rest is the model's form of what the spec leaves
open: an unspecified byte of BUF reads as no value (log entry 3), the configuration R7 asks for is R101's default table (log
entry 6), nothing is pending (log entry 1) and nothing has been answered (log entry 2). -/
def Obligations.ResetStateValues : Prop :=
  State.reset.st = .uninit ∧ State.reset.cap = 0 ∧ State.reset.errKind = 0 ∧ State.reset.lm = 0 ∧
  State.reset.ls = 0 ∧ State.reset.lmValid = false ∧ State.reset.eacc = 0 ∧
  (∀ a, State.reset.buf.read a = none) ∧ State.reset.table = FormatTable.default ∧
  State.reset.port = [] ∧ State.reset.resp = none

/-! INIT (45_host_commands.md R190, R191). -/

/-- R190: INIT with CAP ≥ 22 is accepted in every STATE; it zeroes [0, c), leaves the bytes above, sets CAP, clears every
other register, and answers CONTINUE. -/
def Obligations.InitStartsSession : Prop :=
  ∀ (c : BitVec 16) (s : State), 22 ≤ c.toNat →
    ∃ t, exec (.init c) s = .next t ∧
      t = { s with
        buf := t.buf, cap := c, st := .await, errKind := 0, lm := 0, ls := 0, lmValid := false, eacc := 0,
        resp := some 0x00000000 } ∧
      (∀ a < c.toNat, t.buf.read a = some 0) ∧ ∀ a, c.toNat ≤ a → t.buf.read a = s.buf.read a

/-- R191: INIT with CAP < 22 leaves no session: UNINIT, CAP 0, ERR_KIND 7, LM_VALID 0, the rest unchanged, answer
0x27000000. -/
def Obligations.InitTooSmall : Prop :=
  ∀ (c : BitVec 16) (s : State), c.toNat < 22 →
    exec (.init c) s =
      .next { s with st := .uninit, cap := 0, errKind := 7, lmValid := false, resp := some 0x27000000 }

/-! SAMPLE (41_leader.md). -/

/-- R120: MARK and SPACE answer NotInitialized in UNINIT and the session's error again in ERROR, whatever the duration, and
change nothing. -/
def Obligations.SampleOutsideSession : Prop :=
  ∀ (dur : BitVec 24) (s : State),
    (s.st = .uninit →
      exec (.mark dur) s = .next { s with resp := some 0x38000000 } ∧
      exec (.space dur) s = .next { s with resp := some 0x38000000 }) ∧
    (s.st = .error →
      exec (.mark dur) s = .next { s with resp := some (0x2#4 ++ s.errKind ++ 0#24) } ∧
      exec (.space dur) s = .next { s with resp := some (0x2#4 ++ s.errKind ++ 0#24) })

/-- R122: a duration over 0x7FFF gives TimingOverflow in AWAIT and in ASSEMBLE, before every other test, and writes nothing
else; 0x7FFF itself does not. -/
def Obligations.UnrepresentableDuration : Prop :=
  ∀ (dur : BitVec 24) (s : State), s.st = .await ∨ s.st = .assemble →
    (0x7FFF < dur.toNat →
      exec (.mark dur) s = .next { s with st := .error, errKind := 1, resp := some 0x21000000 } ∧
      exec (.space dur) s = .next { s with st := .error, errKind := 1, resp := some 0x21000000 }) ∧
    (dur.toNat ≤ 0x7FFF → ∀ t, exec (.mark dur) s = .next t ∨ exec (.space dur) s = .next t →
      t.resp ≠ some 0x21000000)

/-- R124: a mark in AWAIT is latched, replacing an earlier one. -/
def Obligations.MarkIsLatched : Prop :=
  ∀ (dur : BitVec 24) (s : State), s.st = .await → dur.toNat ≤ 0x7FFF →
    exec (.mark dur) s =
      .next { s with lm := BitVec.ofNat 15 dur.toNat, lmValid := true, resp := some 0x00000000 }

/-- R125: a space in AWAIT with no latched mark is ignored. -/
def Obligations.UnpairedSpaceIgnored : Prop :=
  ∀ (dur : BitVec 24) (s : State), s.st = .await → s.lmValid = false → dur.toNat ≤ 0x7FFF →
    exec (.space dur) s = .next { s with resp := some 0x00000000 }

/-- R129, R127: a leader pair no format matches ends the session with UnrecognizedLeader; LS and LM_VALID are written, and
nothing else; ERROR then stands through any commands but INIT. -/
def Obligations.UnrecognizedLeaderEndsSession : Prop :=
  ∀ (dur : BitVec 24) (s : State), s.st = .await → s.lmValid = true → dur.toNat ≤ 0x7FFF →
    matchLeader s.table s.lm.toNat dur.toNat = none →
    ∃ t, exec (.space dur) s = .next t ∧
      t = { s with
        ls := BitVec.ofNat 15 dur.toNat, lmValid := false, st := .error, errKind := 2, resp := some 0x22000000 } ∧
      ∀ (is : List Instr) (u : State), (∀ i ∈ is, ∀ c, i ≠ .init c) → runAll is t = .next u → u.st = .error

/-- R130, R127: a leader pair of another format than the session's ends the session with FormatMismatch, whether or not the
pair would also match the session's format or a frame would fit. -/
def Obligations.FormatMismatchEndsSession : Prop :=
  ∀ (dur : BitVec 24) (s : State) (f : Format) (k : FrameKind) (fmt : Byte),
    s.st = .await → s.lmValid = true → dur.toNat ≤ 0x7FFF →
    matchLeader s.table s.lm.toNat dur.toNat = some (f, k) → s.read8 0 = .ok fmt → fmt ≠ 0 → fmt ≠ f.code →
    exec (.space dur) s =
      .next { s with
        ls := BitVec.ofNat 15 dur.toNat, lmValid := false, st := .error, errKind := 3, resp := some 0x23000000 }

/-- R128, R161: a leader pair that matches, agrees with the session's format and fits starts a frame with zero bits: the
registers, FORMAT, FRAME_COUNT, OFFSET, KB and ELAPSED it leaves, and no other byte changed. -/
def Obligations.LeaderStartsFrame : Prop :=
  ∀ (dur : BitVec 24) (s : State) (f : Format) (k : FrameKind) (off : Nat),
    Inv s → s.st = .await → s.lmValid = true → dur.toNat ≤ 0x7FFF →
    matchLeader s.table s.lm.toNat dur.toNat = some (f, k) → s.formatByte = 0 ∨ s.formatByte = f.code →
    s.frames < 10 → (s.pairSpace (shortDuration dur)).nextRecord s.frames = .ok off → off + 4 ≤ s.cap.toNat →
    ∃ t, exec (.space dur) s = .next t ∧
      t = { s with
        buf := t.buf, ls := BitVec.ofNat 15 dur.toNat, lmValid := false, st := .assemble, resp := some 0x00000000,
        eacc := BitVec.ofNat 20 (min (s.lm.toNat + dur.toNat) 0xFFFFF) } ∧
      t.read8 0 = .ok f.code ∧ t.read8 1 = .ok (BitVec.ofNat 8 (s.frames + 1)) ∧
      t.offset s.frames = .ok off ∧ t.read16 off = .ok (makeKb k.code 0) ∧
      t.read16 (off + 2) = .ok (BitVec.ofNat 16 (t.eacc.toNat / 16)) ∧
      ∀ a, a ≠ 0 → a ≠ 1 → a ≠ 2 + 2 * s.frames → a ≠ 3 + 2 * s.frames → (a < off ∨ off + 4 ≤ a) →
        t.buf.read a = s.buf.read a

/-- R59, R161: where a new record starts: at 22 for the first frame, else at the next even address after the previous
record, whose payload counts only when it is Data. -/
def Obligations.NextRecordPlace : Prop :=
  ∀ s : State, Inv s → s.st ≠ .uninit →
    (s.frames = 0 → s.nextRecord s.frames = .ok 22) ∧
    (1 ≤ s.frames → ∃ off, s.nextRecord s.frames = .ok off ∧ off % 2 = 0 ∧
      ((s.kindAt s.current = 0 ∧
          (off = s.recordAt s.current + 4 + ceil8 (s.bitsAt s.current) ∨
            off = s.recordAt s.current + 4 + ceil8 (s.bitsAt s.current) + 1)) ∨
        (s.kindAt s.current ≠ 0 ∧ off = s.recordAt s.current + 4)))

/-- R161, R162: a matching leader for which the index is full, or whose record header would pass CAP, ends the session with
BufferOverflow, appending nothing; LS and LM_VALID are written (R127). -/
def Obligations.NoRoomForFrame : Prop :=
  ∀ (dur : BitVec 24) (s : State) (f : Format) (k : FrameKind) (off : Nat),
    Inv s → s.st = .await → s.lmValid = true → dur.toNat ≤ 0x7FFF →
    matchLeader s.table s.lm.toNat dur.toNat = some (f, k) → s.formatByte = 0 ∨ s.formatByte = f.code →
    s.frames = 10 ∨ ((s.pairSpace (shortDuration dur)).nextRecord s.frames = .ok off ∧ s.cap.toNat < off + 4) →
    exec (.space dur) s =
      .next { s with
        ls := BitVec.ofNat 15 dur.toNat, lmValid := false, st := .error, errKind := 6, resp := some 0x26000000 }

/-! SAMPLE in ASSEMBLE (42_bits.md, 43_frame_store.md, 44_finalizer.md). -/

/-- R141, R167: a sync-edge sample below symbol0's lower bound ends the session with TimingTooShort; any other, with no upper
bound, adds its duration to the frame's elapsed time, saturating, and changes ELAPSED and nothing else of BUF. -/
def Obligations.SyncPulse : Prop :=
  ∀ (e : Edge) (dur : BitVec 24) (s : State) (f : Format) (p : Nat),
    Inv s → s.st = .assemble → s.formatByte = f.code → e ≠ (s.table.descriptor f).infoEdge → dur.toNat ≤ 0x7FFF →
    s.currentFrame = .ok p →
    (dur.toNat < (s.table.descriptor f).symbol0.lo →
      exec (sampleOf e dur) s = .next { s with st := .error, errKind := 4, resp := some 0x24000000 }) ∧
    ((s.table.descriptor f).symbol0.lo ≤ dur.toNat →
      ∃ t, exec (sampleOf e dur) s = .next t ∧
        t = { s with
          buf := t.buf, resp := some 0x00000000,
          eacc := BitVec.ofNat 20 (min (s.eacc.toNat + dur.toNat) 0xFFFFF) } ∧
        t.read16 (p + 2) = .ok (BitVec.ofNat 16 (t.eacc.toNat / 16)) ∧
        ∀ a, a ≠ p + 2 → a ≠ p + 3 → t.buf.read a = s.buf.read a)

/-- R143, R144, R163: an informative sample in symbol0's range, or in symbol1's and not in symbol0's, appends that bit to a
Data frame: BITCOUNT goes up by one, the bit is set most significant first in a byte that starts at 0, the duration is
added to the elapsed time; with a full bit count, or a new byte past CAP, it ends the session with BufferOverflow and
writes nothing. -/
def Obligations.BitAppended : Prop :=
  ∀ (dur : BitVec 24) (b : Bool) (s : State) (f : Format) (p : Nat) (kb : Half),
    Inv s → s.st = .assemble → s.formatByte = f.code → dur.toNat ≤ 0x7FFF →
    (b = false ∧ inR dur.toNat (s.table.descriptor f).symbol0 = true) ∨
      (b = true ∧ inR dur.toNat (s.table.descriptor f).symbol1 = true ∧
        inR dur.toNat (s.table.descriptor f).symbol0 = false) →
    s.currentFrame = .ok p → s.read16 p = .ok kb → kindOf kb = 0 →
    (bitCountOf kb = 0x3FFF ∨ (bitCountOf kb % 8 = 0 ∧ s.cap.toNat ≤ p + 4 + bitCountOf kb / 8) →
      exec (sampleOf (s.table.descriptor f).infoEdge dur) s =
        .next { s with st := .error, errKind := 6, resp := some 0x26000000 }) ∧
    (bitCountOf kb ≠ 0x3FFF → (bitCountOf kb % 8 = 0 → p + 4 + bitCountOf kb / 8 < s.cap.toNat) →
      ∃ t old, exec (sampleOf (s.table.descriptor f).infoEdge dur) s = .next t ∧
        t = { s with
          buf := t.buf, resp := some 0x00000000,
          eacc := BitVec.ofNat 20 (min (s.eacc.toNat + dur.toNat) 0xFFFFF) } ∧
        (bitCountOf kb % 8 = 0 → old = 0#8) ∧
        (bitCountOf kb % 8 ≠ 0 → s.read8 (p + 4 + bitCountOf kb / 8) = .ok old) ∧
        t.read8 (p + 4 + bitCountOf kb / 8) =
          .ok (old ||| (BitVec.ofNat 8 b.toNat <<< (7 - bitCountOf kb % 8))) ∧
        t.read16 p = .ok (makeKb 0 (bitCountOf kb + 1)) ∧
        t.read16 (p + 2) = .ok (BitVec.ofNat 16 (t.eacc.toNat / 16)) ∧
        ∀ a, (a < p ∨ p + 4 ≤ a) → a ≠ p + 4 + bitCountOf kb / 8 → t.buf.read a = s.buf.read a)

/-- R145, R146, R180: an informative sample beyond both symbol ranges, at a byte boundary, in the format's leaderMark range,
seals the frame: AWAIT, the sample latched as the next mark, answer FRAME_BOUNDARY; a frame after the first that is Data
and has frame 0's bit count and payload becomes SameAsFirst, and no other byte changes. -/
def Obligations.FrameSealed : Prop :=
  ∀ (dur : BitVec 24) (s : State) (f : Format) (p q : Nat) (kb kq : Half),
    Inv s → s.st = .assemble → s.formatByte = f.code → dur.toNat ≤ 0x7FFF →
    inR dur.toNat (s.table.descriptor f).symbol0 = false → inR dur.toNat (s.table.descriptor f).symbol1 = false →
    s.currentFrame = .ok p → s.read16 p = .ok kb → s.offset 0 = .ok q → s.read16 q = .ok kq →
    (s.table.descriptor f).symbol0.hi < dur.toNat → (s.table.descriptor f).symbol1.hi < dur.toNat →
    bitCountOf kb % 8 = 0 → inR dur.toNat (s.table.descriptor f).leaderMark = true →
    ∃ t, exec (sampleOf (s.table.descriptor f).infoEdge dur) s = .next t ∧
      t = { s with
        buf := t.buf, st := .await, lm := BitVec.ofNat 15 dur.toNat, lmValid := true,
        resp := some 0x10000000 } ∧
      (s.frames ≠ 1 ∧ kindOf kb = 0 ∧ bitCountOf kb = bitCountOf kq ∧
          (∀ k < ceil8 (bitCountOf kb), s.read8 (p + 4 + k) = s.read8 (q + 4 + k)) →
        t.read16 p = .ok (makeKb 1 (bitCountOf kb)) ∧
        ∀ a, a ≠ p → a ≠ p + 1 → t.buf.read a = s.buf.read a) ∧
      (¬ (s.frames ≠ 1 ∧ kindOf kb = 0 ∧ bitCountOf kb = bitCountOf kq ∧
          (∀ k < ceil8 (bitCountOf kb), s.read8 (p + 4 + k) = s.read8 (q + 4 + k))) → t.buf = s.buf)

/-- R147, R150: an informative sample that is neither a bit nor a boundary, or that is in a symbol range while the frame is a
Repeater, ends the session with UnexpectedTiming; nothing but STATE, ERR_KIND and the response changes. -/
def Obligations.UnexpectedTimingEndsSession : Prop :=
  ∀ (dur : BitVec 24) (s : State) (f : Format) (p : Nat) (kb : Half),
    Inv s → s.st = .assemble → s.formatByte = f.code → dur.toNat ≤ 0x7FFF →
    s.currentFrame = .ok p → s.read16 p = .ok kb →
    (inR dur.toNat (s.table.descriptor f).symbol0 = false ∧ inR dur.toNat (s.table.descriptor f).symbol1 = false ∧
        ¬ ((s.table.descriptor f).symbol0.hi < dur.toNat ∧ (s.table.descriptor f).symbol1.hi < dur.toNat ∧
          bitCountOf kb % 8 = 0 ∧ inR dur.toNat (s.table.descriptor f).leaderMark = true)) ∨
      ((inR dur.toNat (s.table.descriptor f).symbol0 = true ∨ inR dur.toNat (s.table.descriptor f).symbol1 = true) ∧
        kindOf kb = 2) →
    exec (sampleOf (s.table.descriptor f).infoEdge dur) s =
      .next { s with st := .error, errKind := 5, resp := some 0x25000000 }

/-! Readout (45_host_commands.md R192 to R198). -/

/-- R192: the read commands change no state; RDCOUNT, RDFRAME and RDBYTE answer NotInitialized in UNINIT; in a session every
one of them answers. -/
def Obligations.ReadsChangeNothing : Prop :=
  ∀ (i : Instr) (s : State),
    i = .rdcount ∨ (∃ sel index, i = .rdframe sel index) ∨ (∃ a, i = .rdbyte a) ∨ (∃ sel, i = .rdstatus sel) →
    (∀ t, exec i s = .next t → t = { s with resp := t.resp }) ∧
    (s.st = .uninit → (∀ sel, i ≠ .rdstatus sel) → exec i s = .next { s with resp := some 0x38000000 }) ∧
    (Inv s → ∃ t, exec i s = .next t)

/-- R193: RDCOUNT answers FRAME_COUNT in a session. -/
def Obligations.CountRead : Prop :=
  ∀ (s : State) (n : Byte),
    (s.st = .uninit → exec .rdcount s = .next { s with resp := some 0x38000000 }) ∧
    (s.st ≠ .uninit → s.read8 1 = .ok n → exec .rdcount s = .next { s with resp := some (0#24 ++ n) })

/-- R194, R195: RDFRAME answers the selected field of a frame that exists (a SameAsFirst frame's payload address is frame
0's), and OutOfRange for any other index. -/
def Obligations.FrameFieldRead : Prop :=
  ∀ (index : BitVec 8) (s : State),
    (s.st = .uninit → ∀ sel, exec (.rdframe sel index) s = .next { s with resp := some 0x38000000 }) ∧
    (∀ n, s.st ≠ .uninit → s.frameCount = .ok n → n ≤ index.toNat →
      ∀ sel, exec (.rdframe sel index) s = .next { s with resp := some 0x3A000000 }) ∧
    ∀ (n p q : Nat) (kb el : Half), s.st ≠ .uninit → s.frameCount = .ok n → index.toNat < n →
      s.offset index.toNat = .ok p → s.read16 p = .ok kb → s.read16 (p + 2) = .ok el → s.offset 0 = .ok q →
      exec (.rdframe .kb index) s = .next { s with resp := some (0#16 ++ kb) } ∧
      exec (.rdframe .elapsed index) s = .next { s with resp := some (0#16 ++ el) } ∧
      exec (.rdframe .payload index) s =
        .next { s with resp := some (0#16 ++ BitVec.ofNat 16 ((if kindOf kb = 1 then q else p) + 4)) } ∧
      exec (.rdframe .offset index) s = .next { s with resp := some (0#16 ++ BitVec.ofNat 16 p) }

/-- R196: RDBYTE answers a byte below CAP, and OutOfRange at or above it. -/
def Obligations.ByteRead : Prop :=
  ∀ (addr : BitVec 16) (s : State),
    (s.st = .uninit → exec (.rdbyte addr) s = .next { s with resp := some 0x38000000 }) ∧
    (s.st ≠ .uninit → s.cap.toNat ≤ addr.toNat → exec (.rdbyte addr) s = .next { s with resp := some 0x3A000000 }) ∧
    ∀ b, s.st ≠ .uninit → addr.toNat < s.cap.toNat → s.read8 addr.toNat = .ok b →
      exec (.rdbyte addr) s = .next { s with resp := some (0#24 ++ b) }

/-- R198, R32: RDSTATUS answers the selected register in every STATE; the status word's FMT and NFR fields are 0 in UNINIT. -/
def Obligations.StatusRead : Prop :=
  ∀ s : State,
    exec (.rdstatus .lm) s = .next { s with resp := some (0#17 ++ s.lm) } ∧
    exec (.rdstatus .ls) s = .next { s with resp := some (0#17 ++ s.ls) } ∧
    exec (.rdstatus .cap) s = .next { s with resp := some (0#16 ++ s.cap) } ∧
    (s.st = .uninit → exec (.rdstatus .status) s =
      .next { s with resp := some (0#20 ++ s.errKind ++ 0#3 ++ BitVec.ofBool s.lmValid ++ 0#4) }) ∧
    ∀ fmt nfr : Byte, s.st ≠ .uninit → s.read8 0 = .ok fmt → s.read8 1 = .ok nfr →
      exec (.rdstatus .status) s =
        .next { s with resp := some (0#16 ++ nfr.extractLsb' 0 4 ++ s.errKind ++ 0#3 ++ BitVec.ofBool s.lmValid ++
          fmt.extractLsb' 0 2 ++
          (match s.st with | .uninit => 0#2 | .await => 1#2 | .assemble => 2#2 | .error => 3#2)) }

/-- R197: reading a frame by the host's procedure gives the frame that BUF holds; a SameAsFirst frame's payload is frame
0's. -/
def Obligations.HostReadsFrame : Prop :=
  ∀ (s : State) (i : BitVec 8), Inv s → s.st ≠ .uninit → i.toNat < s.frames →
    readFrame s i = some
      { kind := s.kindAt i.toNat, bitCount := s.bitsAt i.toNat, elapsed := s.elapsedAt i.toNat,
        payload := s.payloadOf i.toNat }

/-! Errors (60_exceptions.md). -/

/-- R212, R127, R217: a sample that ends the session in ERROR leaves ERR_KIND and the response at its kind and every other
piece of state as it was, but for LS and LM_VALID where a leader pair was rejected. -/
def Obligations.SessionErrorsArePrecise : Prop :=
  ∀ (e : Edge) (dur : BitVec 24) (s t : State),
    s.st = .await ∨ s.st = .assemble → exec (sampleOf e dur) s = .next t → t.st = .error →
    1 ≤ t.errKind.toNat ∧ t.errKind.toNat ≤ 6 ∧ t.resp = some (0x2#4 ++ t.errKind ++ 0#24) ∧
    (t = { s with st := .error, errKind := t.errKind, resp := t.resp } ∨
      (s.st = .await ∧ e = .space ∧ s.lmValid = true ∧ dur.toNat ≤ 0x7FFF ∧
        (t.errKind = 2 ∨ t.errKind = 3 ∨ t.errKind = 6) ∧
        t = { s with
          st := .error, errKind := t.errKind, resp := t.resp, ls := BitVec.ofNat 15 dur.toNat, lmValid := false }))

/-- R214: a command that answers COMMAND_ERROR answers 0x3k000000 with k from 8 to 10 and changes nothing else, whatever the
word and the STATE. -/
def Obligations.CommandErrorsChangeNothing : Prop :=
  ∀ (w r : Word) (s t : State), runWord w s = .next t → t.resp = some r → r.extractLsb' 28 4 = 3#4 →
    t = { s with resp := some r } ∧ (r = 0x38000000 ∨ r = 0x39000000 ∨ r = 0x3A000000)

/-- R25: ERR_KIND is written on entry to ERROR, by INIT and by hardware reset, and nowhere else; while STATE is ERROR no
other command changes it. -/
def Obligations.ErrKindWrites : Prop :=
  (∀ (i : Instr) (s t : State), exec i s = .next t →
    (∃ c : BitVec 16, i = .init c ∧ t.errKind = if c.toNat < 22 then 7 else 0) ∨
    ((∀ c, i ≠ .init c) ∧ (s.st = .await ∨ s.st = .assemble) ∧ t.st = .error ∧
      t.resp = some (0x2#4 ++ t.errKind ++ 0#24)) ∨
    ((∀ c, i ≠ .init c) ∧ t.errKind = s.errKind)) ∧
  (∀ (i : Instr) (s t : State), exec i s = .next t → s.st = .error → (∀ c, i ≠ .init c) → t.errKind = s.errKind) ∧
  ∀ s : State, s.hardReset.errKind = 0

/-- R24, R26: who writes the leader latch: INIT, a mark in AWAIT, the sealing sample, a paired space, and no other command;
LS is written by the paired space and by INIT, LM by the other three and by INIT. -/
def Obligations.LatchWrites : Prop :=
  ∀ (i : Instr) (s t : State), exec i s = .next t →
    (t.lm = s.lm ∧ t.ls = s.ls ∧ t.lmValid = s.lmValid) ∨
    (∃ c : BitVec 16, i = .init c ∧ t.lmValid = false ∧
      ((22 ≤ c.toNat ∧ t.lm = 0 ∧ t.ls = 0) ∨ (c.toNat < 22 ∧ t.lm = s.lm ∧ t.ls = s.ls))) ∨
    (∃ dur : BitVec 24, i = .mark dur ∧ s.st = .await ∧ dur.toNat ≤ 0x7FFF ∧ t.lm = BitVec.ofNat 15 dur.toNat ∧
      t.lmValid = true ∧ t.ls = s.ls) ∨
    (∃ (e : Edge) (dur : BitVec 24), i = sampleOf e dur ∧ s.st = .assemble ∧ dur.toNat ≤ 0x7FFF ∧
      t.resp = some 0x10000000 ∧ t.lm = BitVec.ofNat 15 dur.toNat ∧ t.lmValid = true ∧ t.ls = s.ls) ∨
    (∃ dur : BitVec 24, i = .space dur ∧ s.st = .await ∧ s.lmValid = true ∧ dur.toNat ≤ 0x7FFF ∧
      t.ls = BitVec.ofNat 15 dur.toNat ∧ t.lmValid = false ∧ t.lm = s.lm)

/-- R22, R213: the transitions of STATE: INIT from any STATE to AWAIT or UNINIT, a space from AWAIT to ASSEMBLE, a sample from
ASSEMBLE to AWAIT, a sample of a running session to ERROR, and no other; so only INIT leaves ERROR or UNINIT. -/
def Obligations.StateTransitions : Prop :=
  ∀ (i : Instr) (s t : State), exec i s = .next t →
    t.st = s.st ∨
    (∃ c : BitVec 16, i = .init c ∧ t.st = if c.toNat < 22 then .uninit else .await) ∨
    (∃ dur, i = .space dur ∧ s.st = .await ∧ t.st = .assemble) ∨
    (∃ e dur, i = sampleOf e dur ∧ s.st = .assemble ∧ t.st = .await ∧ t.resp = some 0x10000000) ∨
    (∃ e dur, i = sampleOf e dur ∧ (s.st = .await ∨ s.st = .assemble) ∧ t.st = .error)

/-- R87: the responses a sample can give, and those INIT can give. -/
def Obligations.SampleResponses : Prop :=
  (∀ (e : Edge) (dur : BitVec 24) (s t : State), Inv s → exec (sampleOf e dur) s = .next t →
    t.resp = some 0x00000000 ∨ t.resp = some 0x10000000 ∨ t.resp = some 0x21000000 ∨ t.resp = some 0x22000000 ∨
    t.resp = some 0x23000000 ∨ t.resp = some 0x24000000 ∨ t.resp = some 0x25000000 ∨ t.resp = some 0x26000000 ∨
    t.resp = some 0x38000000) ∧
  ∀ (c : BitVec 16) (s t : State), exec (.init c) s = .next t →
    t.resp = some 0x00000000 ∨ t.resp = some 0x27000000

/-- R86, R5: every command word, in every STATE, that gives a next state gives one response, of the form R86 lays out. -/
def Obligations.ResponseForm : Prop :=
  ∀ (w : Word) (s t : State), runWord w s = .next t →
    ∃ r, t.resp = some r ∧ r.extractLsb' 16 8 = 0#8 ∧ (r.extractLsb' 28 4).toNat ≤ 3 ∧
      ((r.extractLsb' 28 4).toNat ≤ 1 → r.extractLsb' 24 4 = 0#4) ∧
      (r.extractLsb' 28 4 ≠ 0#4 → r.extractLsb' 0 16 = 0#16)

/-! Invariants (10_state.md R34). -/

/-- R33, R34: the state after reset meets the invariant. -/
def Obligations.ResetMeetsInvariant : Prop := Inv State.reset

/-- R34: every step keeps the invariant, from every state that meets it. -/
def Obligations.StepKeepsInvariant : Prop :=
  ∀ s t : State, Inv s → step s = .next t → Inv t

/-- R34, R51: from every state that meets the invariant, the step gives a next state: no read of an unspecified byte, no
access outside BUF, no missing frame or descriptor, no refusal. -/
def Obligations.StepNeverStops : Prop :=
  ∀ s : State, Inv s → ∃ t, step s = .next t

/-- R34: in a session, the invariant gives the eleven items of the rule (R33 makes BUF meaningless in UNINIT, log entry
11). -/
def Obligations.InvariantGivesListedItems : Prop :=
  ∀ s : State, Inv s → s.st ≠ .uninit →
    22 ≤ s.cap.toNat ∧
    (s.st = .assemble → 1 ≤ s.frames ∧ (s.formatByte = 1 ∨ s.formatByte = 2 ∨ s.formatByte = 3)) ∧
    (1 ≤ s.frames → s.formatByte = 1 ∨ s.formatByte = 2 ∨ s.formatByte = 3) ∧
    (s.formatByte = 0 → s.frames = 0) ∧
    (∀ i, 0 < i → i < s.frames → s.recordAt (i - 1) < s.recordAt i) ∧
    (∀ i < s.frames, s.recordAt i % 2 = 0) ∧ (1 ≤ s.frames → s.recordAt 0 = 22) ∧
    (∀ i < s.frames, s.recordAt i + 4 ≤ s.cap.toNat) ∧
    (∀ i < s.frames, s.recordAt i + 4 + ceil8 (s.bitsAt i) ≤ s.cap.toNat) ∧
    (∀ i < s.frames, s.kindAt i ≠ 1 ∨ i + 1 = s.frames → ∀ j, s.bitsAt i ≤ j → j < 8 * ceil8 (s.bitsAt i) →
      (s.payloadAt i (j / 8)).getLsbD (7 - j % 8) = false) ∧
    (1 ≤ s.frames → s.kindAt 0 ≠ 1) ∧
    (s.lmValid = true → s.st = .await ∨ s.st = .error) ∧
    (∀ i < s.frames, (s.kindAt i = 2 → s.bitsAt i = 0) ∧ s.kindAt i ≠ 3)

/-- The model's canonical form of BUF (log entry 3): every step keeps it, in every state, whatever else holds. -/
def Obligations.StepKeepsCanonicalBuffer : Prop :=
  ∀ s t : State, Memory.wf s.buf → step s = .next t → Memory.wf t.buf

/-- R30: no command and no reset writes the Format Table. That no command touches the host's pending events either is the
model's form of the host (log entry 1). -/
def Obligations.FormatTableConstant : Prop :=
  (∀ (i : Instr) (s t : State), exec i s = .next t → t.table = s.table ∧ t.port = s.port) ∧
  ∀ s t : State, step s = .next t → t.table = s.table

/-- R51, R61: no command writes a byte at or above CAP (for INIT, at or above the capacity it leaves). -/
def Obligations.BytesAboveCapUntouched : Prop :=
  ∀ (i : Instr) (s t : State), Inv s → exec i s = .next t →
    ∀ a, t.cap.toNat ≤ a → t.buf.read a = s.buf.read a

/-- R51: no command reads a byte at or above CAP: two states that differ only there give the same response and the same
registers, and differ only there again. -/
def Obligations.BytesAboveCapUnseen : Prop :=
  ∀ (i : Instr) (s t : State) (b : Memory),
    Inv s → Inv { s with buf := b } → (∀ a < s.cap.toNat, b.read a = s.buf.read a) → exec i s = .next t →
    ∃ t', exec i { s with buf := b } = .next t' ∧ t' = { t with buf := t'.buf } ∧
      ∀ a < t.cap.toNat, t'.buf.read a = t.buf.read a

/-- R31: EACC itself is never answered: two states that differ only in EACC give the same response to every command. -/
def Obligations.AccumulatorUnseen : Prop :=
  ∀ (i : Instr) (s t : State) (e : BitVec 20), exec i s = .next t →
    ∃ t', exec i { s with eacc := e } = .next t' ∧ t'.resp = t.resp

/-- R168, R164, R236: once a later frame follows a frame, or it has been sealed, no command but INIT changes what the host
reads of it: its place, its kind and bit count, its elapsed time, its payload. -/
def Obligations.SealedFramesNeverChange : Prop :=
  ∀ (i : Instr) (s t : State), Inv s → s.st ≠ .uninit → (∀ c, i ≠ .init c) → exec i s = .next t →
    ∀ j < s.frames, j < s.current ∨ s.st ≠ .assemble →
      t.recordAt j = s.recordAt j ∧ t.kbAt j = s.kbAt j ∧ t.elapsedAt j = s.elapsedAt j ∧
      t.payloadOf j = s.payloadOf j

/-- R28, R29: in a session only an accepted leader changes FRAME_COUNT, by one, and FORMAT is written at most once, from 0 to
1, 2 or 3. -/
def Obligations.CountAndFormatDiscipline : Prop :=
  ∀ (i : Instr) (s t : State), Inv s → s.st ≠ .uninit → (∀ c, i ≠ .init c) → exec i s = .next t →
    (t.frames = s.frames ∨ (t.frames = s.frames + 1 ∧ s.st = .await ∧ t.st = .assemble)) ∧
    (t.formatByte = s.formatByte ∨
      (s.formatByte = 0 ∧ (t.formatByte = 1 ∨ t.formatByte = 2 ∨ t.formatByte = 3)))

/-- R182, R183: a frame becomes SameAsFirst only when it is sealed, and is a Repeater only because its leader pair was one. -/
def Obligations.KindsComeFromTheirEvidence : Prop :=
  ∀ (i : Instr) (s t : State), Inv s → s.st ≠ .uninit → (∀ c, i ≠ .init c) → exec i s = .next t →
    ∀ j < t.frames,
      (t.kindAt j = 1 → (j < s.frames ∧ s.kindAt j = 1) ∨ (j = s.current ∧ t.resp = some 0x10000000)) ∧
      (t.kindAt j = 2 → (j < s.frames ∧ s.kindAt j = 2) ∨
        (j = s.frames ∧ ∃ dur f, i = .space dur ∧ matchLeader s.table s.lm.toNat dur.toNat = some (f, .repeater)))

/-! The classifier and the packing. -/

/-- R103, R104: inR is the interval from ceil(8N/10) to floor(12N/10), non-strict at both ends, and an absent range matches
nothing; the nominal is accepted, exactly 20 % is accepted, one tick beyond either bound is not. -/
def Obligations.MarginClassifier : Prop :=
  (∀ v, inRange v none = false) ∧
  ∀ (r : Range) (v : Nat), 1 ≤ r.nominal →
    r.lo = (8 * r.nominal + 9) / 10 ∧ r.hi = 12 * r.nominal / 10 ∧
    (inR v r = true ↔ 8 * r.nominal ≤ 10 * v ∧ 10 * v ≤ 12 * r.nominal) ∧
    (inR v r = true ↔ r.lo ≤ v ∧ v ≤ r.hi) ∧ inRange v (some r) = inR v r ∧ inR 0 r = false ∧
    inR r.nominal r = true ∧
    (∀ n, r.nominal = 5 * n → inR (4 * n) r = true ∧ inR (6 * n) r = true) ∧
    inR (r.lo - 1) r = false ∧ inR (r.hi + 1) r = false

/-- R126: matchLeader gives the first format in table order whose descriptor accepts the pair; a descriptor accepts it as
Data when the mark matches and there is no leaderSpace or the space is in it, and as Repeater when the space is in the
repeater range only. -/
def Obligations.FirstDescriptorWins : Prop :=
  (∀ (D : Descriptor) (m s : Nat) (k : FrameKind), leaderKind D m s = some k ↔
    inR m D.leaderMark = true ∧
      ((k = .data ∧ (D.leaderSpace = none ∨ inRange s D.leaderSpace = true)) ∨
        (k = .repeater ∧ D.leaderSpace ≠ none ∧ inRange s D.leaderSpace = false ∧ inRange s D.repeater = true))) ∧
  ∀ (t : FormatTable) (m s : Nat) (f : Format) (k : FrameKind), matchLeader t m s = some (f, k) ↔
    leaderKind (t.descriptor f) m s = some k ∧
      match f with
      | .nec => True
      | .kadenkyo => leaderKind t.nec m s = none
      | .sony => leaderKind t.nec m s = none ∧ leaderKind t.kadenkyo m s = none

/-- R106, R107: in the default table the symbol ranges of each format are disjoint, so are leaderSpace and repeater of NEC and
of Kadenkyo, the Kadenkyo and Sony leaderMarks meet exactly on 2720 to 2880, and every bound is at most 10790. -/
def Obligations.DefaultTableSeparation : Prop :=
  (∀ (f : Format) (v : Nat),
    inR v (FormatTable.default.descriptor f).symbol0 = true → inR v (FormatTable.default.descriptor f).symbol1 = false) ∧
  (∀ (f : Format) (v : Nat), f = .nec ∨ f = .kadenkyo →
    inRange v (FormatTable.default.descriptor f).leaderSpace = true →
    inRange v (FormatTable.default.descriptor f).repeater = false) ∧
  (∀ v, (inR v FormatTable.default.kadenkyo.leaderMark = true ∧ inR v FormatTable.default.sony.leaderMark = true) ↔
    2720 ≤ v ∧ v ≤ 2880) ∧
  (∀ v, inRange v FormatTable.default.kadenkyo.repeater = inR v FormatTable.default.kadenkyo.leaderMark) ∧
  ∀ (f : Format) (r : Range),
    r = (FormatTable.default.descriptor f).leaderMark ∨ (FormatTable.default.descriptor f).leaderSpace = some r ∨
      (FormatTable.default.descriptor f).repeater = some r ∨ r = (FormatTable.default.descriptor f).symbol0 ∨
      r = (FormatTable.default.descriptor f).symbol1 → r.hi ≤ 10790

/-- R165: pack gives ceil8(n) bytes, and unpack gives the bits back. -/
def Obligations.UnpackInvertsPack : Prop :=
  ∀ bits : List Bool, (pack bits).length = (bits.length + 7) / 8 ∧ unpack (pack bits) bits.length = bits

/-- R165, R166: where the current frame's payload is pack of its bits, a bit written leaves it pack of those bits and the new
one. -/
def Obligations.WriteBitKeepsPacking : Prop :=
  ∀ (s t : State) (b : Bool) (bits : List Bool), StoreInv s → s.st = .assemble →
    s.kindAt s.current = 0 → bits.length = s.bitsAt s.current →
    (List.range (ceil8 (s.bitsAt s.current))).map (s.payloadAt s.current) = pack bits → s.writeBit b = .ok t →
    t.current = s.current ∧ t.bitsAt t.current = bits.length + 1 ∧
    (List.range (ceil8 (t.bitsAt t.current))).map (t.payloadAt t.current) = pack (bits ++ [b])

/-- The source's S2 with R143, R144, R165: n bits sent to a fresh Data frame at the nominal symbol durations of its format,
each with its sync pulse, are all taken, and the frame then holds exactly those bits, packed. -/
def Obligations.TransmittedBitsAreStored : Prop :=
  ∀ (s : State) (f : Format) (bits : List Bool), Inv s → s.st = .assemble → s.formatByte = f.code →
    (s.table.descriptor f).symbol0.nominal ≤ 0x7FFF → (s.table.descriptor f).symbol1.nominal ≤ 0x7FFF →
    inR (s.table.descriptor f).symbol1.nominal (s.table.descriptor f).symbol0 = false →
    s.kindAt s.current = 0 → s.bitsAt s.current = 0 → bits.length ≤ 0x3FFF →
    s.recordAt s.current + 4 + ceil8 bits.length ≤ s.cap.toNat →
    ∃ t, runAll (bits.flatMap (bitInstrs (s.table.descriptor f))) s = .next t ∧ t.st = .assemble ∧
      t.current = s.current ∧ t.kindAt t.current = 0 ∧ t.bitsAt t.current = bits.length ∧
      t.payloadOf t.current = pack bits
end

