-- ==== Sys2Proof/Laws/Fields.lean ====
section
/-! SUPPORT. The arithmetic of fields: byte order, the KB halfword, the response word, ceil8, align2, sat20, durations. -/

namespace Sys2Proof.Machine

@[simp] theorem joinBytes_low_high (v : Half) : joinBytes (lowByte v) (highByte v) = v := by
  simp only [joinBytes, lowByte, highByte]
  ext i hi
  simp only [BitVec.getElem_append, BitVec.getElem_extractLsb']
  split
  · simp [BitVec.getLsbD_eq_getElem (by omega : i < 16)]
  · have : 8 + (i - 8) = i := by omega
    simp [this, BitVec.getLsbD_eq_getElem (by omega : i < 16)]

@[simp] theorem lowByte_joinBytes (l h : Byte) : lowByte (joinBytes l h) = l := by
  simp only [joinBytes, lowByte]
  ext i hi
  simp
  grind

@[simp] theorem highByte_joinBytes (l h : Byte) : highByte (joinBytes l h) = h := by
  simp only [joinBytes, highByte]
  ext i hi
  simp
  grind

@[simp] theorem kindOf_makeKb (k : BitVec 2) (n : Nat) : kindOf (makeKb k n) = k := by
  simp only [kindOf, makeKb]
  ext i hi
  simp
  grind

theorem bitCountOf_makeKb_mod (k : BitVec 2) (n : Nat) : bitCountOf (makeKb k n) = n % 2 ^ 14 := by
  simp only [bitCountOf, makeKb]
  have : (k ++ BitVec.ofNat 14 n).extractLsb' 0 14 = BitVec.ofNat 14 n := by
    ext i hi
    simp
    grind
  rw [this, BitVec.toNat_ofNat]

theorem bitCountOf_makeKb (k : BitVec 2) {n : Nat} (h : n ≤ Config.maxBitCount) : bitCountOf (makeKb k n) = n := by
  rw [bitCountOf_makeKb_mod]
  exact Nat.mod_eq_of_lt (by simp only [Config.maxBitCount] at h; omega)

theorem bitCountOf_le (kb : Half) : bitCountOf kb ≤ Config.maxBitCount := by
  have := (kb.extractLsb' 0 14).isLt
  simp only [bitCountOf, Config.maxBitCount]
  omega

@[simp] theorem makeKb_kindOf_bitCountOf (kb : Half) : makeKb (kindOf kb) (bitCountOf kb) = kb := by
  simp only [makeKb, kindOf, bitCountOf, BitVec.ofNat_toNat, BitVec.setWidth_eq]
  ext i hi
  simp only [BitVec.getElem_append, BitVec.getElem_extractLsb']
  split
  · simp [BitVec.getLsbD_eq_getElem (by omega : i < 16)]
  · have : 14 + (i - 14) = i := by omega
    simp [this, BitVec.getLsbD_eq_getElem (by omega : i < 16)]

theorem align2_even (x : Nat) : align2 x % 2 = 0 := by unfold align2; omega

theorem le_align2 (x : Nat) : x ≤ align2 x := by unfold align2; omega

theorem align2_le (x : Nat) : align2 x ≤ x + 1 := by unfold align2; omega

theorem align2_of_even {x : Nat} (h : x % 2 = 0) : align2 x = x := by unfold align2; omega

@[simp] theorem ceil8_zero : ceil8 0 = 0 := rfl

theorem ceil8_succ (n : Nat) : ceil8 (n + 1) = if n % 8 = 0 then ceil8 n + 1 else ceil8 n := by
  unfold ceil8; split <;> omega

theorem div8_lt_ceil8 {n : Nat} (h : n % 8 ≠ 0) : n / 8 < ceil8 n := by unfold ceil8; omega

theorem ceil8_eq_div8 {n : Nat} (h : n % 8 = 0) : ceil8 n = n / 8 := by unfold ceil8; omega

theorem recordSize_ge (kb : Half) : Config.recHdr ≤ recordSize kb := by unfold recordSize; omega

theorem recordSize_le (kb : Half) : recordSize kb ≤ Config.recHdr + ceil8 (bitCountOf kb) := by
  unfold recordSize; split <;> omega

theorem recordSize_data {kb : Half} (h : kindOf kb = FrameKind.data.code) :
    recordSize kb = Config.recHdr + ceil8 (bitCountOf kb) := by
  simp [recordSize, h]

theorem toNat_sat20 (x : Nat) : (sat20 x).toNat = min x Config.eaccMax := by
  simp only [sat20, BitVec.toNat_ofNat, Config.eaccMax]
  exact Nat.mod_eq_of_lt (by omega)

theorem toNat_shortDuration {dur : BitVec 24} (h : dur.toNat ≤ Config.maxDuration) :
    (shortDuration dur).toNat = dur.toNat := by
  simp only [Config.maxDuration] at h
  simp only [shortDuration, BitVec.extractLsb'_toNat, Nat.shiftRight_zero]
  exact Nat.mod_eq_of_lt (by omega)

@[simp] theorem unrepresentable_iff (dur : BitVec 24) :
    unrepresentable dur = true ↔ Config.maxDuration < dur.toNat := by simp [unrepresentable]

theorem unrepresentable_eq_false {dur : BitVec 24} (h : dur.toNat ≤ Config.maxDuration) :
    unrepresentable dur = false := by simp [unrepresentable, Nat.not_lt.2 h]

theorem elapsedField_toNat (e : BitVec 20) : (elapsedField e).toNat = e.toNat / 16 := by
  have := e.isLt
  simp only [elapsedField, Config.elapsedShift, BitVec.extractLsb'_toNat, Nat.shiftRight_eq_div_pow]
  exact Nat.mod_eq_of_lt (by omega)

/-- OUTCOME of a response word (R86). -/
theorem respWord_outcome (o : RespOutcome) (k : BitVec 4) (d : Half) :
    (respWord o k d).extractLsb' 28 4 = o.code := by
  simp only [respWord]
  ext i hi
  simp
  grind

/-- KIND of a response word (R86). -/
theorem respWord_kind (o : RespOutcome) (k : BitVec 4) (d : Half) :
    (respWord o k d).extractLsb' 24 4 = k := by
  simp only [respWord]
  ext i hi
  simp
  grind

/-- The reserved bits of a response word are 0 (R86). -/
theorem respWord_reserved (o : RespOutcome) (k : BitVec 4) (d : Half) :
    (respWord o k d).extractLsb' 16 8 = 0 := by
  simp only [respWord]
  ext i hi
  simp
  grind

/-- DATA of a response word (R86). -/
theorem respWord_data (o : RespOutcome) (k : BitVec 4) (d : Half) :
    (respWord o k d).extractLsb' 0 16 = d := by
  simp only [respWord]
  ext i hi
  simp
  grind

end Sys2Proof.Machine
end

