-- ==== Sys2Proof/Laws/Memory.lean ====
section
/-! SUPPORT. The laws of the buffer: a read after a write, a read after the zeroing, and the canonical form kept by both. -/

namespace Sys2Proof.Machine

theorem Memory.read_write_same (m : Memory) (a : Nat) (b : Byte) : (m.write a b).read a = some b := by
  induction m with
  | nil => simp [Memory.write, Memory.read]
  | cons x m ih =>
    obtain ⟨a', b'⟩ := x
    simp only [Memory.write]
    split
    · simp [Memory.read]
    · split
      · simp [Memory.read]
      · next h => simp [Memory.read, h, ih]

theorem Memory.read_write_other (m : Memory) (a c : Nat) (b : Byte) (h : c ≠ a) :
    (m.write a b).read c = m.read c := by
  induction m with
  | nil => simp [Memory.write, Memory.read, Ne.symm h]
  | cons x m ih =>
    obtain ⟨a', b'⟩ := x
    simp only [Memory.write]
    split
    · simp [Memory.read, Ne.symm h]
    · split
      · next h' => subst h'; simp [Memory.read, Ne.symm h]
      · simp [Memory.read, ih]

theorem Memory.read_write (m : Memory) (a c : Nat) (b : Byte) :
    (m.write a b).read c = if c = a then some b else m.read c := by
  split
  · next h => rw [h, Memory.read_write_same]
  · next h => exact Memory.read_write_other m a c b h

theorem Memory.read_append (m n : Memory) (a : Nat) :
    Memory.read (m ++ n) a = ((m.read a).or (n.read a)) := by
  induction m with
  | nil => simp [Memory.read]
  | cons x m ih =>
    obtain ⟨a', b'⟩ := x
    simp only [List.cons_append, Memory.read]
    split <;> simp [ih]

theorem Memory.read_map_zero (l : List Nat) (a : Nat) :
    Memory.read (l.map fun a => (a, (0 : Byte))) a = if a ∈ l then some 0 else none := by
  induction l with
  | nil => simp [Memory.read]
  | cons x l ih =>
    simp only [List.map_cons, Memory.read, ih, List.mem_cons]
    by_cases h : x = a
    · simp [h]
    · simp [h, Ne.symm h]

theorem Memory.read_filter_ge (m : Memory) (c a : Nat) (h : c ≤ a) :
    Memory.read (m.filter fun x => decide (c ≤ x.1)) a = m.read a := by
  induction m with
  | nil => rfl
  | cons x m ih =>
    obtain ⟨a', b'⟩ := x
    by_cases hc : c ≤ a'
    · simp [hc, Memory.read, ih]
    · have : a' ≠ a := by omega
      simp [hc, Memory.read, ih, this]

/-- INIT's zeroing: the bytes below c are 0, the others are as they were (R190). -/
theorem Memory.read_zeroBelow (m : Memory) (c a : Nat) :
    (m.zeroBelow c).read a = if a < c then some 0 else m.read a := by
  unfold Memory.zeroBelow zeroCells
  rw [Memory.read_append, Memory.read_map_zero]
  by_cases h : a < c
  · simp [h]
  · simp [h, Memory.read_filter_ge m c a (by omega)]

theorem Memory.mem_write {m : Memory} {a : Nat} {b : Byte} {x : Host.Cell} (h : x ∈ m.write a b) :
    x = (a, b) ∨ x ∈ m := by
  induction m with
  | nil => exact .inl (by simpa [Memory.write] using h)
  | cons y m ih =>
    obtain ⟨a', b'⟩ := y
    simp only [Memory.write] at h
    split at h
    · rcases List.mem_cons.1 h with h | h
      · exact .inl h
      · exact .inr h
    · split at h
      · rcases List.mem_cons.1 h with h | h
        · exact .inl h
        · exact .inr (List.mem_cons_of_mem _ h)
      · rcases List.mem_cons.1 h with h | h
        · exact .inr (h ▸ List.mem_cons_self)
        · rcases ih h with h | h
          · exact .inl h
          · exact .inr (List.mem_cons_of_mem _ h)

theorem Memory.write_sorted {m : Memory} {a : Nat} {b : Byte} (h : m.Pairwise fun x y => x.1 < y.1) :
    (m.write a b).Pairwise fun x y => x.1 < y.1 := by
  induction m with
  | nil => simp [Memory.write]
  | cons y m ih =>
    obtain ⟨a', b'⟩ := y
    obtain ⟨hy, hm⟩ := List.pairwise_cons.1 h
    simp only [Memory.write]
    split
    · next hlt =>
      refine List.pairwise_cons.2 ⟨?_, h⟩
      intro x hx
      rcases List.mem_cons.1 hx with rfl | hx
      · exact hlt
      · exact Nat.lt_trans hlt (hy x hx)
    · split
      · next heq => subst heq; exact List.pairwise_cons.2 ⟨hy, hm⟩
      · next hlt hne =>
        refine List.pairwise_cons.2 ⟨?_, ih hm⟩
        intro x hx
        rcases Memory.mem_write hx with rfl | hx
        · simp only; omega
        · exact hy x hx

/-- A write inside the buffer keeps the canonical form. -/
theorem Memory.wf_write {m : Memory} {a : Nat} {b : Byte} (h : m.wf) (ha : a < Config.bufBytes) :
    (m.write a b).wf := by
  refine ⟨Memory.write_sorted h.1, fun x hx => ?_⟩
  rcases Memory.mem_write hx with rfl | hx
  · exact ha
  · exact h.2 x hx

/-- INIT's zeroing keeps the canonical form. -/
theorem Memory.wf_zeroBelow {m : Memory} {c : Nat} (h : m.wf) (hc : c ≤ Config.bufBytes) : (m.zeroBelow c).wf := by
  unfold Memory.zeroBelow zeroCells
  refine ⟨List.pairwise_append.2 ⟨?_, h.1.filter _, ?_⟩, ?_⟩
  · exact List.pairwise_map.2 List.pairwise_lt_range
  · intro x hx y hy
    obtain ⟨i, hi, rfl⟩ := List.mem_map.1 hx
    have hlt := List.mem_range.1 hi
    have hge : c ≤ y.1 := by simpa using (List.mem_filter.1 hy).2
    exact Nat.lt_of_lt_of_le hlt hge
  · intro x hx
    rcases List.mem_append.1 hx with hx | hx
    · obtain ⟨i, hi, rfl⟩ := List.mem_map.1 hx
      exact Nat.lt_of_lt_of_le (List.mem_range.1 hi) hc
    · exact h.2 x (List.mem_filter.1 hx).1

end Sys2Proof.Machine
end

