-- ==== Sys2Proof/Laws/State.lean ====
section
/-! SUPPORT. One lemma per field per update of the state, each true by rfl, so that no later proof unfolds a record update. -/

namespace Sys2Proof.Machine

variable (s : State)

@[simp] theorem State.respond_table (o : RespOutcome) (k : BitVec 4) (d : Half) : (s.respond o k d).table = s.table := rfl
@[simp] theorem State.respond_st (o : RespOutcome) (k : BitVec 4) (d : Half) : (s.respond o k d).st = s.st := rfl
@[simp] theorem State.respond_cap (o : RespOutcome) (k : BitVec 4) (d : Half) : (s.respond o k d).cap = s.cap := rfl
@[simp] theorem State.respond_errKind (o : RespOutcome) (k : BitVec 4) (d : Half) : (s.respond o k d).errKind = s.errKind := rfl
@[simp] theorem State.respond_lm (o : RespOutcome) (k : BitVec 4) (d : Half) : (s.respond o k d).lm = s.lm := rfl
@[simp] theorem State.respond_ls (o : RespOutcome) (k : BitVec 4) (d : Half) : (s.respond o k d).ls = s.ls := rfl
@[simp] theorem State.respond_lmValid (o : RespOutcome) (k : BitVec 4) (d : Half) : (s.respond o k d).lmValid = s.lmValid := rfl
@[simp] theorem State.respond_eacc (o : RespOutcome) (k : BitVec 4) (d : Half) : (s.respond o k d).eacc = s.eacc := rfl
@[simp] theorem State.respond_buf (o : RespOutcome) (k : BitVec 4) (d : Half) : (s.respond o k d).buf = s.buf := rfl
@[simp] theorem State.respond_port (o : RespOutcome) (k : BitVec 4) (d : Half) : (s.respond o k d).port = s.port := rfl
@[simp] theorem State.respond_resp (o : RespOutcome) (k : BitVec 4) (d : Half) : (s.respond o k d).resp = some (respWord o k d) := rfl

@[simp] theorem State.continued_table (d : Half) : (s.continued d).table = s.table := rfl
@[simp] theorem State.continued_st (d : Half) : (s.continued d).st = s.st := rfl
@[simp] theorem State.continued_cap (d : Half) : (s.continued d).cap = s.cap := rfl
@[simp] theorem State.continued_errKind (d : Half) : (s.continued d).errKind = s.errKind := rfl
@[simp] theorem State.continued_lm (d : Half) : (s.continued d).lm = s.lm := rfl
@[simp] theorem State.continued_ls (d : Half) : (s.continued d).ls = s.ls := rfl
@[simp] theorem State.continued_lmValid (d : Half) : (s.continued d).lmValid = s.lmValid := rfl
@[simp] theorem State.continued_eacc (d : Half) : (s.continued d).eacc = s.eacc := rfl
@[simp] theorem State.continued_buf (d : Half) : (s.continued d).buf = s.buf := rfl
@[simp] theorem State.continued_port (d : Half) : (s.continued d).port = s.port := rfl
@[simp] theorem State.continued_resp (d : Half) : (s.continued d).resp = some (respWord .continued 0 d) := rfl

@[simp] theorem State.raiseSession_table (k : SessionErrorKind) : (s.raiseSession k).table = s.table := rfl
@[simp] theorem State.raiseSession_st (k : SessionErrorKind) : (s.raiseSession k).st = .error := rfl
@[simp] theorem State.raiseSession_cap (k : SessionErrorKind) : (s.raiseSession k).cap = s.cap := rfl
@[simp] theorem State.raiseSession_errKind (k : SessionErrorKind) : (s.raiseSession k).errKind = k.code := rfl
@[simp] theorem State.raiseSession_lm (k : SessionErrorKind) : (s.raiseSession k).lm = s.lm := rfl
@[simp] theorem State.raiseSession_ls (k : SessionErrorKind) : (s.raiseSession k).ls = s.ls := rfl
@[simp] theorem State.raiseSession_lmValid (k : SessionErrorKind) : (s.raiseSession k).lmValid = s.lmValid := rfl
@[simp] theorem State.raiseSession_eacc (k : SessionErrorKind) : (s.raiseSession k).eacc = s.eacc := rfl
@[simp] theorem State.raiseSession_buf (k : SessionErrorKind) : (s.raiseSession k).buf = s.buf := rfl
@[simp] theorem State.raiseSession_port (k : SessionErrorKind) : (s.raiseSession k).port = s.port := rfl
@[simp] theorem State.raiseSession_resp (k : SessionErrorKind) : (s.raiseSession k).resp = some (respWord .sessionError k.code 0) := rfl

@[simp] theorem State.raiseCommand_table (k : CommandErrorKind) : (s.raiseCommand k).table = s.table := rfl
@[simp] theorem State.raiseCommand_st (k : CommandErrorKind) : (s.raiseCommand k).st = s.st := rfl
@[simp] theorem State.raiseCommand_cap (k : CommandErrorKind) : (s.raiseCommand k).cap = s.cap := rfl
@[simp] theorem State.raiseCommand_errKind (k : CommandErrorKind) : (s.raiseCommand k).errKind = s.errKind := rfl
@[simp] theorem State.raiseCommand_lm (k : CommandErrorKind) : (s.raiseCommand k).lm = s.lm := rfl
@[simp] theorem State.raiseCommand_ls (k : CommandErrorKind) : (s.raiseCommand k).ls = s.ls := rfl
@[simp] theorem State.raiseCommand_lmValid (k : CommandErrorKind) : (s.raiseCommand k).lmValid = s.lmValid := rfl
@[simp] theorem State.raiseCommand_eacc (k : CommandErrorKind) : (s.raiseCommand k).eacc = s.eacc := rfl
@[simp] theorem State.raiseCommand_buf (k : CommandErrorKind) : (s.raiseCommand k).buf = s.buf := rfl
@[simp] theorem State.raiseCommand_port (k : CommandErrorKind) : (s.raiseCommand k).port = s.port := rfl
@[simp] theorem State.raiseCommand_resp (k : CommandErrorKind) : (s.raiseCommand k).resp = some (respWord .commandError k.code 0) := rfl

@[simp] theorem State.latch_table (d : BitVec 15) : (s.latch d).table = s.table := rfl
@[simp] theorem State.latch_st (d : BitVec 15) : (s.latch d).st = s.st := rfl
@[simp] theorem State.latch_cap (d : BitVec 15) : (s.latch d).cap = s.cap := rfl
@[simp] theorem State.latch_errKind (d : BitVec 15) : (s.latch d).errKind = s.errKind := rfl
@[simp] theorem State.latch_lm (d : BitVec 15) : (s.latch d).lm = d := rfl
@[simp] theorem State.latch_ls (d : BitVec 15) : (s.latch d).ls = s.ls := rfl
@[simp] theorem State.latch_lmValid (d : BitVec 15) : (s.latch d).lmValid = true := rfl
@[simp] theorem State.latch_eacc (d : BitVec 15) : (s.latch d).eacc = s.eacc := rfl
@[simp] theorem State.latch_buf (d : BitVec 15) : (s.latch d).buf = s.buf := rfl
@[simp] theorem State.latch_port (d : BitVec 15) : (s.latch d).port = s.port := rfl
@[simp] theorem State.latch_resp (d : BitVec 15) : (s.latch d).resp = s.resp := rfl

@[simp] theorem State.pairSpace_table (d : BitVec 15) : (s.pairSpace d).table = s.table := rfl
@[simp] theorem State.pairSpace_st (d : BitVec 15) : (s.pairSpace d).st = s.st := rfl
@[simp] theorem State.pairSpace_cap (d : BitVec 15) : (s.pairSpace d).cap = s.cap := rfl
@[simp] theorem State.pairSpace_errKind (d : BitVec 15) : (s.pairSpace d).errKind = s.errKind := rfl
@[simp] theorem State.pairSpace_lm (d : BitVec 15) : (s.pairSpace d).lm = s.lm := rfl
@[simp] theorem State.pairSpace_ls (d : BitVec 15) : (s.pairSpace d).ls = d := rfl
@[simp] theorem State.pairSpace_lmValid (d : BitVec 15) : (s.pairSpace d).lmValid = false := rfl
@[simp] theorem State.pairSpace_eacc (d : BitVec 15) : (s.pairSpace d).eacc = s.eacc := rfl
@[simp] theorem State.pairSpace_buf (d : BitVec 15) : (s.pairSpace d).buf = s.buf := rfl
@[simp] theorem State.pairSpace_port (d : BitVec 15) : (s.pairSpace d).port = s.port := rfl
@[simp] theorem State.pairSpace_resp (d : BitVec 15) : (s.pairSpace d).resp = s.resp := rfl

@[simp] theorem State.setByte_table (a : Nat) (v : Byte) : (s.setByte a v).table = s.table := rfl
@[simp] theorem State.setByte_st (a : Nat) (v : Byte) : (s.setByte a v).st = s.st := rfl
@[simp] theorem State.setByte_cap (a : Nat) (v : Byte) : (s.setByte a v).cap = s.cap := rfl
@[simp] theorem State.setByte_errKind (a : Nat) (v : Byte) : (s.setByte a v).errKind = s.errKind := rfl
@[simp] theorem State.setByte_lm (a : Nat) (v : Byte) : (s.setByte a v).lm = s.lm := rfl
@[simp] theorem State.setByte_ls (a : Nat) (v : Byte) : (s.setByte a v).ls = s.ls := rfl
@[simp] theorem State.setByte_lmValid (a : Nat) (v : Byte) : (s.setByte a v).lmValid = s.lmValid := rfl
@[simp] theorem State.setByte_eacc (a : Nat) (v : Byte) : (s.setByte a v).eacc = s.eacc := rfl
@[simp] theorem State.setByte_buf (a : Nat) (v : Byte) : (s.setByte a v).buf = s.buf.write a v := rfl
@[simp] theorem State.setByte_port (a : Nat) (v : Byte) : (s.setByte a v).port = s.port := rfl
@[simp] theorem State.setByte_resp (a : Nat) (v : Byte) : (s.setByte a v).resp = s.resp := rfl

@[simp] theorem State.setHalf_table (a : Nat) (v : Half) : (s.setHalf a v).table = s.table := rfl
@[simp] theorem State.setHalf_st (a : Nat) (v : Half) : (s.setHalf a v).st = s.st := rfl
@[simp] theorem State.setHalf_cap (a : Nat) (v : Half) : (s.setHalf a v).cap = s.cap := rfl
@[simp] theorem State.setHalf_errKind (a : Nat) (v : Half) : (s.setHalf a v).errKind = s.errKind := rfl
@[simp] theorem State.setHalf_lm (a : Nat) (v : Half) : (s.setHalf a v).lm = s.lm := rfl
@[simp] theorem State.setHalf_ls (a : Nat) (v : Half) : (s.setHalf a v).ls = s.ls := rfl
@[simp] theorem State.setHalf_lmValid (a : Nat) (v : Half) : (s.setHalf a v).lmValid = s.lmValid := rfl
@[simp] theorem State.setHalf_eacc (a : Nat) (v : Half) : (s.setHalf a v).eacc = s.eacc := rfl
@[simp] theorem State.setHalf_buf (a : Nat) (v : Half) : (s.setHalf a v).buf = (s.buf.write a (lowByte v)).write (a + 1) (highByte v) := rfl
@[simp] theorem State.setHalf_port (a : Nat) (v : Half) : (s.setHalf a v).port = s.port := rfl
@[simp] theorem State.setHalf_resp (a : Nat) (v : Half) : (s.setHalf a v).resp = s.resp := rfl

@[simp] theorem State.setEacc_table (e : BitVec 20) : (s.setEacc e).table = s.table := rfl
@[simp] theorem State.setEacc_st (e : BitVec 20) : (s.setEacc e).st = s.st := rfl
@[simp] theorem State.setEacc_cap (e : BitVec 20) : (s.setEacc e).cap = s.cap := rfl
@[simp] theorem State.setEacc_errKind (e : BitVec 20) : (s.setEacc e).errKind = s.errKind := rfl
@[simp] theorem State.setEacc_lm (e : BitVec 20) : (s.setEacc e).lm = s.lm := rfl
@[simp] theorem State.setEacc_ls (e : BitVec 20) : (s.setEacc e).ls = s.ls := rfl
@[simp] theorem State.setEacc_lmValid (e : BitVec 20) : (s.setEacc e).lmValid = s.lmValid := rfl
@[simp] theorem State.setEacc_eacc (e : BitVec 20) : (s.setEacc e).eacc = e := rfl
@[simp] theorem State.setEacc_buf (e : BitVec 20) : (s.setEacc e).buf = s.buf := rfl
@[simp] theorem State.setEacc_port (e : BitVec 20) : (s.setEacc e).port = s.port := rfl
@[simp] theorem State.setEacc_resp (e : BitVec 20) : (s.setEacc e).resp = s.resp := rfl

@[simp] theorem State.enter_table (x : SessionState) : (s.enter x).table = s.table := rfl
@[simp] theorem State.enter_st (x : SessionState) : (s.enter x).st = x := rfl
@[simp] theorem State.enter_cap (x : SessionState) : (s.enter x).cap = s.cap := rfl
@[simp] theorem State.enter_errKind (x : SessionState) : (s.enter x).errKind = s.errKind := rfl
@[simp] theorem State.enter_lm (x : SessionState) : (s.enter x).lm = s.lm := rfl
@[simp] theorem State.enter_ls (x : SessionState) : (s.enter x).ls = s.ls := rfl
@[simp] theorem State.enter_lmValid (x : SessionState) : (s.enter x).lmValid = s.lmValid := rfl
@[simp] theorem State.enter_eacc (x : SessionState) : (s.enter x).eacc = s.eacc := rfl
@[simp] theorem State.enter_buf (x : SessionState) : (s.enter x).buf = s.buf := rfl
@[simp] theorem State.enter_port (x : SessionState) : (s.enter x).port = s.port := rfl
@[simp] theorem State.enter_resp (x : SessionState) : (s.enter x).resp = s.resp := rfl

@[simp] theorem State.withPort_table (r : List HostEvent) : (s.withPort r).table = s.table := rfl
@[simp] theorem State.withPort_st (r : List HostEvent) : (s.withPort r).st = s.st := rfl
@[simp] theorem State.withPort_cap (r : List HostEvent) : (s.withPort r).cap = s.cap := rfl
@[simp] theorem State.withPort_errKind (r : List HostEvent) : (s.withPort r).errKind = s.errKind := rfl
@[simp] theorem State.withPort_lm (r : List HostEvent) : (s.withPort r).lm = s.lm := rfl
@[simp] theorem State.withPort_ls (r : List HostEvent) : (s.withPort r).ls = s.ls := rfl
@[simp] theorem State.withPort_lmValid (r : List HostEvent) : (s.withPort r).lmValid = s.lmValid := rfl
@[simp] theorem State.withPort_eacc (r : List HostEvent) : (s.withPort r).eacc = s.eacc := rfl
@[simp] theorem State.withPort_buf (r : List HostEvent) : (s.withPort r).buf = s.buf := rfl
@[simp] theorem State.withPort_port (r : List HostEvent) : (s.withPort r).port = r := rfl
@[simp] theorem State.withPort_resp (r : List HostEvent) : (s.withPort r).resp = s.resp := rfl

@[simp] theorem State.hardReset_table : (s.hardReset).table = s.table := rfl
@[simp] theorem State.hardReset_st : (s.hardReset).st = .uninit := rfl
@[simp] theorem State.hardReset_cap : (s.hardReset).cap = 0 := rfl
@[simp] theorem State.hardReset_errKind : (s.hardReset).errKind = 0 := rfl
@[simp] theorem State.hardReset_lm : (s.hardReset).lm = 0 := rfl
@[simp] theorem State.hardReset_ls : (s.hardReset).ls = 0 := rfl
@[simp] theorem State.hardReset_lmValid : (s.hardReset).lmValid = false := rfl
@[simp] theorem State.hardReset_eacc : (s.hardReset).eacc = 0 := rfl
@[simp] theorem State.hardReset_buf : (s.hardReset).buf = s.buf := rfl
@[simp] theorem State.hardReset_port : (s.hardReset).port = s.port := rfl
@[simp] theorem State.hardReset_resp : (s.hardReset).resp = none := rfl

@[simp] theorem State.startSession_table (c : BitVec 16) : (s.startSession c).table = s.table := rfl
@[simp] theorem State.startSession_st (c : BitVec 16) : (s.startSession c).st = .await := rfl
@[simp] theorem State.startSession_cap (c : BitVec 16) : (s.startSession c).cap = c := rfl
@[simp] theorem State.startSession_errKind (c : BitVec 16) : (s.startSession c).errKind = 0 := rfl
@[simp] theorem State.startSession_lm (c : BitVec 16) : (s.startSession c).lm = 0 := rfl
@[simp] theorem State.startSession_ls (c : BitVec 16) : (s.startSession c).ls = 0 := rfl
@[simp] theorem State.startSession_lmValid (c : BitVec 16) : (s.startSession c).lmValid = false := rfl
@[simp] theorem State.startSession_eacc (c : BitVec 16) : (s.startSession c).eacc = 0 := rfl
@[simp] theorem State.startSession_buf (c : BitVec 16) : (s.startSession c).buf = s.buf.zeroBelow c.toNat := rfl
@[simp] theorem State.startSession_port (c : BitVec 16) : (s.startSession c).port = s.port := rfl
@[simp] theorem State.startSession_resp (c : BitVec 16) : (s.startSession c).resp = some (respWord .continued 0 0) := rfl

@[simp] theorem State.initFail_table : (s.initFail).table = s.table := rfl
@[simp] theorem State.initFail_st : (s.initFail).st = .uninit := rfl
@[simp] theorem State.initFail_cap : (s.initFail).cap = 0 := rfl
@[simp] theorem State.initFail_errKind : (s.initFail).errKind = bufferTooSmallCode := rfl
@[simp] theorem State.initFail_lm : (s.initFail).lm = s.lm := rfl
@[simp] theorem State.initFail_ls : (s.initFail).ls = s.ls := rfl
@[simp] theorem State.initFail_lmValid : (s.initFail).lmValid = false := rfl
@[simp] theorem State.initFail_eacc : (s.initFail).eacc = s.eacc := rfl
@[simp] theorem State.initFail_buf : (s.initFail).buf = s.buf := rfl
@[simp] theorem State.initFail_port : (s.initFail).port = s.port := rfl
@[simp] theorem State.initFail_resp : (s.initFail).resp = some (respWord .sessionError bufferTooSmallCode 0) := rfl

end Sys2Proof.Machine
end

