-- ==== Sys2Proof/Laws/Ops.lean ====
section
/-! SUPPORT. What the shared operations can do: sequencing, the accesses to BUF, the end of a command, and the reader's views
of BUF after a write. -/

namespace Sys2Proof.Machine

/-! Sequencing. -/

theorem bind_eq_ok {α β : Type} {x : Except Raised α} {f : α → Except Raised β} {b : β} :
    (x >>= f) = .ok b ↔ ∃ a, x = .ok a ∧ f a = .ok b := by
  cases x <;> simp [bind, Except.bind]

theorem bind_eq_error {α β : Type} {x : Except Raised α} {f : α → Except Raised β} {r : Raised} :
    (x >>= f) = .error r ↔ x = .error r ∨ ∃ a, x = .ok a ∧ f a = .error r := by
  cases x <;> simp [bind, Except.bind]

@[simp] theorem ok_bind {α β : Type} (a : α) (f : α → Except Raised β) : (Except.ok a >>= f) = f a := rfl

@[simp] theorem error_bind {α β : Type} (r : Raised) (f : α → Except Raised β) :
    ((Except.error r : Except Raised α) >>= f) = .error r := rfl

/-! The end of a command. -/

@[simp] theorem conclude_ok (s t : State) : s.conclude (.ok t) = .next t := rfl

@[simp] theorem conclude_session (s : State) (k : SessionErrorKind) :
    s.conclude (.error (.session k)) = .next (s.raiseSession k) := rfl

@[simp] theorem conclude_fault (s : State) (f : Fault) : s.conclude (.error (.fault f)) = .fault f := rfl

/-- A command that goes on has either done its work or raised a session error. -/
theorem conclude_eq_next {s t : State} {x : Except Raised State} :
    s.conclude x = .next t ↔ x = .ok t ∨ ∃ k, x = .error (.session k) ∧ t = s.raiseSession k := by
  rcases x with (k | f) | u
  · simp [eq_comm]
  · simp
  · simp

/-! Accesses to BUF. -/

theorem read8_eq_ok {s : State} {a : Nat} {b : Byte} :
    s.read8 a = .ok b ↔ a < Config.bufBytes ∧ s.buf.read a = some b := by
  unfold State.read8
  split
  · next h => cases hr : s.buf.read a <;> simp [h]
  · next h => simp [h]

theorem read8_ne_session {s : State} {a : Nat} {k : SessionErrorKind} : s.read8 a ≠ .error (.session k) := by
  unfold State.read8
  split
  · cases s.buf.read a <;> simp
  · simp

theorem write8_of_lt {s : State} {a : Nat} {v : Byte} (h : a < Config.bufBytes) :
    s.write8 a v = .ok (s.setByte a v) := by
  unfold State.write8; rw [if_pos h]

theorem write8_eq_ok {s t : State} {a : Nat} {v : Byte} :
    s.write8 a v = .ok t ↔ a < Config.bufBytes ∧ t = s.setByte a v := by
  unfold State.write8
  split
  · next h => simp [h, eq_comm]
  · next h => simp [h]

theorem write8_ne_session {s : State} {a : Nat} {v : Byte} {k : SessionErrorKind} :
    s.write8 a v ≠ .error (.session k) := by
  unfold State.write8; split <;> simp

theorem read16_eq_ok {s : State} {a : Nat} {v : Half} :
    s.read16 a = .ok v ↔
      ∃ l h, s.read8 a = .ok l ∧ s.read8 (a + 1) = .ok h ∧ v = joinBytes l h := by
  unfold State.read16
  simp only [bind_eq_ok, Except.ok.injEq]
  constructor
  · rintro ⟨l, hl, h, hh, rfl⟩; exact ⟨l, h, hl, hh, rfl⟩
  · rintro ⟨l, h, hl, hh, rfl⟩; exact ⟨l, hl, h, hh, rfl⟩

theorem read16_ne_session {s : State} {a : Nat} {k : SessionErrorKind} : s.read16 a ≠ .error (.session k) := by
  unfold State.read16
  simp [bind_eq_error, read8_ne_session]

theorem write16_of_lt {s : State} {a : Nat} {v : Half} (h : a + 1 < Config.bufBytes) :
    s.write16 a v = .ok (s.setHalf a v) := by
  unfold State.write16
  rw [write8_of_lt (by omega), ok_bind, write8_of_lt h]
  rfl

theorem write16_eq_ok {s t : State} {a : Nat} {v : Half} :
    s.write16 a v = .ok t ↔ a + 1 < Config.bufBytes ∧ t = s.setHalf a v := by
  unfold State.write16 State.setHalf
  simp only [bind_eq_ok, write8_eq_ok]
  constructor
  · rintro ⟨u, ⟨-, rfl⟩, h, rfl⟩; exact ⟨h, rfl⟩
  · rintro ⟨h, rfl⟩; exact ⟨_, ⟨by omega, rfl⟩, h, rfl⟩

theorem write16_ne_session {s : State} {a : Nat} {v : Half} {k : SessionErrorKind} :
    s.write16 a v ≠ .error (.session k) := by
  unfold State.write16
  simp [bind_eq_error, write8_ne_session]

/-! The reader's views after a write. -/

theorem byteAt_setByte (s : State) (a c : Nat) (v : Byte) :
    (s.setByte a v).byteAt c = if c = a then v else s.byteAt c := by
  unfold State.byteAt
  rw [State.setByte_buf, Memory.read_write]
  split <;> rfl

theorem byteAt_setHalf (s : State) (a c : Nat) (v : Half) :
    (s.setHalf a v).byteAt c = if c = a then lowByte v else if c = a + 1 then highByte v else s.byteAt c := by
  unfold State.setHalf
  simp only [byteAt_setByte]
  split
  · next h => rw [if_neg (by omega)]
  · rfl

theorem halfAt_setHalf_same (s : State) (a : Nat) (v : Half) : (s.setHalf a v).halfAt a = v := by
  unfold State.halfAt
  simp [byteAt_setHalf]

theorem halfAt_setHalf_other {s : State} {a c : Nat} {v : Half} (h : c + 1 < a ∨ a + 1 < c) :
    (s.setHalf a v).halfAt c = s.halfAt c := by
  unfold State.halfAt
  simp only [byteAt_setHalf]
  rw [if_neg (by omega), if_neg (by omega), if_neg (by omega), if_neg (by omega)]

theorem halfAt_setByte_other {s : State} {a c : Nat} {v : Byte} (h : c + 1 < a ∨ a < c) :
    (s.setByte a v).halfAt c = s.halfAt c := by
  unfold State.halfAt
  simp only [byteAt_setByte]
  rw [if_neg (by omega), if_neg (by omega)]

/-- Two states with the same bytes in view have the same fields in view. -/
theorem halfAt_congr {s t : State} {a : Nat} (h : t.byteAt a = s.byteAt a) (h' : t.byteAt (a + 1) = s.byteAt (a + 1)) :
    t.halfAt a = s.halfAt a := by unfold State.halfAt; rw [h, h']

theorem isSome_read_setByte {s : State} {a c : Nat} {v : Byte} (h : (s.buf.read c).isSome = true) :
    ((s.setByte a v).buf.read c).isSome = true := by
  rw [State.setByte_buf, Memory.read_write]
  split
  · rfl
  · exact h

theorem isSome_read_setHalf {s : State} {a c : Nat} {v : Half} (h : (s.buf.read c).isSome = true) :
    ((s.setHalf a v).buf.read c).isSome = true :=
  isSome_read_setByte (isSome_read_setByte h)

/-- A byte with a specified value is read as the views show it. -/
theorem read8_of_isSome {s : State} {a : Nat} (ha : a < Config.bufBytes) (h : (s.buf.read a).isSome = true) :
    s.read8 a = .ok (s.byteAt a) := by
  rw [read8_eq_ok]
  refine ⟨ha, ?_⟩
  unfold State.byteAt
  cases hr : s.buf.read a with
  | none => rw [hr] at h; cases h
  | some b => rfl

theorem byteAt_of_read8 {s : State} {a : Nat} {b : Byte} (h : s.read8 a = .ok b) : s.byteAt a = b := by
  unfold State.byteAt
  rw [(read8_eq_ok.1 h).2]
  rfl

theorem halfAt_of_read16 {s : State} {a : Nat} {v : Half} (h : s.read16 a = .ok v) : s.halfAt a = v := by
  obtain ⟨l, g, hl, hg, rfl⟩ := read16_eq_ok.1 h
  unfold State.halfAt
  rw [byteAt_of_read8 hl, byteAt_of_read8 hg]

end Sys2Proof.Machine
end

