-- ==== Sys2Proof/Laws/Store.lean ====
section
/-! SUPPORT. The Frame Store under its invariants: where the records lie, that every field can be read, and what each
operation of 43_frame_store.md and 44_finalizer.md gives. -/

namespace Sys2Proof.Machine

theorem State.cap_lt (s : State) : s.cap.toNat < Config.bufBytes := s.cap.isLt

theorem State.current_lt {s : State} (hf : 1 ≤ s.frames) : s.current < s.frames := by
  simp only [State.current]; omega

theorem State.nextOffset_even (s : State) : s.nextOffset % 2 = 0 := by
  unfold State.nextOffset
  split
  · rfl
  · exact align2_even _

namespace StoreInv

variable {s : State} (h : StoreInv s)
include h

/-! Where the records lie (20_memory.md R56, R61). -/

theorem cap_ge : 22 ≤ s.cap.toNat := h.capHolds

theorem frames_le : s.frames ≤ 10 := h.countBound

theorem record_fits {i : Nat} (hi : i < s.frames) : s.recordAt i + 4 ≤ s.cap.toNat := by
  have := h.recordFits i hi
  simp only [Config.recHdr] at this
  omega

theorem record_next {i : Nat} (hi : i + 1 < s.frames) :
    s.recordAt (i + 1) = align2 (s.recordAt i + recordSize (s.kbAt i)) :=
  h.nextRecord i (by simp only [State.current]; omega)

theorem record_even {i : Nat} (hi : i < s.frames) : s.recordAt i % 2 = 0 := by
  cases i with
  | zero => rw [h.firstRecord hi]; rfl
  | succ i => rw [h.record_next hi]; exact align2_even _

/-- A record ends at or before the next record (R59). -/
theorem record_step {i : Nat} (hi : i + 1 < s.frames) :
    s.recordAt i + recordSize (s.kbAt i) ≤ s.recordAt (i + 1) := by
  rw [h.record_next hi]; exact le_align2 _

/-- A record ends at or before every later record (R56). -/
theorem record_before {i j : Nat} (hij : i < j) (hj : j < s.frames) :
    s.recordAt i + recordSize (s.kbAt i) ≤ s.recordAt j := by
  induction j with
  | zero => omega
  | succ j ih =>
    have hstep := h.record_step hj
    by_cases hlt : i < j
    · have := ih hlt (by omega)
      omega
    · have : i = j := by omega
      subst this
      exact hstep

theorem record_lt {i j : Nat} (hij : i < j) (hj : j < s.frames) : s.recordAt i + 4 ≤ s.recordAt j := by
  have := h.record_before hij hj
  have := recordSize_ge (s.kbAt i)
  simp only [Config.recHdr] at this
  omega

theorem record_ge {i : Nat} (hi : i < s.frames) : 22 ≤ s.recordAt i := by
  have h0 := h.firstRecord (by omega)
  simp only [Config.hdrSize] at h0
  by_cases hz : i = 0
  · subst hz; omega
  · have := h.record_lt (Nat.pos_of_ne_zero hz) hi
    omega

/-! Every field below CAP can be read. -/

theorem read8 {a : Nat} (ha : a < s.cap.toNat) : s.read8 a = .ok (s.byteAt a) :=
  read8_of_isSome (Nat.lt_trans ha s.cap_lt) (h.readable a ha)

theorem read16 {a : Nat} (ha : a + 1 < s.cap.toNat) : s.read16 a = .ok (s.halfAt a) :=
  read16_eq_ok.2 ⟨_, _, h.read8 (by omega), h.read8 ha, rfl⟩

theorem readFormat : s.read8 formatAddr = .ok s.formatByte :=
  h.read8 (by have := h.cap_ge; simp only [formatAddr]; omega)

theorem readCount : s.read8 countAddr = .ok (s.byteAt countAddr) :=
  h.read8 (by have := h.cap_ge; simp only [countAddr]; omega)

theorem frameCount : s.frameCount = .ok s.frames := by
  unfold State.frameCount
  rw [h.readCount]
  rfl

theorem offset {i : Nat} (hi : i < 10) : s.offset i = .ok (s.recordAt i) := by
  unfold State.offset
  rw [h.read16 (by have := h.cap_ge; simp only [offsetAddr]; omega)]
  rfl

theorem currentFrame (hf : 1 ≤ s.frames) : s.currentFrame = .ok (s.recordAt s.current) := by
  unfold State.currentFrame
  rw [h.frameCount, ok_bind, if_neg (by omega)]
  exact h.offset (by have := h.frames_le; omega)

theorem readKb {i : Nat} (hi : i < s.frames) : s.read16 (s.recordAt i) = .ok (s.kbAt i) :=
  h.read16 (by have := h.record_fits hi; omega)

theorem readElapsed {i : Nat} (hi : i < s.frames) : s.read16 (s.recordAt i + 2) = .ok (s.elapsedAt i) :=
  h.read16 (by have := h.record_fits hi; omega)

theorem readPayload {i k : Nat} (hi : i < s.frames) (hk : k < ceil8 (s.bitsAt i)) :
    s.read8 (s.recordAt i + Config.recHdr + k) = .ok (s.payloadAt i k) :=
  h.read8 (by have := h.recordFits i hi; omega)

end StoreInv

/-! What each operation gives. -/

/-- The state after appendFrame's four writes (R161). -/
def State.appended (s : State) (k : FrameKind) (e : BitVec 20) : State :=
  (((s.setHalf (offsetAddr s.frames) (BitVec.ofNat 16 s.nextOffset)).setHalf s.nextOffset (makeKb k.code 0)).setHalf
    (s.nextOffset + 2) (elapsedField e)).setByte countAddr (BitVec.ofNat 8 (s.frames + 1))

/-- The address writeBit stores to (R163). -/
def State.bitAddr (s : State) : Nat := s.recordAt s.current + Config.recHdr + s.bitsAt s.current / 8

/-- The payload byte writeBit stores (R163). -/
def State.bitByte (s : State) (b : Bool) : Byte :=
  (if s.bitsAt s.current % 8 = 0 then 0 else s.byteAt s.bitAddr) ||| bitAt b (s.bitsAt s.current % 8)

/-- The state after writeBit's writes (R163). -/
def State.bitWritten (s : State) (b : Bool) : State :=
  (s.setByte s.bitAddr (s.bitByte b)).setHalf (s.recordAt s.current)
    (makeKb (s.kindAt s.current) (s.bitsAt s.current + 1))

/-- The state after addElapsed's writes (R167). -/
def State.elapsedAdded (s : State) (d : BitVec 15) : State :=
  (s.setEacc (sat20 (s.eacc.toNat + d.toNat))).setHalf (s.recordAt s.current + 2)
    (elapsedField (sat20 (s.eacc.toNat + d.toNat)))

/-- Frame i is Data and has frame 0's bit count and payload bytes (R180). -/
def State.duplicatesFirst (s : State) (i : Nat) : Prop :=
  s.kindAt i = FrameKind.data.code ∧ s.bitsAt i = s.bitsAt 0 ∧
    ∀ k < ceil8 (s.bitsAt i), s.payloadAt i k = s.payloadAt 0 k

/-- The state after frame i has become SameAsFirst (R180). -/
def State.markedSame (s : State) (i : Nat) : State :=
  s.setHalf (s.recordAt i) (makeKb FrameKind.sameAsFirst.code (s.bitsAt i))

namespace StoreInv

variable {s : State} (h : StoreInv s)
include h

theorem nextRecord_eq : s.nextRecord s.frames = .ok s.nextOffset := by
  unfold State.nextRecord State.nextOffset
  split
  · rfl
  · next hf =>
    have hc : s.frames - 1 < s.frames := by omega
    rw [h.offset (by have := h.frames_le; omega), ok_bind, h.readKb hc]
    rfl

theorem nextOffset_ge : 22 ≤ s.nextOffset := by
  unfold State.nextOffset
  split
  · exact Nat.le_refl _
  · next hf =>
    have := h.record_ge (State.current_lt (by omega))
    have := le_align2 (s.recordAt s.current + recordSize (s.kbAt s.current))
    omega

/-- The next record starts after every record (R59). -/
theorem record_before_next {i : Nat} (hi : i < s.frames) : s.recordAt i + recordSize (s.kbAt i) ≤ s.nextOffset := by
  unfold State.nextOffset
  rw [if_neg (by omega)]
  refine Nat.le_trans ?_ (le_align2 _)
  by_cases hc : i = s.current
  · subst hc; exact Nat.le_refl _
  · have hlt : i < s.current := by simp only [State.current] at hc ⊢; omega
    have := h.record_before hlt (State.current_lt (by omega))
    omega

/-- appendFrame: BufferOverflow when the index is full or the header does not fit, else the four writes (R161, R162). -/
theorem appendFrame_eq (k : FrameKind) (e : BitVec 20) :
    s.appendFrame k e =
      if s.frames = Config.maxFrames ∨ s.cap.toNat < s.nextOffset + Config.recHdr then
        .error (.session .bufferOverflow)
      else .ok (s.appended k e) := by
  unfold State.appendFrame
  rw [h.frameCount, ok_bind]
  by_cases hm : s.frames = Config.maxFrames
  · rw [if_pos hm, if_pos (.inl hm)]
  · rw [if_neg hm, h.nextRecord_eq, ok_bind]
    by_cases hc : s.cap.toNat < s.nextOffset + Config.recHdr
    · rw [if_pos hc, if_pos (.inr hc)]
    · rw [if_neg hc, if_neg (by simp [hm, hc])]
      have h1 := s.cap_lt
      have h2 := h.frames_le
      simp only [Config.recHdr, Config.bufBytes] at hc h1
      unfold State.writeRecord
      rw [write16_of_lt (by simp only [offsetAddr, Config.bufBytes]; omega), ok_bind,
        write16_of_lt (by simp only [Config.bufBytes]; omega), ok_bind,
        write16_of_lt (by simp only [Config.bufBytes]; omega), ok_bind,
        write8_of_lt (by simp only [countAddr, Config.bufBytes]; omega)]
      rfl

/-- writeBit: BufferOverflow when the bit count is full or a new byte would pass CAP, else the bit's writes (R163). -/
theorem writeBit_eq (hf : 1 ≤ s.frames) (b : Bool) :
    s.writeBit b =
      if s.bitsAt s.current = Config.maxBitCount ∨ (s.bitsAt s.current % 8 = 0 ∧ s.cap.toNat ≤ s.bitAddr) then
        .error (.session .bufferOverflow)
      else .ok (s.bitWritten b) := by
  have hc := State.current_lt hf
  have hfit := h.recordFits s.current hc
  have hcap := s.cap_lt
  have hbits : bitCountOf (s.kbAt s.current) = s.bitsAt s.current := rfl
  unfold State.writeBit
  rw [h.currentFrame hf, ok_bind, h.readKb hc, ok_bind]
  simp only [hbits]
  by_cases hfull : s.bitsAt s.current = Config.maxBitCount
  · rw [if_pos hfull, if_pos (.inl hfull)]
  · rw [if_neg hfull]
    have haddr : s.recordAt s.current + Config.recHdr + s.bitsAt s.current / 8 = s.bitAddr := rfl
    rw [haddr]
    simp only [Config.recHdr, Config.bufBytes] at hfit hcap
    by_cases hz : s.bitsAt s.current % 8 = 0
    · by_cases hover : s.cap.toNat ≤ s.bitAddr
      · rw [if_pos (.inr ⟨hz, hover⟩)]
        simp [State.payloadByte, hz, hover]
      · rw [if_neg (by simp [hfull, hover])]
        simp only [State.payloadByte, hz, hover, if_true, if_false, ok_bind]
        rw [write8_of_lt (by simp only [Config.bufBytes]; omega), ok_bind,
          write16_of_lt (by simp only [Config.bufBytes]; omega)]
        simp only [State.bitWritten, State.bitByte, hz, if_true]
        rfl
    · have hlt : s.bitAddr < s.cap.toNat := by
        have := div8_lt_ceil8 hz
        simp only [State.bitAddr, Config.recHdr]
        omega
      rw [if_neg (by simp [hfull, hz])]
      simp only [State.payloadByte, hz, if_false, h.read8 hlt, ok_bind]
      rw [write8_of_lt (by simp only [Config.bufBytes]; omega), ok_bind,
        write16_of_lt (by simp only [Config.bufBytes]; omega)]
      simp only [State.bitWritten, State.bitByte, hz, if_false]
      rfl

/-- addElapsed never raises once a frame is open (R167). -/
theorem addElapsed_eq (hf : 1 ≤ s.frames) (d : BitVec 15) : s.addElapsed d = .ok (s.elapsedAdded d) := by
  have hfit := h.record_fits (State.current_lt hf)
  have hcap := s.cap_lt
  unfold State.addElapsed
  rw [h.currentFrame hf, ok_bind]
  simp only [Config.bufBytes] at hcap
  rw [write16_of_lt (by simp only [Config.bufBytes]; omega)]
  rfl

theorem samePayload_eq {i j : Nat} (hi : i < s.frames) (hj : j < s.frames) {n : Nat} (hni : n ≤ ceil8 (s.bitsAt i))
    (hnj : n ≤ ceil8 (s.bitsAt j)) :
    ∃ r, s.samePayload (s.recordAt i) (s.recordAt j) n = .ok r ∧
      (r = true ↔ ∀ k < n, s.payloadAt i k = s.payloadAt j k) := by
  induction n with
  | zero => exact ⟨true, rfl, by simp⟩
  | succ n ih =>
    obtain ⟨r, hr, hiff⟩ := ih (by omega) (by omega)
    rw [State.samePayload, hr, ok_bind]
    cases r with
    | false =>
      refine ⟨false, rfl, ?_⟩
      have : ¬ ∀ k < n, s.payloadAt i k = s.payloadAt j k := by
        intro hall; exact Bool.false_ne_true (hiff.2 hall)
      simp only [Bool.false_eq_true, false_iff]
      intro hall
      exact this fun k hk => hall k (by omega)
    | true =>
      rw [if_pos rfl, h.readPayload hi (by omega), ok_bind, h.readPayload hj (by omega), ok_bind]
      refine ⟨_, rfl, ?_⟩
      rw [beq_iff_eq]
      constructor
      · intro heq k hk
        by_cases hkn : k = n
        · subst hkn; exact heq
        · exact hiff.1 rfl k (by omega)
      · intro hall; exact hall n (by omega)

/-- The test of finalize (R180). -/
theorem duplicates_eq {i : Nat} (hi : i < s.frames) :
    ∃ r, s.duplicates (s.recordAt i) (s.recordAt 0) = .ok r ∧ (r = true ↔ s.duplicatesFirst i) := by
  have h0 : 0 < s.frames := by omega
  unfold State.duplicates
  rw [h.readKb hi, ok_bind, h.readKb h0, ok_bind]
  by_cases hc : kindOf (s.kbAt i) = FrameKind.data.code ∧ bitCountOf (s.kbAt i) = bitCountOf (s.kbAt 0)
  · rw [if_pos hc]
    have hbits : s.bitsAt i = s.bitsAt 0 := hc.2
    obtain ⟨r, hr, hiff⟩ := h.samePayload_eq hi h0 (n := ceil8 (s.bitsAt i)) (Nat.le_refl _) (by rw [hbits])
    refine ⟨r, hr, ?_⟩
    rw [hiff]
    exact ⟨fun ha => ⟨hc.1, hbits, ha⟩, fun ha => ha.2.2⟩
  · rw [if_neg hc]
    exact ⟨false, rfl, by simp only [Bool.false_eq_true, false_iff]; exact fun ha => hc ⟨ha.1, ha.2.1⟩⟩

/-- finalize of the last frame: SameAsFirst when it duplicates frame 0, else nothing (R180). -/
theorem finalize_eq (hf : 1 ≤ s.frames) :
    (s.current ≠ 0 ∧ s.duplicatesFirst s.current ∧ s.finalize s.current = .ok (s.markedSame s.current)) ∨
      (¬ (s.current ≠ 0 ∧ s.duplicatesFirst s.current) ∧ s.finalize s.current = .ok s) := by
  have hc := State.current_lt hf
  have hcap := s.cap_lt
  have hfit := h.record_fits hc
  have hle := h.frames_le
  unfold State.finalize
  by_cases hz : s.current = 0
  · exact .inr ⟨by simp [hz], by rw [if_pos hz]⟩
  · rw [if_neg hz, h.offset (by omega), ok_bind, h.offset (by omega), ok_bind]
    obtain ⟨r, hr, hiff⟩ := h.duplicates_eq hc
    rw [hr, ok_bind]
    cases r with
    | true =>
      refine .inl ⟨hz, hiff.1 rfl, ?_⟩
      rw [if_pos rfl, h.readKb hc, ok_bind]
      simp only [Config.bufBytes] at hcap
      rw [write16_of_lt (by simp only [Config.bufBytes]; omega)]
      rfl
    | false =>
      refine .inr ⟨fun ha => Bool.false_ne_true (hiff.2 ha.2), ?_⟩
      simp

end StoreInv

end Sys2Proof.Machine
end

