-- ==== Sys2Proof/Laws/Keeps.lean ====
section
/-! SUPPORT. The invariants of the Frame Store through each of its operations: a new record, a bit, elapsed time, sealing, and
INIT's zeroing. -/

namespace Sys2Proof.Machine

/-! Views that depend only on bytes below an address. -/

section Low

variable {s t : State} {L : Nat} (low : ∀ c < L, t.byteAt c = s.byteAt c)
include low

theorem halfAt_low {a : Nat} (ha : a + 1 < L) : t.halfAt a = s.halfAt a :=
  halfAt_congr (low a (by omega)) (low (a + 1) ha)

theorem frames_low (hL : 22 ≤ L) : t.frames = s.frames := by
  unfold State.frames; rw [low _ (by simp only [countAddr]; omega)]

theorem current_low (hL : 22 ≤ L) : t.current = s.current := by
  unfold State.current; rw [frames_low low hL]

theorem formatByte_low (hL : 22 ≤ L) : t.formatByte = s.formatByte := by
  unfold State.formatByte; rw [low _ (by simp only [formatAddr]; omega)]

theorem recordAt_low (hL : 22 ≤ L) {i : Nat} (hi : i < 10) : t.recordAt i = s.recordAt i := by
  unfold State.recordAt; rw [halfAt_low low (by simp only [offsetAddr]; omega)]

theorem kbAt_low (hL : 22 ≤ L) {i : Nat} (hi : i < 10) (hr : s.recordAt i + 4 ≤ L) : t.kbAt i = s.kbAt i := by
  unfold State.kbAt; rw [recordAt_low low hL hi, halfAt_low low (by omega)]

theorem elapsedAt_low (hL : 22 ≤ L) {i : Nat} (hi : i < 10) (hr : s.recordAt i + 4 ≤ L) :
    t.elapsedAt i = s.elapsedAt i := by
  unfold State.elapsedAt; rw [recordAt_low low hL hi, halfAt_low low (by omega)]

theorem payloadAt_low (hL : 22 ≤ L) {i k : Nat} (hi : i < 10) (hr : s.recordAt i + 4 + k < L) :
    t.payloadAt i k = s.payloadAt i k := by
  unfold State.payloadAt
  rw [recordAt_low low hL hi]
  exact low _ (by simp only [Config.recHdr]; omega)

end Low

theorem kindAt_of_kbAt {s t : State} {i : Nat} (hk : t.kbAt i = s.kbAt i) : t.kindAt i = s.kindAt i := by
  unfold State.kindAt; rw [hk]

theorem bitsAt_of_kbAt {s t : State} {i : Nat} (hk : t.kbAt i = s.kbAt i) : t.bitsAt i = s.bitsAt i := by
  unfold State.bitsAt; rw [hk]

namespace StoreInv

/-- A frame with a payload bit to spare keeps it inside its own record: only Data frames have bits that matter. -/
theorem payload_in_record {s : State} (h : StoreInv s) {i : Nat} (hi : i < s.frames)
    (hk : s.kindAt i ≠ FrameKind.sameAsFirst.code) :
    s.recordAt i + 4 + ceil8 (s.bitsAt i) ≤ s.recordAt i + recordSize (s.kbAt i) := by
  have h3 := h.kindCode i hi
  have hrep := h.repeaterEmpty i hi
  by_cases hd : kindOf (s.kbAt i) = FrameKind.data.code
  · rw [recordSize_data hd]
    simp only [Config.recHdr, State.bitsAt]
    omega
  · have : s.kindAt i = FrameKind.repeater.code := by
      revert hk h3 hd
      unfold State.kindAt
      generalize kindOf (s.kbAt i) = x
      revert x
      decide
    rw [hrep this]
    have := recordSize_ge (s.kbAt i)
    simp only [Config.recHdr] at this
    simp only [ceil8_zero]
    omega

/-- A change of the current record alone keeps the invariants, if the current record keeps its own. -/
theorem of_current {s t : State} (h : StoreInv s) (hf : 1 ≤ s.frames)
    (low : ∀ c < s.recordAt s.current, t.byteAt c = s.byteAt c)
    (cap : t.cap = s.cap)
    (readable : ∀ c, (s.buf.read c).isSome = true → (t.buf.read c).isSome = true)
    (fits : s.recordAt s.current + Config.recHdr + ceil8 (t.bitsAt s.current) ≤ s.cap.toNat)
    (trail : t.bitsAt s.current % 8 ≠ 0 →
      t.payloadAt s.current (t.bitsAt s.current / 8) &&& (0xFF#8 >>> (t.bitsAt s.current % 8)) = 0)
    (first : s.current = 0 → t.kindAt 0 ≠ FrameKind.sameAsFirst.code)
    (kind : t.kindAt s.current ≠ 3)
    (empty : t.kindAt s.current = FrameKind.repeater.code → t.bitsAt s.current = 0)
    (dup : t.kindAt s.current = FrameKind.sameAsFirst.code → t.bitsAt s.current = t.bitsAt 0)
    (opened : t.st = .assemble → t.kindAt s.current ≠ FrameKind.sameAsFirst.code)
    (elapsed : t.elapsedAt s.current = elapsedField t.eacc) : StoreInv t := by
  have hc := State.current_lt hf
  have h10 := h.frames_le
  have hL := h.record_ge hc
  have eqf := frames_low low hL
  have eqc := current_low low hL
  have eqr : ∀ i < 10, t.recordAt i = s.recordAt i := fun i hi => recordAt_low low hL hi
  have eqk : ∀ i < s.current, t.kbAt i = s.kbAt i := fun i hi =>
    kbAt_low low hL (by omega) (h.record_lt hi hc)
  have split : ∀ i < s.frames, i < s.current ∨ i = s.current := by
    intro i hi
    simp only [State.current] at *
    omega
  exact {
    capHolds := by rw [cap]; exact h.capHolds
    readable := fun a ha => readable a (h.readable a (by rw [cap] at ha; exact ha))
    openFrame := fun _ => by rw [eqf]; exact hf
    countBound := by rw [eqf]; exact h.countBound
    formatCode := by rw [formatByte_low low hL]; exact h.formatCode
    formatKnown := fun _ => by rw [formatByte_low low hL]; exact h.formatKnown hf
    firstRecord := fun _ => by rw [eqr 0 (by omega)]; exact h.firstRecord hf
    nextRecord := fun i hi => by
      rw [eqc] at hi
      rw [eqr _ (by omega), eqr _ (by omega), eqk i hi]
      exact h.nextRecord i hi
    recordFits := fun i hi => by
      rw [eqf] at hi
      rw [cap, eqr i (by omega)]
      rcases split i hi with hl | rfl
      · rw [bitsAt_of_kbAt (eqk i hl)]; exact h.recordFits i hi
      · exact fits
    unusedOffset := fun i hi hfi => by
      rw [eqf] at hfi
      rw [eqr i hi]
      exact h.unusedOffset i hi hfi
    trailingZero := fun i hi hret hb => by
      rw [eqf] at hi
      rcases split i hi with hl | rfl
      · have hkind : s.kindAt i ≠ FrameKind.sameAsFirst.code := by
          rcases hret with hk | hk
          · rw [kindAt_of_kbAt (eqk i hl)] at hk; exact hk
          · rw [eqc] at hk; omega
        rw [bitsAt_of_kbAt (eqk i hl)] at hb ⊢
        have hin := h.payload_in_record hi hkind
        have hbefore := h.record_before hl hc
        have hlt := div8_lt_ceil8 hb
        rw [payloadAt_low low hL (by omega) (by omega)]
        exact h.trailingZero i hi (.inl hkind) hb
      · exact trail hb
    firstKind := fun _ => by
      by_cases hz : s.current = 0
      · exact first hz
      · rw [kindAt_of_kbAt (eqk 0 (by omega))]; exact h.firstKind hf
    kindCode := fun i hi => by
      rw [eqf] at hi
      rcases split i hi with hl | rfl
      · rw [kindAt_of_kbAt (eqk i hl)]; exact h.kindCode i hi
      · exact kind
    repeaterEmpty := fun i hi hk => by
      rw [eqf] at hi
      rcases split i hi with hl | rfl
      · rw [kindAt_of_kbAt (eqk i hl)] at hk
        rw [bitsAt_of_kbAt (eqk i hl)]
        exact h.repeaterEmpty i hi hk
      · exact empty hk
    duplicateCount := fun i hi hk => by
      rw [eqf] at hi
      rcases split i hi with hl | rfl
      · rw [kindAt_of_kbAt (eqk i hl)] at hk
        rw [bitsAt_of_kbAt (eqk i hl), bitsAt_of_kbAt (eqk 0 (by omega))]
        exact h.duplicateCount i hi hk
      · exact dup hk
    openKind := fun ho => by rw [eqc]; exact opened ho
    elapsedShown := fun _ => by rw [eqc]; exact elapsed }

/-! A change of registers only. -/

/-- The invariants of the Frame Store read BUF, CAP and EACC, and STATE only as far as it says ASSEMBLE. -/
theorem of_registers {s t : State} (h : StoreInv s) (buf : t.buf = s.buf) (cap : t.cap = s.cap)
    (eacc : t.eacc = s.eacc) (opened : t.st = .assemble → s.st = .assemble) : StoreInv t := by
  have byte : ∀ a, t.byteAt a = s.byteAt a := fun a => by unfold State.byteAt; rw [buf]
  have half : ∀ a, t.halfAt a = s.halfAt a := fun a => halfAt_congr (byte a) (byte (a + 1))
  have frames : t.frames = s.frames := by unfold State.frames; rw [byte]
  have current : t.current = s.current := by unfold State.current; rw [frames]
  have fmt : t.formatByte = s.formatByte := by unfold State.formatByte; rw [byte]
  have record : ∀ i, t.recordAt i = s.recordAt i := fun i => by unfold State.recordAt; rw [half]
  have kb : ∀ i, t.kbAt i = s.kbAt i := fun i => by unfold State.kbAt; rw [record, half]
  have kind : ∀ i, t.kindAt i = s.kindAt i := fun i => kindAt_of_kbAt (kb i)
  have bits : ∀ i, t.bitsAt i = s.bitsAt i := fun i => bitsAt_of_kbAt (kb i)
  have elapsed : ∀ i, t.elapsedAt i = s.elapsedAt i := fun i => by unfold State.elapsedAt; rw [record, half]
  have payload : ∀ i k, t.payloadAt i k = s.payloadAt i k := fun i k => by
    unfold State.payloadAt; rw [record, byte]
  exact {
    capHolds := by rw [cap]; exact h.capHolds
    readable := by rw [cap, buf]; exact h.readable
    openFrame := fun ho => by rw [frames]; exact h.openFrame (opened ho)
    countBound := by rw [frames]; exact h.countBound
    formatCode := by rw [fmt]; exact h.formatCode
    formatKnown := by rw [frames, fmt]; exact h.formatKnown
    firstRecord := by rw [frames, record]; exact h.firstRecord
    nextRecord := by simp only [current, record, kb]; exact h.nextRecord
    recordFits := by simp only [frames, record, bits, cap]; exact h.recordFits
    unusedOffset := by simp only [frames, record]; exact h.unusedOffset
    trailingZero := by
      simp only [State.retained, frames, current, kind, bits, payload]; exact h.trailingZero
    firstKind := by simp only [frames, kind]; exact h.firstKind
    kindCode := by simp only [frames, kind]; exact h.kindCode
    repeaterEmpty := by simp only [frames, kind, bits]; exact h.repeaterEmpty
    duplicateCount := by simp only [frames, kind, bits]; exact h.duplicateCount
    openKind := fun ho => by simp only [current, kind]; exact h.openKind (opened ho)
    elapsedShown := by simp only [frames, current, elapsed, eacc]; exact h.elapsedShown }

end StoreInv

/-! A bit. -/

theorem bitAt_mask (b : Bool) (j : Nat) (hj : j < 7) : bitAt b j &&& (0xFF#8 >>> (j + 1)) = 0 := by
  interval_cases j <;> cases b <;> rfl

theorem mask_succ (j : Nat) (hj : j < 7) : (0xFF#8 >>> j) &&& (0xFF#8 >>> (j + 1)) = 0xFF#8 >>> (j + 1) := by
  interval_cases j <;> rfl

/-- Setting the first unused bit of a byte leaves the later ones 0 (R163). -/
theorem trailing_after_bit {old : Byte} {b : Bool} {j : Nat} (hj : j < 7) (hold : old &&& (0xFF#8 >>> j) = 0) :
    (old ||| bitAt b j) &&& (0xFF#8 >>> (j + 1)) = 0 := by
  have h1 : old &&& (0xFF#8 >>> (j + 1)) = 0 := by
    rw [← mask_succ j hj, ← BitVec.and_assoc, hold]; exact BitVec.zero_and
  have h2 : (old ||| bitAt b j) &&& (0xFF#8 >>> (j + 1)) =
      (old &&& (0xFF#8 >>> (j + 1))) ||| (bitAt b j &&& (0xFF#8 >>> (j + 1))) := by
    rw [BitVec.and_comm, BitVec.and_or_distrib_left, BitVec.and_comm, BitVec.and_comm (0xFF#8 >>> (j + 1)) (bitAt b j)]
  rw [h2, h1, bitAt_mask b j hj]; rfl

theorem bitAddr_ge (s : State) : s.recordAt s.current + 4 ≤ s.bitAddr := by
  simp only [State.bitAddr, Config.recHdr]; omega

/-- A bit changes the current record's KB halfword and one payload byte (R163, R168). -/
theorem byteAt_bitWritten (s : State) (b : Bool) (c : Nat) (h0 : c ≠ s.recordAt s.current)
    (h1 : c ≠ s.recordAt s.current + 1) (h2 : c ≠ s.bitAddr) : (s.bitWritten b).byteAt c = s.byteAt c := by
  unfold State.bitWritten
  rw [byteAt_setHalf, if_neg h0, if_neg h1, byteAt_setByte, if_neg h2]

namespace StoreInv

variable {s : State} (h : StoreInv s) (hf : 1 ≤ s.frames)
include h hf

theorem record_bitWritten (b : Bool) : (s.bitWritten b).recordAt s.current = s.recordAt s.current := by
  have hr := h.record_ge (State.current_lt hf)
  have ha := bitAddr_ge s
  have h10 := h.frames_le
  refine recordAt_low (L := 22) (fun c hc => ?_) (Nat.le_refl _) (by simp only [State.current]; omega)
  exact byteAt_bitWritten s b c (by omega) (by omega) (by omega)

theorem kbAt_bitWritten (b : Bool) :
    (s.bitWritten b).kbAt s.current = makeKb (s.kindAt s.current) (s.bitsAt s.current + 1) := by
  unfold State.kbAt
  rw [h.record_bitWritten hf]
  exact halfAt_setHalf_same _ _ _

theorem kindAt_bitWritten (b : Bool) : (s.bitWritten b).kindAt s.current = s.kindAt s.current := by
  unfold State.kindAt
  rw [h.kbAt_bitWritten hf, kindOf_makeKb]
  rfl

theorem bitsAt_bitWritten (b : Bool) (hn : s.bitsAt s.current ≠ Config.maxBitCount) :
    (s.bitWritten b).bitsAt s.current = s.bitsAt s.current + 1 := by
  have := bitCountOf_le (s.kbAt s.current)
  unfold State.bitsAt at hn ⊢
  rw [h.kbAt_bitWritten hf, bitCountOf_makeKb]
  · rfl
  · simp only [State.bitsAt]; omega

theorem payloadAt_bitWritten (b : Bool) (k : Nat) :
    (s.bitWritten b).payloadAt s.current k =
      if k = s.bitsAt s.current / 8 then s.bitByte b else s.payloadAt s.current k := by
  unfold State.payloadAt
  rw [h.record_bitWritten hf]
  unfold State.bitWritten
  simp only [Config.recHdr]
  rw [byteAt_setHalf, if_neg (by omega), if_neg (by omega), byteAt_setByte]
  by_cases hk : k = s.bitsAt s.current / 8
  · rw [if_pos hk, if_pos (by simp only [State.bitAddr, Config.recHdr]; omega)]
  · rw [if_neg hk, if_neg (by simp only [State.bitAddr, Config.recHdr]; omega)]

theorem elapsedAt_bitWritten (b : Bool) : (s.bitWritten b).elapsedAt s.current = s.elapsedAt s.current := by
  have ha := bitAddr_ge s
  unfold State.elapsedAt
  rw [h.record_bitWritten hf]
  exact halfAt_congr (byteAt_bitWritten s b _ (by omega) (by omega) (by omega))
    (byteAt_bitWritten s b _ (by omega) (by omega) (by omega))

/-- A bit keeps the invariants (R163), where writeBit does not raise and the frame takes bits (R150). -/
theorem keep_bitWritten (b : Bool) (hn : s.bitsAt s.current ≠ Config.maxBitCount)
    (hcap : s.bitsAt s.current % 8 = 0 → s.bitAddr < s.cap.toNat)
    (hkind : s.kindAt s.current ≠ FrameKind.repeater.code)
    (hsame : s.kindAt s.current ≠ FrameKind.sameAsFirst.code) : StoreInv (s.bitWritten b) := by
  have hc := State.current_lt hf
  have hfit := h.recordFits s.current hc
  have ha := bitAddr_ge s
  have hbits := h.bitsAt_bitWritten hf b hn
  have hk := h.kindAt_bitWritten hf b
  refine h.of_current hf (fun c hcc => byteAt_bitWritten s b c (by omega) (by omega) (by omega)) rfl
    (fun c hr => isSome_read_setHalf (isSome_read_setByte hr)) ?_ ?_ ?_ ?_ ?_ ?_ ?_ ?_
  · rw [hbits, ceil8_succ]
    split
    · next hz =>
      have := hcap hz
      have := ceil8_eq_div8 hz
      simp only [State.bitAddr] at *
      omega
    · exact hfit
  · rw [hbits]
    intro hne
    have hlt : s.bitsAt s.current % 8 < 7 := by omega
    have hdiv : (s.bitsAt s.current + 1) / 8 = s.bitsAt s.current / 8 := by omega
    have hmod : (s.bitsAt s.current + 1) % 8 = s.bitsAt s.current % 8 + 1 := by omega
    rw [hdiv, hmod, h.payloadAt_bitWritten hf, if_pos rfl]
    unfold State.bitByte
    refine trailing_after_bit hlt ?_
    by_cases hz : s.bitsAt s.current % 8 = 0
    · rw [if_pos hz]; exact BitVec.zero_and
    · rw [if_neg hz]
      exact h.trailingZero s.current hc (.inl hsame) hz
  · intro hz; rw [← hz, hk]; exact hsame
  · rw [hk]; exact h.kindCode _ hc
  · rw [hk]; exact fun hr => absurd hr hkind
  · rw [hk]; exact fun hr => absurd hr hsame
  · rw [hk]; exact fun _ => hsame
  · rw [h.elapsedAt_bitWritten hf]; exact h.elapsedShown hf

end StoreInv

/-! Elapsed time. -/

/-- Elapsed time changes the current record's ELAPSED halfword only (R167, R168). -/
theorem byteAt_elapsedAdded (s : State) (d : BitVec 15) (c : Nat) (h0 : c ≠ s.recordAt s.current + 2)
    (h1 : c ≠ s.recordAt s.current + 3) : (s.elapsedAdded d).byteAt c = s.byteAt c := by
  unfold State.elapsedAdded
  rw [byteAt_setHalf, if_neg h0, if_neg h1]
  rfl

namespace StoreInv

variable {s : State} (h : StoreInv s) (hf : 1 ≤ s.frames)
include h hf

theorem record_elapsedAdded (d : BitVec 15) : (s.elapsedAdded d).recordAt s.current = s.recordAt s.current := by
  have hr := h.record_ge (State.current_lt hf)
  have h10 := h.frames_le
  refine recordAt_low (L := 22) (fun c hc => ?_) (Nat.le_refl _) (by simp only [State.current]; omega)
  exact byteAt_elapsedAdded s d c (by omega) (by omega)

theorem kbAt_elapsedAdded (d : BitVec 15) : (s.elapsedAdded d).kbAt s.current = s.kbAt s.current := by
  unfold State.kbAt
  rw [h.record_elapsedAdded hf]
  exact halfAt_congr (byteAt_elapsedAdded s d _ (by omega) (by omega))
    (byteAt_elapsedAdded s d _ (by omega) (by omega))

theorem payloadAt_elapsedAdded (d : BitVec 15) (k : Nat) :
    (s.elapsedAdded d).payloadAt s.current k = s.payloadAt s.current k := by
  unfold State.payloadAt
  rw [h.record_elapsedAdded hf]
  exact byteAt_elapsedAdded s d _ (by simp only [Config.recHdr]; omega) (by simp only [Config.recHdr]; omega)

theorem elapsedAt_elapsedAdded (d : BitVec 15) :
    (s.elapsedAdded d).elapsedAt s.current = elapsedField (sat20 (s.eacc.toNat + d.toNat)) := by
  unfold State.elapsedAt
  rw [h.record_elapsedAdded hf]
  exact halfAt_setHalf_same _ _ _

theorem current_elapsedAdded (d : BitVec 15) : (s.elapsedAdded d).current = s.current := by
  have hr := h.record_ge (State.current_lt hf)
  exact current_low (L := 22) (fun c hc => byteAt_elapsedAdded s d c (by omega) (by omega)) (Nat.le_refl _)

/-- Elapsed time keeps the invariants (R167). -/
theorem keep_elapsedAdded (d : BitVec 15) : StoreInv (s.elapsedAdded d) := by
  have hc := State.current_lt hf
  have hk := h.kbAt_elapsedAdded hf d
  have hbits := bitsAt_of_kbAt hk
  have hkind := kindAt_of_kbAt hk
  refine h.of_current hf (fun c hcc => byteAt_elapsedAdded s d c (by omega) (by omega)) rfl
    (fun c hr => isSome_read_setHalf (s := s.setEacc _) hr) ?_ ?_ ?_ ?_ ?_ ?_ ?_ ?_
  · rw [hbits]; exact h.recordFits _ hc
  · rw [hbits]
    intro hb
    rw [h.payloadAt_elapsedAdded hf]
    exact h.trailingZero _ hc (.inr rfl) hb
  · intro hz; rw [hz] at hkind; rw [hkind]; exact h.firstKind hf
  · rw [hkind]; exact h.kindCode _ hc
  · rw [hkind, hbits]; exact h.repeaterEmpty _ hc
  · rw [hkind, hbits]
    intro hs
    have hne : s.current ≠ 0 := fun hz => by rw [hz] at hs; exact h.firstKind hf hs
    have h0 : (s.elapsedAdded d).kbAt 0 = s.kbAt 0 :=
      kbAt_low (L := s.recordAt s.current) (fun c hcc => byteAt_elapsedAdded s d c (by omega) (by omega))
        (h.record_ge hc) (by omega) (h.record_lt (Nat.pos_of_ne_zero hne) hc)
    rw [bitsAt_of_kbAt h0]
    exact h.duplicateCount _ hc hs
  · rw [hkind]; exact h.openKind
  · rw [h.elapsedAt_elapsedAdded hf]; rfl

end StoreInv

/-! Sealing. -/

/-- Marking a frame SameAsFirst changes its KB halfword only (R180). -/
theorem byteAt_markedSame (s : State) (i c : Nat) (h0 : c ≠ s.recordAt i) (h1 : c ≠ s.recordAt i + 1) :
    (s.markedSame i).byteAt c = s.byteAt c := by
  unfold State.markedSame
  rw [byteAt_setHalf, if_neg h0, if_neg h1]

namespace StoreInv

variable {s : State} (h : StoreInv s) (hf : 1 ≤ s.frames)
include h hf

theorem record_markedSame : (s.markedSame s.current).recordAt s.current = s.recordAt s.current := by
  have hr := h.record_ge (State.current_lt hf)
  have h10 := h.frames_le
  refine recordAt_low (L := 22) (fun c hc => ?_) (Nat.le_refl _) (by simp only [State.current]; omega)
  exact byteAt_markedSame s _ c (by omega) (by omega)

theorem kbAt_markedSame :
    (s.markedSame s.current).kbAt s.current = makeKb FrameKind.sameAsFirst.code (s.bitsAt s.current) := by
  unfold State.kbAt
  rw [h.record_markedSame hf]
  exact halfAt_setHalf_same _ _ _

/-- Sealing a duplicate keeps the invariants (R180). -/
theorem keep_markedSame (hne : s.current ≠ 0) (hdup : s.duplicatesFirst s.current) :
    StoreInv ((s.markedSame s.current).enter .await) := by
  have hc := State.current_lt hf
  have hkb := h.kbAt_markedSame hf
  have hkind : ((s.markedSame s.current).enter .await).kindAt s.current = FrameKind.sameAsFirst.code := by
    show kindOf ((s.markedSame s.current).kbAt s.current) = _
    rw [hkb, kindOf_makeKb]
  have hbits : ((s.markedSame s.current).enter .await).bitsAt s.current = s.bitsAt s.current := by
    show bitCountOf ((s.markedSame s.current).kbAt s.current) = _
    rw [hkb]; exact bitCountOf_makeKb _ (bitCountOf_le _)
  have hbyte : ∀ c, ((s.markedSame s.current).enter .await).byteAt c = (s.markedSame s.current).byteAt c :=
    fun _ => rfl
  refine h.of_current hf (fun c hcc => byteAt_markedSame s _ c (by omega) (by omega)) rfl
    (fun c hr => isSome_read_setHalf hr) ?_ ?_ ?_ ?_ ?_ ?_ ?_ ?_
  · rw [hbits]; exact h.recordFits _ hc
  · rw [hbits]
    intro hb
    show (s.markedSame s.current).payloadAt s.current _ &&& _ = 0
    have : (s.markedSame s.current).payloadAt s.current (s.bitsAt s.current / 8) =
        s.payloadAt s.current (s.bitsAt s.current / 8) := by
      unfold State.payloadAt
      rw [h.record_markedSame hf]
      exact byteAt_markedSame s _ _ (by simp only [Config.recHdr]; omega) (by simp only [Config.recHdr]; omega)
    rw [this]
    exact h.trailingZero _ hc (.inr rfl) hb
  · exact fun hz => absurd hz hne
  · rw [hkind]; decide
  · rw [hkind]; exact fun hr => absurd hr (by decide)
  · intro _
    rw [hbits]
    have h0 : ((s.markedSame s.current).enter .await).kbAt 0 = s.kbAt 0 :=
      kbAt_low (L := s.recordAt s.current) (fun c hcc => byteAt_markedSame s _ c (by omega) (by omega))
        (h.record_ge hc) (by omega) (h.record_lt (Nat.pos_of_ne_zero hne) hc)
    rw [bitsAt_of_kbAt h0]
    exact hdup.2.1
  · intro ho; cases ho
  · show (s.markedSame s.current).elapsedAt s.current = elapsedField s.eacc
    rw [← h.elapsedShown hf]
    unfold State.elapsedAt
    rw [h.record_markedSame hf]
    exact halfAt_congr (byteAt_markedSame s _ _ (by omega) (by omega)) (byteAt_markedSame s _ _ (by omega) (by omega))

end StoreInv

/-! A new record. -/

/-- The state after leaderPair has fixed the format, if none was fixed (R128). -/
def State.formatFixed (s : State) (f : Format) : State :=
  if s.formatByte = 0 then s.setByte formatAddr f.code else s

/-- The state leaderPair leaves, less its response (R128). -/
def State.frameOpened (s : State) (f : Format) (k : FrameKind) (e : BitVec 20) : State :=
  (((s.appended k e).formatFixed f).setEacc e).enter .assemble

theorem formatFixed_cap (s : State) (f : Format) : (s.formatFixed f).cap = s.cap := by
  unfold State.formatFixed; split <;> simp

theorem appended_cap (s : State) (k : FrameKind) (e : BitVec 20) : (s.appended k e).cap = s.cap := by
  simp [State.appended]

theorem frameOpened_cap (s : State) (f : Format) (k : FrameKind) (e : BitVec 20) :
    (s.frameOpened f k e).cap = s.cap := by
  simp [State.frameOpened, formatFixed_cap, appended_cap]

theorem isSome_read_frameOpened {s : State} {f : Format} {k : FrameKind} {e : BitVec 20} {c : Nat}
    (h : (s.buf.read c).isSome = true) : ((s.frameOpened f k e).buf.read c).isSome = true := by
  have happ : ((s.appended k e).buf.read c).isSome = true :=
    isSome_read_setByte (isSome_read_setHalf (isSome_read_setHalf (isSome_read_setHalf h)))
  have hfix : (((s.appended k e).formatFixed f).buf.read c).isSome = true := by
    unfold State.formatFixed
    split
    · exact isSome_read_setByte happ
    · exact happ
  simpa [State.frameOpened] using hfix

theorem byteAt_appended_other (s : State) (k : FrameKind) (e : BitVec 20) {c : Nat} (h1 : c ≠ countAddr)
    (h2 : c ≠ offsetAddr s.frames) (h3 : c ≠ offsetAddr s.frames + 1)
    (h4 : c < s.nextOffset ∨ s.nextOffset + 4 ≤ c) : (s.appended k e).byteAt c = s.byteAt c := by
  unfold State.appended
  rw [byteAt_setByte, if_neg h1, byteAt_setHalf, if_neg (by omega), if_neg (by omega), byteAt_setHalf,
    if_neg (by omega), if_neg (by omega), byteAt_setHalf, if_neg h2, if_neg h3]

theorem byteAt_formatFixed_other (s : State) (f : Format) {c : Nat} (h0 : c ≠ formatAddr) :
    (s.formatFixed f).byteAt c = s.byteAt c := by
  unfold State.formatFixed
  split
  · rw [byteAt_setByte, if_neg h0]
  · rfl

theorem halfAt_formatFixed_other (s : State) (f : Format) {c : Nat} (h0 : formatAddr < c) :
    (s.formatFixed f).halfAt c = s.halfAt c :=
  halfAt_congr (byteAt_formatFixed_other s f (by omega)) (byteAt_formatFixed_other s f (by omega))

theorem byteAt_frameOpened (s : State) (f : Format) (k : FrameKind) (e : BitVec 20) (c : Nat) :
    (s.frameOpened f k e).byteAt c = ((s.appended k e).formatFixed f).byteAt c := rfl

theorem halfAt_frameOpened (s : State) (f : Format) (k : FrameKind) (e : BitVec 20) {c : Nat} (h0 : formatAddr < c) :
    (s.frameOpened f k e).halfAt c = (s.appended k e).halfAt c :=
  halfAt_congr (by rw [byteAt_frameOpened, byteAt_formatFixed_other _ f (by omega)])
    (by rw [byteAt_frameOpened, byteAt_formatFixed_other _ f (by omega)])

namespace StoreInv

variable {s : State} (h : StoreInv s)
include h

theorem formatByte_appended (k : FrameKind) (e : BitVec 20) : (s.appended k e).formatByte = s.formatByte := by
  have hoff := h.nextOffset_ge
  unfold State.formatByte
  exact byteAt_appended_other s k e (by decide) (by simp only [offsetAddr, formatAddr]; omega)
    (by simp only [offsetAddr, formatAddr]; omega) (.inl (by simp only [formatAddr]; omega))

omit h in
/-- A new record changes FORMAT, FRAME_COUNT, its OFFSET entry and its four header bytes only (R128, R161). -/
theorem byteAt_frameOpened_other (f : Format) (k : FrameKind) (e : BitVec 20) {c : Nat}
    (h0 : c ≠ formatAddr) (h1 : c ≠ countAddr) (h2 : c ≠ offsetAddr s.frames) (h3 : c ≠ offsetAddr s.frames + 1)
    (h4 : c < s.nextOffset ∨ s.nextOffset + 4 ≤ c) : (s.frameOpened f k e).byteAt c = s.byteAt c := by
  rw [byteAt_frameOpened, byteAt_formatFixed_other _ f h0, byteAt_appended_other s k e h1 h2 h3 h4]

omit h in
theorem frames_frameOpened (f : Format) (k : FrameKind) (e : BitVec 20) (hn : s.frames < 10) :
    (s.frameOpened f k e).frames = s.frames + 1 := by
  have hbyte : (s.frameOpened f k e).byteAt countAddr = BitVec.ofNat 8 (s.frames + 1) := by
    rw [byteAt_frameOpened, byteAt_formatFixed_other _ f (by decide)]
    unfold State.appended
    rw [byteAt_setByte, if_pos rfl]
  have : (s.frameOpened f k e).frames = ((s.frameOpened f k e).byteAt countAddr).toNat := rfl
  rw [this, hbyte, BitVec.toNat_ofNat]
  exact Nat.mod_eq_of_lt (by omega)

theorem formatByte_frameOpened (f : Format) (k : FrameKind) (e : BitVec 20) :
    (s.frameOpened f k e).formatByte = if s.formatByte = 0 then f.code else s.formatByte := by
  have hfmt := h.formatByte_appended k e
  have : (s.frameOpened f k e).formatByte = ((s.appended k e).formatFixed f).byteAt formatAddr := rfl
  rw [this]
  unfold State.formatFixed
  rw [hfmt]
  split
  · rw [byteAt_setByte, if_pos rfl]
  · exact hfmt

theorem recordAt_frameOpened_other (f : Format) (k : FrameKind) (e : BitVec 20) {i : Nat}
    (hi : i < 10) (hne : i ≠ s.frames) : (s.frameOpened f k e).recordAt i = s.recordAt i := by
  have hoff := h.nextOffset_ge
  unfold State.recordAt
  rw [halfAt_congr]
  · exact byteAt_frameOpened_other f k e (by simp only [offsetAddr, formatAddr]; omega)
      (by simp only [offsetAddr, countAddr]; omega) (by simp only [offsetAddr]; omega)
      (by simp only [offsetAddr]; omega) (by simp only [offsetAddr]; omega)
  · exact byteAt_frameOpened_other f k e (by simp only [offsetAddr, formatAddr]; omega)
      (by simp only [offsetAddr, countAddr]; omega) (by simp only [offsetAddr]; omega)
      (by simp only [offsetAddr]; omega) (by simp only [offsetAddr]; omega)

theorem recordAt_frameOpened (f : Format) (k : FrameKind) (e : BitVec 20) (hn : s.frames < 10)
    (hcap : s.nextOffset + 4 ≤ s.cap.toNat) : (s.frameOpened f k e).recordAt s.frames = s.nextOffset := by
  have hoff := h.nextOffset_ge
  have hlt := s.cap_lt
  simp only [Config.bufBytes] at hlt
  have hhalf : (s.frameOpened f k e).halfAt (offsetAddr s.frames) = BitVec.ofNat 16 s.nextOffset := by
    rw [halfAt_frameOpened s f k e (by simp only [offsetAddr, formatAddr]; omega)]
    unfold State.appended
    rw [halfAt_setByte_other (by simp only [offsetAddr, countAddr]; omega),
      halfAt_setHalf_other (by simp only [offsetAddr]; omega), halfAt_setHalf_other (by simp only [offsetAddr]; omega),
      halfAt_setHalf_same]
  have : (s.frameOpened f k e).recordAt s.frames = ((s.frameOpened f k e).halfAt (offsetAddr s.frames)).toNat := rfl
  rw [this, hhalf, BitVec.toNat_ofNat]
  exact Nat.mod_eq_of_lt (by omega)

theorem kbAt_frameOpened_other (f : Format) (k : FrameKind) (e : BitVec 20) (hn : s.frames < 10) {i : Nat}
    (hi : i < s.frames) : (s.frameOpened f k e).kbAt i = s.kbAt i := by
  have hlo := h.record_ge hi
  have hhi := h.record_before_next hi
  have hsz := recordSize_ge (s.kbAt i)
  simp only [Config.recHdr] at hsz
  unfold State.kbAt
  rw [h.recordAt_frameOpened_other f k e (by omega) (by omega)]
  refine halfAt_congr ?_ ?_ <;>
  exact byteAt_frameOpened_other f k e (by simp only [formatAddr]; omega) (by simp only [countAddr]; omega)
    (by simp only [offsetAddr]; omega) (by simp only [offsetAddr]; omega) (.inl (by omega))

theorem kbAt_frameOpened (f : Format) (k : FrameKind) (e : BitVec 20) (hn : s.frames < 10)
    (hcap : s.nextOffset + 4 ≤ s.cap.toNat) : (s.frameOpened f k e).kbAt s.frames = makeKb k.code 0 := by
  have hoff := h.nextOffset_ge
  unfold State.kbAt
  rw [h.recordAt_frameOpened f k e hn hcap, halfAt_frameOpened s f k e (by simp only [formatAddr]; omega)]
  unfold State.appended
  rw [halfAt_setByte_other (by simp only [countAddr]; omega), halfAt_setHalf_other (by omega), halfAt_setHalf_same]

theorem elapsedAt_frameOpened (f : Format) (k : FrameKind) (e : BitVec 20) (hn : s.frames < 10)
    (hcap : s.nextOffset + 4 ≤ s.cap.toNat) : (s.frameOpened f k e).elapsedAt s.frames = elapsedField e := by
  have hoff := h.nextOffset_ge
  unfold State.elapsedAt
  rw [h.recordAt_frameOpened f k e hn hcap, halfAt_frameOpened s f k e (by simp only [formatAddr]; omega)]
  unfold State.appended
  rw [halfAt_setByte_other (by simp only [countAddr]; omega), halfAt_setHalf_same]

theorem payloadAt_frameOpened_other (f : Format) (k : FrameKind) (e : BitVec 20) (hn : s.frames < 10) {i j : Nat}
    (hi : i < s.frames) (hk : s.kindAt i ≠ FrameKind.sameAsFirst.code) (hj : j < ceil8 (s.bitsAt i)) :
    (s.frameOpened f k e).payloadAt i j = s.payloadAt i j := by
  have hlo := h.record_ge hi
  have hhi := h.record_before_next hi
  have hin := h.payload_in_record hi hk
  unfold State.payloadAt
  rw [h.recordAt_frameOpened_other f k e (by omega) (by omega)]
  simp only [Config.recHdr]
  exact byteAt_frameOpened_other f k e (by simp only [formatAddr]; omega) (by simp only [countAddr]; omega)
    (by simp only [offsetAddr]; omega) (by simp only [offsetAddr]; omega) (.inl (by omega))

/-- A new record keeps the invariants (R128, R161). -/
theorem keep_frameOpened (f : Format) (k : FrameKind) (e : BitVec 20) (hn : s.frames < 10)
    (hcap : s.nextOffset + 4 ≤ s.cap.toNat) (hk : k ≠ .sameAsFirst) : StoreInv (s.frameOpened f k e) := by
  have eqf := frames_frameOpened f k e hn
  have eqc : (s.frameOpened f k e).current = s.frames := by unfold State.current; rw [eqf]; omega
  have eqfmt := h.formatByte_frameOpened f k e
  have eqkb := h.kbAt_frameOpened f k e hn hcap
  have eqcap := frameOpened_cap s f k e
  have newKind : (s.frameOpened f k e).kindAt s.frames = k.code := by
    unfold State.kindAt; rw [eqkb, kindOf_makeKb]
  have newBits : (s.frameOpened f k e).bitsAt s.frames = 0 := by
    unfold State.bitsAt; rw [eqkb, bitCountOf_makeKb _ (by simp)]
  have newKind1 : k.code ≠ FrameKind.sameAsFirst.code := by
    cases k
    · decide
    · exact absurd rfl hk
    · decide
  have newKind3 : k.code ≠ 3 := by cases k <;> decide
  have oldKb : ∀ i < s.frames, (s.frameOpened f k e).kbAt i = s.kbAt i := fun i hi =>
    h.kbAt_frameOpened_other f k e hn hi
  have oldRecord : ∀ i < 10, i ≠ s.frames → (s.frameOpened f k e).recordAt i = s.recordAt i := fun i hi hne =>
    h.recordAt_frameOpened_other f k e hi hne
  have newRecord := h.recordAt_frameOpened f k e hn hcap
  have split : ∀ i < s.frames + 1, i < s.frames ∨ i = s.frames := fun i hi => by omega
  exact {
    capHolds := by rw [eqcap]; exact h.capHolds
    readable := fun a ha => isSome_read_frameOpened (h.readable a (by rw [eqcap] at ha; exact ha))
    openFrame := fun _ => by rw [eqf]; omega
    countBound := by rw [eqf]; simp only [Config.maxFrames]; omega
    formatCode := by
      rw [eqfmt]
      split
      · cases f <;> decide
      · exact h.formatCode
    formatKnown := fun _ => by
      rw [eqfmt]
      split
      · cases f <;> decide
      · assumption
    firstRecord := fun _ => by
      by_cases hz : s.frames = 0
      · rw [hz] at newRecord
        rw [newRecord]
        unfold State.nextOffset
        rw [if_pos hz]
      · rw [oldRecord 0 (by omega) (by omega)]
        exact h.firstRecord (by omega)
    nextRecord := fun i hi => by
      rw [eqc] at hi
      rw [oldKb i hi, oldRecord i (by omega) (by omega)]
      by_cases hl : i + 1 = s.frames
      · rw [hl, newRecord]
        unfold State.nextOffset
        have : s.current = i := by unfold State.current; omega
        rw [if_neg (by omega), this]
      · rw [oldRecord (i + 1) (by omega) hl]
        exact h.nextRecord i (by unfold State.current; omega)
    recordFits := fun i hi => by
      rw [eqf] at hi
      rw [eqcap]
      rcases split i hi with hl | rfl
      · rw [oldRecord i (by omega) (by omega), bitsAt_of_kbAt (oldKb i hl)]
        exact h.recordFits i hl
      · rw [newRecord, newBits]
        simp only [Config.recHdr, ceil8_zero]
        omega
    unusedOffset := fun i hi hfi => by
      rw [eqf] at hfi
      rw [oldRecord i hi (by omega)]
      exact h.unusedOffset i hi (by omega)
    trailingZero := fun i hi hret hb => by
      rw [eqf] at hi
      rcases split i hi with hl | rfl
      · have hkind : s.kindAt i ≠ FrameKind.sameAsFirst.code := by
          rcases hret with hk' | hk'
          · rw [kindAt_of_kbAt (oldKb i hl)] at hk'; exact hk'
          · rw [eqc] at hk'; omega
        rw [bitsAt_of_kbAt (oldKb i hl)] at hb ⊢
        rw [h.payloadAt_frameOpened_other f k e hn hl hkind (div8_lt_ceil8 hb)]
        exact h.trailingZero i hl (.inl hkind) hb
      · rw [newBits] at hb
        exact absurd rfl hb
    firstKind := fun _ => by
      by_cases hz : s.frames = 0
      · rw [hz] at newKind
        rw [newKind]
        exact newKind1
      · rw [kindAt_of_kbAt (oldKb 0 (by omega))]
        exact h.firstKind (by omega)
    kindCode := fun i hi => by
      rw [eqf] at hi
      rcases split i hi with hl | rfl
      · rw [kindAt_of_kbAt (oldKb i hl)]; exact h.kindCode i hl
      · rw [newKind]; exact newKind3
    repeaterEmpty := fun i hi hr => by
      rw [eqf] at hi
      rcases split i hi with hl | rfl
      · rw [kindAt_of_kbAt (oldKb i hl)] at hr
        rw [bitsAt_of_kbAt (oldKb i hl)]
        exact h.repeaterEmpty i hl hr
      · exact newBits
    duplicateCount := fun i hi hr => by
      rw [eqf] at hi
      rcases split i hi with hl | rfl
      · rw [kindAt_of_kbAt (oldKb i hl)] at hr
        rw [bitsAt_of_kbAt (oldKb i hl), bitsAt_of_kbAt (oldKb 0 (by omega))]
        exact h.duplicateCount i hl hr
      · rw [newKind] at hr
        exact absurd hr newKind1
    openKind := fun _ => by rw [eqc, newKind]; exact newKind1
    elapsedShown := fun _ => by
      rw [eqc, h.elapsedAt_frameOpened f k e hn hcap]
      rfl }

end StoreInv

/-! INIT. -/

/-- A zeroed buffer with no frame has the invariants (R190). -/
theorem storeInv_startSession {s : State} {c : BitVec 16} (hc : Config.hdrSize ≤ c.toNat) :
    StoreInv (s.startSession c) := by
  have byte : ∀ a < c.toNat, (s.startSession c).byteAt a = 0 := fun a ha => by
    unfold State.byteAt
    rw [State.startSession_buf, Memory.read_zeroBelow, if_pos ha]
    rfl
  simp only [Config.hdrSize] at hc
  have frames : (s.startSession c).frames = 0 := by
    unfold State.frames
    rw [byte _ (by simp only [countAddr]; omega)]
    rfl
  have current : (s.startSession c).current = 0 := by unfold State.current; rw [frames]
  have fmt : (s.startSession c).formatByte = 0 := by
    unfold State.formatByte
    exact byte _ (by simp only [formatAddr]; omega)
  exact {
    capHolds := hc
    readable := fun a ha => by
      rw [State.startSession_buf, Memory.read_zeroBelow, if_pos (by rw [State.startSession_cap] at ha; exact ha)]
      rfl
    openFrame := fun ho => by cases ho
    countBound := by rw [frames]; exact Nat.zero_le _
    formatCode := by rw [fmt]; decide
    formatKnown := fun hf => by rw [frames] at hf; omega
    firstRecord := fun hf => by rw [frames] at hf; omega
    nextRecord := fun i hi => by rw [current] at hi; omega
    recordFits := fun i hi => by rw [frames] at hi; omega
    unusedOffset := fun i hi _ => by
      simp only [Config.maxFrames] at hi
      unfold State.recordAt State.halfAt
      rw [byte _ (by simp only [offsetAddr]; omega), byte _ (by simp only [offsetAddr]; omega)]
      rfl
    trailingZero := fun i hi => by rw [frames] at hi; omega
    firstKind := fun hf => by rw [frames] at hf; omega
    kindCode := fun i hi => by rw [frames] at hi; omega
    repeaterEmpty := fun i hi => by rw [frames] at hi; omega
    duplicateCount := fun i hi => by rw [frames] at hi; omega
    openKind := fun ho => by cases ho
    elapsedShown := fun hf => by rw [frames] at hf; omega }

end Sys2Proof.Machine
end

