-- ==== Sys2Proof/Laws/Commands.lean ====
section
/-! SUPPORT. What the parts of each command give under the Frame Store's invariants: the leader pair, the sync pulse, the
bit, the seal, and the reads. -/

namespace Sys2Proof.Machine

/-! Formats. -/

@[simp] theorem Format.ofCode_code (f : Format) : Format.ofCode f.code = some f := by cases f <;> rfl

theorem Format.code_ne_zero (f : Format) : f.code ≠ 0 := by cases f <;> decide

theorem Format.code_inj {f g : Format} (h : f.code = g.code) : f = g := by
  revert h; cases f <;> cases g <;> decide

/-- A leader pair makes a Data or a Repeater frame, never a SameAsFirst one (R126). -/
theorem leaderKind_ne_same {D : Descriptor} {m d : Nat} : leaderKind D m d ≠ some .sameAsFirst := by
  unfold leaderKind
  split
  · split
    · simp
    · split
      · simp
      · split <;> simp
  · simp

theorem matchLeader_ne_same {t : FormatTable} {m d : Nat} {f : Format} {k : FrameKind}
    (h : matchLeader t m d = some (f, k)) : k ≠ .sameAsFirst := by
  intro hk
  subst hk
  obtain ⟨g, -, hg⟩ := List.exists_of_findSome?_eq_some h
  rw [Option.map_eq_some_iff] at hg
  obtain ⟨k', hk', heq⟩ := hg
  cases heq
  exact leaderKind_ne_same hk'

namespace StoreInv

variable {s : State} (h : StoreInv s)
include h

/-- With a frame there is a session format (R34 items 3 and 4). -/
theorem exists_format (hf : 1 ≤ s.frames) : ∃ f : Format, s.formatByte = f.code := by
  have hle := h.formatCode
  have hne := h.formatKnown hf
  revert hle hne
  generalize s.formatByte = c
  intro hle hne
  have : c.toNat ≠ 0 := fun hz => hne (BitVec.eq_of_toNat_eq hz)
  have cases3 : c.toNat = 1 ∨ c.toNat = 2 ∨ c.toNat = 3 := by omega
  rcases cases3 with hc | hc | hc
  · exact ⟨.nec, BitVec.eq_of_toNat_eq hc⟩
  · exact ⟨.kadenkyo, BitVec.eq_of_toNat_eq hc⟩
  · exact ⟨.sony, BitVec.eq_of_toNat_eq hc⟩

theorem descriptor_eq {f : Format} (hf : s.formatByte = f.code) : s.descriptor = .ok (s.table.descriptor f) := by
  unfold State.descriptor
  rw [h.readFormat, ok_bind, hf, Format.ofCode_code]

/-! SAMPLE in AWAIT. -/

/-- The session's format after appendFrame is what it was, so fixing it depends on the old one (R128). -/
theorem fixFormat_appended (f : Format) (k : FrameKind) (e : BitVec 20) :
    (s.appended k e).fixFormat f = .ok ((s.appended k e).formatFixed f) := by
  have hz : formatAddr < (s.appended k e).cap.toNat := by
    rw [appended_cap]; have := h.cap_ge; simp only [formatAddr]; omega
  have hread : (s.appended k e).read8 formatAddr = .ok (s.appended k e).formatByte := by
    refine read8_of_isSome (by decide) ?_
    unfold State.appended
    refine isSome_read_setByte (isSome_read_setHalf (isSome_read_setHalf (isSome_read_setHalf ?_)))
    exact h.readable _ (by rw [appended_cap] at hz; exact hz)
  unfold State.fixFormat State.formatFixed
  rw [hread, ok_bind]
  split
  · exact write8_of_lt (by decide)
  · rfl

/-- leaderPair after its two committed writes: the checks of R128 in their order, then the frame opened. -/
theorem acceptLeader_eq (d : BitVec 15) :
    s.acceptLeader d =
      match matchLeader s.table s.lm.toNat d.toNat with
      | none => .error (.session .unrecognizedLeader)
      | some (f, k) =>
        if s.formatByte ≠ 0 ∧ s.formatByte ≠ f.code then .error (.session .formatMismatch)
        else if s.frames = Config.maxFrames ∨ s.cap.toNat < s.nextOffset + Config.recHdr then
          .error (.session .bufferOverflow)
        else .ok ((s.frameOpened f k (sat20 (s.lm.toNat + d.toNat))).continued 0) := by
  unfold State.acceptLeader
  cases matchLeader s.table s.lm.toNat d.toNat with
  | none => rfl
  | some m =>
    obtain ⟨f, k⟩ := m
    simp only
    rw [h.readFormat, ok_bind]
    split
    · rfl
    · rw [h.appendFrame_eq]
      split
      · rfl
      · rw [ok_bind, h.fixFormat_appended, ok_bind]
        rfl

/-- A pair's space changes nothing of the Frame Store (R127). -/
theorem keep_pairSpace (d : BitVec 15) : StoreInv (s.pairSpace d) := h.of_registers rfl rfl rfl id

/-! SAMPLE in ASSEMBLE. -/

variable (hf : 1 ≤ s.frames)
include hf

theorem syncStep_eq (D : Descriptor) (d : BitVec 15) :
    s.syncStep D d =
      if d.toNat < D.symbol0.lo then .error (.session .timingTooShort)
      else .ok ((s.elapsedAdded d).continued 0) := by
  unfold State.syncStep
  split
  · rfl
  · rw [h.addElapsed_eq hf, ok_bind]

/-- A sample in a symbol range: UnexpectedTiming in a Repeater frame, BufferOverflow when the bit does not fit, else the
bit and its elapsed time (R142, R150, R163). -/
theorem symbolStep_eq (hs : s.kindAt s.current ≠ FrameKind.sameAsFirst.code) (b : Bool) (d : BitVec 15) :
    s.symbolStep b d =
      if s.kindAt s.current = FrameKind.repeater.code then .error (.session .unexpectedTiming)
      else if s.bitsAt s.current = Config.maxBitCount ∨ (s.bitsAt s.current % 8 = 0 ∧ s.cap.toNat ≤ s.bitAddr) then
        .error (.session .bufferOverflow)
      else .ok (((s.bitWritten b).elapsedAdded d).continued 0) := by
  unfold State.symbolStep State.bitStep
  rw [h.currentFrame hf, ok_bind, h.readKb (State.current_lt hf), ok_bind]
  change (if s.kindAt s.current = _ then _ else _) = _
  split
  · rfl
  · next hk =>
    rw [h.writeBit_eq hf]
    split
    · rfl
    · next hn =>
      rw [not_or, not_and] at hn
      have keep := h.keep_bitWritten hf b hn.1 (fun hz => Nat.lt_of_not_le (hn.2 hz)) hk hs
      have hf' : 1 ≤ (s.bitWritten b).frames := by
        have hr := h.record_ge (State.current_lt hf)
        have ha := bitAddr_ge s
        rw [frames_low (L := 22) (fun c hc => byteAt_bitWritten s b c (by omega) (by omega) (by omega)) (Nat.le_refl _)]
        exact hf
      rw [ok_bind, keep.addElapsed_eq hf', ok_bind]

theorem isBoundary_eq (D : Descriptor) (d : BitVec 15) :
    s.isBoundary D d = .ok (decide (D.symbol0.hi < d.toNat) && decide (D.symbol1.hi < d.toNat)
      && decide (s.bitsAt s.current % 8 = 0) && inR d.toNat D.leaderMark) := by
  unfold State.isBoundary
  rw [h.currentFrame hf, ok_bind, h.readKb (State.current_lt hf), ok_bind]
  rfl

/-- seal: AWAIT with the sample latched, and the last frame SameAsFirst where it duplicates frame 0 (R146, R180). -/
theorem sealFrame_eq (d : BitVec 15) :
    (s.current ≠ 0 ∧ s.duplicatesFirst s.current ∧
        s.sealFrame d = .ok ((((s.markedSame s.current).enter .await).latch d).respond .frameBoundary 0 0)) ∨
      (¬ (s.current ≠ 0 ∧ s.duplicatesFirst s.current) ∧
        s.sealFrame d = .ok (((s.enter .await).latch d).respond .frameBoundary 0 0)) := by
  unfold State.sealFrame
  rw [h.frameCount, ok_bind]
  change (_ ∧ _ ∧ (s.finalize s.current >>= _) = _) ∨ (_ ∧ (s.finalize s.current >>= _) = _)
  rcases h.finalize_eq hf with ⟨h1, h2, h3⟩ | ⟨h1, h2⟩
  · exact .inl ⟨h1, h2, by rw [h3, ok_bind]⟩
  · exact .inr ⟨h1, by rw [h2, ok_bind]⟩

end StoreInv

/-! The read commands. -/

/-- A read in a session is the read itself (R192). -/
theorem readCommand_of_session {s : State} (hs : s.st ≠ .uninit) (read : Except Raised State) :
    s.readCommand read = s.conclude read := if_neg hs

/-- The payload address RDFRAME answers: frame 0's for a SameAsFirst frame (R194). -/
theorem StoreInv.payloadAddr_eq {s : State} (h : StoreInv s) {i : Nat} (hi : i < s.frames) :
    s.payloadAddr (s.recordAt i) = .ok
      ((if s.kindAt i = FrameKind.sameAsFirst.code then s.recordAt 0 else s.recordAt i) + Config.recHdr) := by
  unfold State.payloadAddr
  rw [h.readKb hi, ok_bind]
  change (if s.kindAt i = _ then _ else _) = _
  split
  · rw [h.offset (by omega), ok_bind]
  · rfl

end Sys2Proof.Machine
end

