-- ==== Sys2Proof/Laws/PerInstr.lean ====
section
/-! SUPPORT. Facts about every command as syntax, one lemma per constructor: its operands pass the assembler's range check,
and its word hits the row of the opcode table that carries its name. -/

namespace Sys2Proof.Laws

/-- The command passes the range check of R88. -/
def OperandsFit.Statement (i : Instr) : Prop := i.wellFormed = true

theorem OperandsFit.init (cap : BitVec 16) : OperandsFit.Statement (.init cap) :=
  decide_eq_true (Nat.le_of_lt_succ cap.isLt)

theorem OperandsFit.mark (dur : BitVec 24) : OperandsFit.Statement (.mark dur) :=
  decide_eq_true (Nat.le_of_lt_succ dur.isLt)

theorem OperandsFit.space (dur : BitVec 24) : OperandsFit.Statement (.space dur) :=
  decide_eq_true (Nat.le_of_lt_succ dur.isLt)

theorem OperandsFit.rdcount : OperandsFit.Statement .rdcount := rfl

theorem OperandsFit.rdframe (sel : FrameSel) (index : BitVec 8) : OperandsFit.Statement (.rdframe sel index) := by
  have h : decide (index.toNat ≤ 255) = true := decide_eq_true (Nat.le_of_lt_succ index.isLt)
  cases sel <;> simp [OperandsFit.Statement, Instr.wellFormed, Instr.line, AsmLine.wellFormed, FrameSel.number] <;>
    exact of_decide_eq_true h

theorem OperandsFit.rdbyte (addr : BitVec 16) : OperandsFit.Statement (.rdbyte addr) :=
  decide_eq_true (Nat.le_of_lt_succ addr.isLt)

theorem OperandsFit.rdstatus (sel : StatusSel) : OperandsFit.Statement (.rdstatus sel) := by cases sel <;> rfl

/-- Every command is well formed: its operand types are as wide as its fields (R81). -/
theorem instr_wellFormed (i : Instr) : i.wellFormed = true := by
  cases i with
  | init cap => exact OperandsFit.init cap
  | mark dur => exact OperandsFit.mark dur
  | space dur => exact OperandsFit.space dur
  | rdcount => exact OperandsFit.rdcount
  | rdframe sel index => exact OperandsFit.rdframe sel index
  | rdbyte addr => exact OperandsFit.rdbyte addr
  | rdstatus sel => exact OperandsFit.rdstatus sel

/-- The command's word hits the row of the opcode table with the command's name (R81). -/
def EncodingHitsRow.Statement (i : Instr) : Prop :=
  ∃ r ∈ opcodeRows, r.name = i.opcode ∧ r.hits (encode i) = true

/-- The bits a mask takes from a word whose low field the mask clears. -/
theorem append_and_append {m n : Nat} (a x : BitVec m) (b : BitVec n) : (a ++ b) &&& (x ++ 0#n) = (a &&& x) ++ 0#n := by
  refine BitVec.eq_of_getLsbD_eq fun i _ => ?_
  simp only [BitVec.getLsbD_and, BitVec.getLsbD_append, BitVec.getLsbD_zero]
  by_cases hi : i < n <;> simp [hi]

theorem EncodingHitsRow.init (cap : BitVec 16) : EncodingHitsRow.Statement (.init cap) := by
  refine ⟨_, List.mem_cons_self, rfl, beq_iff_eq.2 ?_⟩
  exact (append_and_append 0x1000#16 0xFFFF#16 cap)

theorem EncodingHitsRow.mark (dur : BitVec 24) : EncodingHitsRow.Statement (.mark dur) := by
  refine ⟨{ name := .mark, mask := 0xFF000000, pattern := 0x21000000 }, by decide, rfl, beq_iff_eq.2 ?_⟩
  exact (append_and_append 0x21#8 0xFF#8 dur)

theorem EncodingHitsRow.space (dur : BitVec 24) : EncodingHitsRow.Statement (.space dur) := by
  refine ⟨{ name := .space, mask := 0xFF000000, pattern := 0x20000000 }, by decide, rfl, beq_iff_eq.2 ?_⟩
  exact (append_and_append 0x20#8 0xFF#8 dur)

theorem EncodingHitsRow.rdcount : EncodingHitsRow.Statement .rdcount := by
  exact ⟨{ name := .rdcount, mask := 0xFFFFFFFF, pattern := 0x30000000 }, by decide, rfl, rfl⟩

theorem EncodingHitsRow.rdframe (sel : FrameSel) (index : BitVec 8) :
    EncodingHitsRow.Statement (.rdframe sel index) := by
  refine ⟨{ name := .rdframe, mask := 0xFFFFFC00, pattern := 0x40000000 }, by decide, rfl, beq_iff_eq.2 ?_⟩
  have h : ((0x100000#22 ++ sel.toBits ++ index) &&& (0x3FFFFF#22 ++ 0#2 ++ 0#8)) = 0x100000#22 ++ 0#2 ++ 0#8 := by
    rw [append_and_append, append_and_append]; rfl
  exact h

theorem EncodingHitsRow.rdbyte (addr : BitVec 16) : EncodingHitsRow.Statement (.rdbyte addr) := by
  refine ⟨{ name := .rdbyte, mask := 0xFFFF0000, pattern := 0x50000000 }, by decide, rfl, beq_iff_eq.2 ?_⟩
  exact (append_and_append 0x5000#16 0xFFFF#16 addr)

theorem EncodingHitsRow.rdstatus (sel : StatusSel) : EncodingHitsRow.Statement (.rdstatus sel) := by
  refine ⟨{ name := .rdstatus, mask := 0xFFFFFFFC, pattern := 0x60000000 }, by decide, rfl, ?_⟩
  cases sel <;> decide

end Sys2Proof.Laws
end

