-- ==== Sys2Proof/Tests/Slice0.lean ====
section
/-! SUPPORT. The model's own tests: ill-formed terms that WellFormed refuses, command words written out from the encodings of
30_encoding.md, one-step vectors of 95_test_vectors.md, and for every statement with hypotheses a state that meets them. -/

namespace Sys2Proof.Tests

set_option Elab.async false

open Sys2Proof.Machine

/-! ## WellFormed: each check refuses a term (R88, R89, R100, R102). -/

theorem test_init_range : (AsmLine.init 65536).wellFormed = false ∧ (AsmLine.init 65535).wellFormed = true := by decide
theorem test_mark_range : (AsmLine.mark 0x1000000).wellFormed = false ∧ (AsmLine.mark 0xFFFFFF).wellFormed = true := by
  decide
theorem test_space_range : (AsmLine.space 0x1000000).wellFormed = false ∧ (AsmLine.space 0).wellFormed = true := by decide
theorem test_rdframe_index : (AsmLine.rdframe 256 0).wellFormed = false ∧ (AsmLine.rdframe 255 3).wellFormed = true := by
  decide
theorem test_rdframe_select : (AsmLine.rdframe 0 4).wellFormed = false := by decide
theorem test_rdbyte_range : (AsmLine.rdbyte 65536).wellFormed = false := by decide
theorem test_rdstatus_select : (AsmLine.rdstatus 4).wellFormed = false := by decide
theorem test_sample_range : (AsmLine.sample .mark 0x1000000).wellFormed = false := by decide
theorem test_leader_mark : (AsmLine.leader 0x1000000 0).wellFormed = false := by decide
theorem test_leader_space : (AsmLine.leader 0 0x1000000).wellFormed = false := by decide
theorem test_no_sony_repeat : (AsmLine.formatRepeat .sony).wellFormed = false := by decide
theorem test_bit_range : (AsmLine.formatBit .nec 2).wellFormed = false := by decide
theorem test_byte_range : (AsmLine.formatByte .sony 256).wellFormed = false := by decide
theorem test_range_nominal : (Range.mk 0).wellFormed = false ∧ (Range.mk 1).wellFormed = true := by decide
theorem test_option_range : Range.wellFormedOption (some ⟨0⟩) = false ∧ Range.wellFormedOption none = true := by decide
theorem test_descriptor_mark : ({ necDefault with leaderMark := ⟨0⟩ } : Descriptor).wellFormed = false := by decide
theorem test_descriptor_space : ({ necDefault with leaderSpace := some ⟨0⟩ } : Descriptor).wellFormed = false := by decide
theorem test_descriptor_repeater : ({ necDefault with repeater := some ⟨0⟩ } : Descriptor).wellFormed = false := by
  decide
theorem test_descriptor_symbol0 : ({ necDefault with symbol0 := ⟨0⟩ } : Descriptor).wellFormed = false := by decide
theorem test_descriptor_symbol1 : ({ necDefault with symbol1 := ⟨0⟩ } : Descriptor).wellFormed = false := by decide
theorem test_table_nec : ({ FormatTable.default with nec := { necDefault with symbol0 := ⟨0⟩ } } :
    FormatTable).wellFormed = false := by decide
theorem test_table_kadenkyo : ({ FormatTable.default with kadenkyo := { kadenkyoDefault with symbol1 := ⟨0⟩ } } :
    FormatTable).wellFormed = false := by decide
theorem test_table_sony : ({ FormatTable.default with sony := { sonyDefault with leaderMark := ⟨0⟩ } } :
    FormatTable).wellFormed = false := by decide
theorem test_nec_edge : ({ FormatTable.default with nec := { necDefault with infoEdge := .mark } } :
    FormatTable).wellFormed = false := by decide
theorem test_kadenkyo_edge : ({ FormatTable.default with kadenkyo := { kadenkyoDefault with infoEdge := .mark } } :
    FormatTable).wellFormed = false := by decide
theorem test_sony_edge : ({ FormatTable.default with sony := { sonyDefault with infoEdge := .space } } :
    FormatTable).wellFormed = false := by decide
theorem test_default_table : FormatTable.default.wellFormed = true := by decide

/-! ## Decoding: words written out field by field from R81's patterns and R90's worked encodings. -/

/-- R81: `0001 0000 00000000 cccccccc cccccccc`. -/
theorem test_decode_init : decode 0b00010000000000000000000001000000 = .ok (.init 64) := by decide
/-- R81: `0010 0001 dddddddd dddddddd dddddddd`. -/
theorem test_decode_mark : decode 0b00100001000000000010001100100000 = .ok (.mark 8992) := by decide
/-- R81: `0010 0000 dddddddd dddddddd dddddddd`. -/
theorem test_decode_space : decode 0b00100000100000000000000000000001 = .ok (.space 0x800001) := by decide
/-- R81: `0011 0000 …`, every operand bit 0. -/
theorem test_decode_rdcount : decode 0b00110000000000000000000000000000 = .ok .rdcount := by decide
/-- R81, R88: SEL in bits 9 and 8, index in bits 7 to 0. -/
theorem test_decode_rdframe : decode 0b01000000000000000000001000000001 = .ok (.rdframe .payload 1) := by decide
theorem test_decode_rdframe_selects : decode 0x40000005 = .ok (.rdframe .kb 5) ∧
    decode 0x40000105 = .ok (.rdframe .elapsed 5) ∧ decode 0x400003FF = .ok (.rdframe .offset 255) := by decide
/-- R81: the address in bits 15 to 0. -/
theorem test_decode_rdbyte : decode 0b01010000000000000000000000011010 = .ok (.rdbyte 26) := by decide
/-- R81, R88: SEL in bits 1 and 0. -/
theorem test_decode_rdstatus : decode 0b01100000000000000000000000000011 = .ok (.rdstatus .cap) := by decide
theorem test_decode_rdstatus_selects : decode 0x60000000 = .ok (.rdstatus .status) ∧
    decode 0x60000001 = .ok (.rdstatus .lm) ∧ decode 0x60000002 = .ok (.rdstatus .ls) := by decide
/-- 95_test_vectors.md section 2.2. -/
theorem test_illegal_words : decode 0x00000000 = .error (.unassignedOpcode 0) ∧
    decode 0x10010000 = .error (.reservedBit 1) ∧ decode 0x22000000 = .error (.reservedBit 2) ∧
    decode 0x2A000000 = .error (.reservedBit 2) ∧ decode 0x30000001 = .error (.reservedBit 3) ∧
    decode 0x40000400 = .error (.reservedBit 4) ∧ decode 0x5FFF0000 = .error (.reservedBit 5) ∧
    decode 0x60000004 = .error (.reservedBit 6) ∧ decode 0x70000000 = .error (.unassignedOpcode 7) ∧
    decode 0xF0000000 = .error (.unassignedOpcode 15) := by decide
/-- R90's worked encodings. -/
theorem test_encode_worked : encode (.init 64) = 0x10000040 ∧ encode (.mark 8992) = 0x21002320 ∧
    encode (.space 4496) = 0x20001190 ∧ encode (.rdframe .payload 1) = 0x40000201 ∧
    encode (.rdbyte 26) = 0x5000001A ∧ encode (.rdstatus .status) = 0x60000000 ∧ encode .rdcount = 0x30000000 := by
  decide
/-- A word of the table as the table numbers its bits (R80). -/
theorem test_table_word : decodeTableWord 32 0x5000001A = some (.rdbyte 26) ∧ decodeTableWord 32 0x50010000 = none := by
  decide

/-! ## The assembler (R88, R89). -/

theorem test_text_hex : assembleText "  RDBYTE 0x1A  ; a byte" = some [0x5000001A] := by decide
theorem test_text_name : assembleText "RDFRAME 1, PAYLOAD" = some [0x40000201] := by decide
theorem test_text_pseudo : assembleText "KAD.REPEAT" = some [0x21000D48, 0x20000D48] := by decide
theorem test_text_refused : assembleText "INIT 65536" = none ∧ assembleText "SONY.REPEAT" = none := by decide
/-- P1's sixteen words of `NEC.BYTE 0xA5`. -/
theorem test_byte_words : (AsmLine.formatByte .nec 0xA5).assemble = some [0x21000232, 0x20000696, 0x21000232, 0x20000232,
    0x21000232, 0x20000696, 0x21000232, 0x20000232, 0x21000232, 0x20000232, 0x21000232, 0x20000696, 0x21000232,
    0x20000232, 0x21000232, 0x20000696] := by decide

/-! ## States the tests start from. -/

/-- A buffer of CAP bytes: FORMAT, FRAME_COUNT and the offsets, then the records from 22 on (R55, R56). -/
def store (cap : Nat) (format : Nat) (offsets : List Nat) (records : List Nat) : Memory :=
  let index := offsets.flatMap fun o => [o % 256, o / 256]
  let bytes := format :: offsets.length :: (index ++ List.replicate (20 - index.length) 0 ++ records)
  (List.range cap).map fun a => (a, BitVec.ofNat 8 (bytes.getD a 0))

/-- A session with that buffer. -/
def session (st : SessionState) (cap : Nat) (eacc : Nat) (buf : Memory) : State :=
  { State.reset with st := st, cap := BitVec.ofNat 16 cap, eacc := BitVec.ofNat 20 eacc, buf := buf }

/-- AWAIT with a latched mark. -/
def latched (mark : Nat) (s : State) : State := { s with lm := BitVec.ofNat 15 mark, lmValid := true }

/-- ERROR with a kind. -/
def failed (kind : BitVec 4) (s : State) : State := { s with st := .error, errKind := kind }

/-- `INIT c`. -/
def fresh (cap : Nat) : State := session .await cap 0 (store cap 0 [] [])

/-- An open NEC frame: `INIT c;; NEC.LEADER;; MARK 562` with a KB halfword below 256 and payload bytes. -/
def necOpen (cap kb : Nat) (payload : List Nat) : State :=
  session .assemble cap 14050 (store cap 1 [22] ([kb, 0, 0x6E, 0x03] ++ payload))

/-- P1's end state: one sealed NEC frame 0xA5, its sealing space latched. -/
def necSealed : State := latched 8992 (session .await 64 27538 (store 64 1 [22] [8, 0, 0xB9, 0x06, 0xA5]))

/-- A second NEC frame of one byte, not yet sealed, after a first frame 0xA5. -/
def necSecond (byte : Nat) : State :=
  session .assemble 64 27538 (store 64 1 [22, 28] [8, 0, 0xB9, 0x06, 0xA5, 0, 8, 0, 0xB9, 0x06, byte])

/-- P3 before its last SPACE: an open Repeater frame. -/
def necRepeat : State :=
  session .assemble 64 11802 (store 64 1 [22, 28] [8, 0, 0xB9, 0x06, 0x5A, 0, 0, 0x80, 0xE1, 0x02])

/-- P2's end state: three frames, the last two SameAsFirst, the second's payload overlaid. -/
def threeFrames : State :=
  latched 8992 (session .await 64 37654 (store 64 1 [22, 28, 32]
    [0x10, 0, 0x31, 0x09, 0x12, 0x34, 0x10, 0x40, 0x31, 0x09, 0x10, 0x40, 0x31, 0x09, 0x12, 0x34]))

/-- Ten zero-bit NEC frames at 22, 26, …, 58, with a latched mark (95_test_vectors.md section 2.8). -/
def tenFrames : State :=
  latched 8992 (session .await 64 13488 (store 64 1 ((List.range 10).map fun i => 22 + 4 * i)
    ([0, 0, 0x4B, 0x03] ++ (List.replicate 9 [0, 0x40, 0x4B, 0x03]).flatten)))

/-- `INIT 64;; SONY.LEADER`. -/
def sonyOpen : State := session .assemble 64 3000 (store 64 3 [22] [0, 0, 0xBB, 0])

/-! ## How the tests read outcomes, and the check of the invariants. -/

/-- The state a command leaves; the state itself where the model stops. -/
def after (i : Instr) (s : State) : State :=
  match exec i s with
  | .next t => t
  | .fault _ => s
  | .refused _ => s

/-- The command gives a next state. -/
def completes (i : Instr) (s : State) : Bool :=
  match exec i s with
  | .next _ => true
  | .fault _ => false
  | .refused _ => false

theorem next_after {i : Instr} {s : State} (h : completes i s = true) : exec i s = .next (after i s) := by
  unfold completes at h
  unfold after
  cases hx : exec i s with
  | next t => rfl
  | fault f => rw [hx] at h; exact absurd h Bool.false_ne_true
  | refused r => rw [hx] at h; exact absurd h Bool.false_ne_true

/-- `StoreInv` as a test. -/
def storeCheck (s : State) : Bool :=
  decide (Config.hdrSize ≤ s.cap.toNat) && decide (∀ a < s.cap.toNat, (s.buf.read a).isSome = true) &&
  decide (s.st = .assemble → 1 ≤ s.frames) && decide (s.frames ≤ Config.maxFrames) &&
  decide (s.formatByte.toNat ≤ 3) && decide (1 ≤ s.frames → s.formatByte ≠ 0) &&
  decide (1 ≤ s.frames → s.recordAt 0 = Config.hdrSize) &&
  decide (∀ i < s.current, s.recordAt (i + 1) = align2 (s.recordAt i + recordSize (s.kbAt i))) &&
  decide (∀ i < s.frames, s.recordAt i + Config.recHdr + ceil8 (s.bitsAt i) ≤ s.cap.toNat) &&
  decide (∀ i < Config.maxFrames, s.frames ≤ i → s.recordAt i = 0) &&
  decide (∀ i < s.frames, s.retained i → s.bitsAt i % 8 ≠ 0 →
    s.payloadAt i (s.bitsAt i / 8) &&& (0xFF#8 >>> (s.bitsAt i % 8)) = 0) &&
  decide (1 ≤ s.frames → s.kindAt 0 ≠ FrameKind.sameAsFirst.code) && decide (∀ i < s.frames, s.kindAt i ≠ 3) &&
  decide (∀ i < s.frames, s.kindAt i = FrameKind.repeater.code → s.bitsAt i = 0) &&
  decide (∀ i < s.frames, s.kindAt i = FrameKind.sameAsFirst.code → s.bitsAt i = s.bitsAt 0) &&
  decide (s.st = .assemble → s.kindAt s.current ≠ FrameKind.sameAsFirst.code) &&
  decide (1 ≤ s.frames → s.elapsedAt s.current = elapsedField s.eacc)

theorem storeInv_of_check {s : State} (h : storeCheck s = true) : StoreInv s := by
  simp only [storeCheck, Bool.and_eq_true, decide_eq_true_eq] at h
  obtain ⟨⟨⟨⟨⟨⟨⟨⟨⟨⟨⟨⟨⟨⟨⟨⟨h1, h2⟩, h3⟩, h4⟩, h5⟩, h6⟩, h7⟩, h8⟩, h9⟩, h10⟩, h11⟩, h12⟩, h13⟩, h14⟩, h15⟩, h16⟩, h17⟩ := h
  exact ⟨h1, h2, h3, h4, h5, h6, h7, h8, h9, h10, h11, h12, h13, h14, h15, h16, h17⟩

/-- `Inv` in a session as a test. -/
def sessionCheck (s : State) : Bool :=
  s.table.wellFormed && decide (Memory.wf s.buf) &&
  decide ((s.st = .uninit → s.errKind = 0 ∨ s.errKind = bufferTooSmallCode)
    ∧ (s.st = .await ∨ s.st = .assemble → s.errKind = 0)
    ∧ (s.st = .error → 1 ≤ s.errKind.toNat ∧ s.errKind.toNat ≤ 6)) &&
  decide (s.st = .uninit → s.cap = 0) && decide (s.lmValid = true → s.st = .await ∨ s.st = .error) &&
  storeCheck s

theorem inv_of_check {s : State} (h : sessionCheck s = true) : Inv s := by
  simp only [sessionCheck, Bool.and_eq_true, decide_eq_true_eq] at h
  obtain ⟨⟨⟨⟨⟨h1, h2⟩, h3⟩, h4⟩, h5⟩, h6⟩ := h
  exact ⟨h1, h2, h3, h4, h5, fun _ => storeInv_of_check h6⟩

theorem inv_fresh : Inv (fresh 64) := inv_of_check (by decide +kernel)
theorem inv_fresh22 : Inv (fresh 22) := inv_of_check (by decide +kernel)
theorem inv_necOpen : Inv (necOpen 64 0 []) := inv_of_check (by decide +kernel)
theorem inv_necSealed : Inv necSealed := inv_of_check (by decide +kernel)
theorem inv_necSecond : Inv (necSecond 0xA5) := inv_of_check (by decide +kernel)
theorem inv_necRepeat : Inv necRepeat := inv_of_check (by decide +kernel)
theorem inv_threeFrames : Inv threeFrames := inv_of_check (by decide +kernel)
theorem inv_tenFrames : Inv tenFrames := inv_of_check (by decide +kernel)
theorem inv_sonyOpen : Inv sonyOpen := inv_of_check (by decide +kernel)

theorem inv_after_fresh : Inv (failed 2 (fresh 64)) := inv_of_check (by decide +kernel)

/-- The state after `NEC.LEADER` with the bit count then set to its largest value. -/
def fillCount (s : State) : State := (s.frameOpened .nec .data 13488).setHalf 22 (makeKb 0 0x3FFF)

/-- A frame with the largest bit count keeps the invariants, when the last of its 2048 payload bytes is 0. -/
theorem storeInv_fillCount {s : State} (h0 : StoreInv s) (hz : s.frames = 0) (hcap : 2074 ≤ s.cap.toNat)
    (hlast : s.byteAt 2073 = 0) : StoreInv (fillCount s) ∧ (fillCount s).current = 0 ∧ (fillCount s).frames = 1 ∧
      (fillCount s).recordAt 0 = 22 ∧ (fillCount s).kbAt 0 = makeKb 0 0x3FFF := by
  have hoff : s.nextOffset = 22 := by unfold State.nextOffset; rw [if_pos hz]
  have h1 := h0.keep_frameOpened .nec .data 13488 (by omega) (by omega) (by decide)
  have hf1 : (s.frameOpened .nec .data 13488).frames = 1 := by
    rw [StoreInv.frames_frameOpened _ _ _ (by omega), hz]
  have hcap1 : (s.frameOpened .nec .data 13488).cap = s.cap := frameOpened_cap _ _ _ _
  have hlast1 : (s.frameOpened .nec .data 13488).byteAt 2073 = 0 := by
    rw [StoreInv.byteAt_frameOpened_other _ _ _ (by decide) (by decide) (by simp only [offsetAddr]; omega)
      (by simp only [offsetAddr]; omega) (.inr (by omega))]
    exact hlast
  unfold fillCount
  generalize s.frameOpened .nec .data 13488 = u at *
  have hc1 : u.current = 0 := by unfold State.current; rw [hf1]
  have hr1 : u.recordAt 0 = 22 := h1.firstRecord (by rw [hf1])
  have hbyte : ∀ c, c ≠ 22 → c ≠ 23 → (u.setHalf 22 (makeKb 0 0x3FFF)).byteAt c = u.byteAt c := fun c h h' => by
    rw [byteAt_setHalf, if_neg h, if_neg h']
  have hrec : (u.setHalf 22 (makeKb 0 0x3FFF)).recordAt 0 = 22 :=
    (recordAt_low (L := 22) (fun c hc => hbyte c (by omega) (by omega)) (Nat.le_refl _) (by decide)).trans hr1
  have hkb : (u.setHalf 22 (makeKb 0 0x3FFF)).kbAt 0 = makeKb 0 0x3FFF := by
    unfold State.kbAt; rw [hrec]; exact halfAt_setHalf_same _ _ _
  have hbits : (u.setHalf 22 (makeKb 0 0x3FFF)).bitsAt 0 = 0x3FFF := by unfold State.bitsAt; rw [hkb]; exact bitCountOf_makeKb 0 (Nat.le_refl _)
  have hkind : (u.setHalf 22 (makeKb 0 0x3FFF)).kindAt 0 = 0 := by unfold State.kindAt; rw [hkb]; exact kindOf_makeKb _ _
  have hpay : (u.setHalf 22 (makeKb 0 0x3FFF)).payloadAt 0 2047 = 0 := by
    unfold State.payloadAt
    rw [hrec, hbyte _ (by decide) (by decide)]
    exact hlast1
  refine ⟨?_, ?_, ?_, hrec, hkb⟩
  · refine h1.of_current (by rw [hf1]) (fun c hc => ?_) (State.setHalf_cap ..) (fun c hc => isSome_read_setHalf hc)
      ?_ ?_ ?_ ?_ ?_ ?_ ?_ ?_
    · rw [hc1, hr1] at hc; exact hbyte c (by omega) (by omega)
    all_goals rw [hc1]
    · rw [hbits, hr1, hcap1]
      have : ceil8 0x3FFF = 2048 := by unfold ceil8; omega
      simp only [Config.recHdr]
      omega
    · rw [hbits]
      intro _
      rw [show 0x3FFF / 8 = 2047 by omega, hpay]
      exact BitVec.zero_and
    · intro _; rw [hkind]; decide
    · rw [hkind]; decide
    · rw [hkind]; intro hk; exact absurd hk (by decide)
    · rw [hkind]; intro hk; exact absurd hk (by decide)
    · rw [hkind]; intro _; decide
    · have := h1.elapsedShown (by rw [hf1])
      rw [hc1] at this
      refine Eq.trans ?_ this
      unfold State.elapsedAt
      rw [hrec, hr1]
      exact halfAt_congr (hbyte _ (by decide) (by decide)) (hbyte _ (by decide) (by decide))
  · exact (current_low (L := 22) (fun c hc => hbyte c (by omega) (by omega)) (Nat.le_refl _)).trans hc1
  · exact (frames_low (L := 22) (fun c hc => hbyte c (by omega) (by omega)) (Nat.le_refl _)).trans hf1

theorem wf_setHalf {s : State} {a : Nat} {v : Half} (h : Memory.wf s.buf) (ha : a + 1 < Config.bufBytes) :
    Memory.wf (s.setHalf a v).buf :=
  Memory.wf_write (Memory.wf_write h (by omega)) ha

theorem inv_fillCount {s : State} (h : Inv s) (h0 : StoreInv s) (hz : s.frames = 0) (hlm : s.lmValid = false)
    (he : s.errKind = 0) (hcap : 2074 ≤ s.cap.toNat) (hlast : s.byteAt 2073 = 0) : Inv (fillCount s) := by
  have hst : (fillCount s).st = .assemble := by unfold fillCount; simp [State.frameOpened]
  have hfix : (fillCount s).table = s.table ∧ (fillCount s).errKind = s.errKind ∧
      (fillCount s).lmValid = s.lmValid := by
    unfold fillCount State.frameOpened State.formatFixed
    split <;> simp [State.appended]
  have hoff : s.nextOffset = 22 := by unfold State.nextOffset; rw [if_pos hz]
  have wf1 : Memory.wf (s.appended .data 13488).buf := by
    unfold State.appended
    rw [hz, hoff]
    exact Memory.wf_write (wf_setHalf (wf_setHalf (wf_setHalf h.bufWf (by decide)) (by decide)) (by decide)) (by decide)
  refine ⟨by rw [hfix.1]; exact h.tableWf, ?_, ?_, ?_, ?_, fun _ => (storeInv_fillCount h0 hz hcap hlast).1⟩
  · unfold fillCount
    refine wf_setHalf ?_ (by decide)
    unfold State.frameOpened State.formatFixed
    rw [State.enter_buf, State.setEacc_buf]
    split
    · exact Memory.wf_write wf1 (by decide)
    · exact wf1
  · rw [hst, hfix.2.1, he]; decide
  · rw [hst]; intro hu; cases hu
  · rw [hfix.2.2, hlm]; intro hu; cases hu

/-- INIT with CAP ≥ 22, from reset, leaves a state that meets the invariant. -/
theorem inv_startSession {c : BitVec 16} (hc : 22 ≤ c.toNat) : Inv (State.reset.startSession c) := by
  refine ⟨?_, ?_, ?_, ?_, ?_, fun _ => storeInv_startSession hc⟩
  · show FormatTable.default.wellFormed = true
    decide
  · rw [State.startSession_buf]
    exact Memory.wf_zeroBelow (by decide) (Nat.le_of_lt c.isLt)
  · show (SessionState.await = .uninit → _) ∧ _ ∧ _
    exact ⟨fun h => (by cases h), fun _ => rfl, fun h => (by cases h)⟩
  · intro h; cases h
  · intro h; cases h

theorem byteAt_startSession {c : BitVec 16} {a : Nat} (ha : a < c.toNat) : (State.reset.startSession c).byteAt a = 0 := by
  unfold State.byteAt
  rw [State.startSession_buf, Memory.read_zeroBelow, if_pos ha]
  rfl

/-- A frame with the largest bit count, every bit 0, in a buffer of at least 2074 bytes. -/
theorem inv_full {c : BitVec 16} (hc : 2074 ≤ c.toNat) :
    Inv (fillCount (State.reset.startSession c)) ∧ (fillCount (State.reset.startSession c)).st = .assemble ∧
    (fillCount (State.reset.startSession c)).currentFrame = .ok 22 ∧
    (fillCount (State.reset.startSession c)).read16 22 = .ok (makeKb 0 0x3FFF) := by
  have hz : (State.reset.startSession c).frames = 0 := by
    unfold State.frames
    rw [byteAt_startSession (by simp only [countAddr]; omega)]
    rfl
  have hlast : (State.reset.startSession c).byteAt 2073 = 0 := byteAt_startSession (by omega)
  have h0 : StoreInv (State.reset.startSession c) := storeInv_startSession (by simp only [Config.hdrSize]; omega)
  obtain ⟨h, hcur, hf, hr, hk⟩ := storeInv_fillCount h0 hz hc hlast
  refine ⟨inv_fillCount (inv_startSession (by omega)) h0 hz rfl rfl hc hlast, ?_, ?_, ?_⟩
  · unfold fillCount; simp [State.frameOpened]
  · rw [h.currentFrame (by rw [hf]), hcur, hr]
  · have := h.readKb (i := 0) (by rw [hf]; decide)
    rw [hr, hk] at this
    exact this

/-! ## One-step vectors (95_test_vectors.md sections 2.3 to 2.10). -/

/-- The response of an outcome. -/
def answer (r : Result) : Option Word :=
  match r with
  | .next t => t.resp
  | .fault _ => none
  | .refused _ => none

theorem test_init_small : answer (step (State.reset.withFetchWord 32 0x10000015)) = some 0x27000000 := by decide +kernel
theorem test_init_zeroes : answer (exec (.init 30) (necOpen 64 1 [0x80])) = some 0x00000000 ∧
    (after (.init 30) (necOpen 64 1 [0x80])).buf.read 26 = some 0 ∧
    (after (.init 30) (necOpen 64 1 [0x80])).frames = 0 := by decide +kernel
/-- Section 2.6: a mark of 449 ticks is too short for NEC's sync pulse. -/
theorem test_mark_sync_short : answer (exec (.mark 449) (necOpen 64 0 [])) = some 0x24000000 := by decide +kernel
/-- Section 2.7: `INIT 64;; SONY.LEADER;; MARK 1440` is the bit 1, EL 0x0115. -/
theorem test_mark_sony_bit : answer (exec (.mark 1440) sonyOpen) = some 0x00000000 ∧
    (after (.mark 1440) sonyOpen).kbAt 0 = 0x0001 ∧ (after (.mark 1440) sonyOpen).elapsedAt 0 = 0x0115 ∧
    (after (.mark 1440) sonyOpen).byteAt 26 = 0x80 := by decide +kernel
/-- Section 2.5: MARK 7194, SPACE 3597 is NEC Data at both lower bounds, EL 0x02A2. -/
theorem test_space_leader : (after (.space 3597) (latched 7194 (fresh 64))).formatByte = 1 ∧
    (after (.space 3597) (latched 7194 (fresh 64))).elapsedAt 0 = 0x02A2 ∧
    (after (.space 3597) (latched 7194 (fresh 64))).recordAt 0 = 22 := by decide +kernel
/-- Section 2.9: a second frame 0xA5 becomes SameAsFirst when it is sealed. -/
theorem test_space_seal : answer (exec (.space 8992) (necSecond 0xA5)) = some 0x10000000 ∧
    (after (.space 8992) (necSecond 0xA5)).kbAt 1 = 0x4008 ∧ (after (.space 8992) (necSecond 0xA4)).kbAt 1 = 0x0008 := by
  decide +kernel
theorem test_rdcount : answer (exec .rdcount threeFrames) = some 0x00000003 ∧
    answer (exec .rdcount State.reset) = some 0x38000000 := by decide +kernel
/-- P2, and section 2.8's tenth frame. -/
theorem test_rdframe : answer (exec (.rdframe .payload 1) threeFrames) = some 0x0000001A ∧
    answer (exec (.rdframe .kb 2) threeFrames) = some 0x00004010 ∧
    answer (exec (.rdframe .offset 9) tenFrames) = some 0x0000003A ∧
    answer (exec (.rdframe .elapsed 0) necSealed) = some 0x000006B9 := by decide +kernel
theorem test_rdframe_range : answer (exec (.rdframe .kb 255) necSealed) = some 0x3A000000 := by decide +kernel
theorem test_rdbyte : answer (exec (.rdbyte 26) necSealed) = some 0x000000A5 ∧
    answer (exec (.rdbyte 63) (fresh 64)) = some 0x00000000 ∧
    answer (exec (.rdbyte 64) (fresh 64)) = some 0x3A000000 := by decide +kernel
theorem test_rdstatus : answer (exec (.rdstatus .status) threeFrames) = some 0x00003015 ∧
    answer (exec (.rdstatus .lm) threeFrames) = some 0x00002320 ∧
    answer (exec (.rdstatus .cap) (fresh 64)) = some 0x00000040 := by decide +kernel
theorem test_rdstatus_uninit : answer (exec (.rdstatus .status) (after (.init 21) State.reset)) = some 0x00000700 := by
  decide +kernel

/-! ## Witnesses: for every statement with hypotheses, states and operands that meet them, clause by clause. -/

theorem witness_DecodeInvertsEncode :
    (Instr.mark 0xFFFFFF).wellFormed = true ∧ (Instr.rdframe .offset 255).wellFormed = true := by decide
theorem witness_EncodeInvertsDecode :
    decode 0x21FFFFFF = .ok (.mark 0xFFFFFF) ∧ decode 0x400003FF = .ok (.rdframe .offset 255) := by decide
theorem witness_DecodeFollowsTable :
    { name := .rdstatus, mask := 0xFFFFFFFC, pattern := 0x60000000 } ∈ opcodeRows ∧
    OpcodeRow.hits { name := .rdstatus, mask := 0xFFFFFFFC, pattern := 0x60000000 } 0x60000003 = true := by decide
/-- One word for each clause of R84, at its lowest reserved bit (`test_illegal_words` decodes them). -/
theorem witness_ReservedWordsRefused :
    ((0x00000000#32).extractLsb' 28 4).toNat = 0 ∧ 7 ≤ ((0x70000000#32).extractLsb' 28 4).toNat ∧
    ((0x10010000#32).extractLsb' 28 4 = 1#4 ∧ (0x10010000#32).extractLsb' 16 12 ≠ 0#12) ∧
    ((0x22000000#32).extractLsb' 28 4 = 2#4 ∧ (0x22000000#32).extractLsb' 25 3 ≠ 0#3) ∧
    ((0x30000001#32).extractLsb' 28 4 = 3#4 ∧ (0x30000001#32).extractLsb' 0 28 ≠ 0#28) ∧
    ((0x40000400#32).extractLsb' 28 4 = 4#4 ∧ (0x40000400#32).extractLsb' 10 18 ≠ 0#18) ∧
    ((0x50010000#32).extractLsb' 28 4 = 5#4 ∧ (0x50010000#32).extractLsb' 16 12 ≠ 0#12) ∧
    ((0x60000004#32).extractLsb' 28 4 = 6#4 ∧ (0x60000004#32).extractLsb' 2 26 ≠ 0#26) ∧
    decode 0x50010000 = .error (.reservedBit 5) := by decide +kernel
theorem witness_AssemblerWritesCommands :
    65535 < 65536 ∧ 0xFFFFFF < 0x1000000 ∧ (255 < 256 ∨ 3 < 0) ∧ (255 < 0 ∨ 3 < 4) ∧
    (AsmLine.init 65535).assemble ≠ none ∧ (AsmLine.rdframe 255 3).assemble ≠ none := by decide +kernel
/-- The largest byte, and P1's byte, whose eight bits are 1, 0, 1, 0, 0, 1, 0, 1 (`test_byte_words` gives its words). -/
theorem witness_PseudoInstructionsExpand : 255 ≤ 255 ∧ 0xA5 ≤ 255 ∧
    (AsmLine.formatByte .sony 255).assemble = some (List.replicate 8 [0x210004B0, 0x20000258]).flatten := by
  decide +kernel
theorem witness_StepRunsDecodedCommand :
    (State.reset.withPort [.command 0x30000000]).port = .command 0x30000000 :: [] ∧ decode 0x30000000 = .ok .rdcount ∧
    (State.reset.withPort [.command 0x22000000, .reset]).port = .command 0x22000000 :: [.reset] ∧
    decode 0x22000000 = .error (.reservedBit 2) := by decide +kernel
theorem witness_IdleHoldsState : State.reset.port = [] := by decide
theorem witness_HardwareResetClearsRegisters : ((fresh 64).withPort [.reset]).port = .reset :: [] := by decide
theorem witness_InitStartsSession : 22 ≤ (22 : BitVec 16).toNat ∧ 22 ≤ (65535 : BitVec 16).toNat := by decide
theorem witness_InitTooSmall : (21 : BitVec 16).toNat < 22 ∧ (0 : BitVec 16).toNat < 22 := by decide
theorem witness_SampleOutsideSession : State.reset.st = .uninit ∧ (failed 2 (fresh 64)).st = .error := by decide
theorem witness_UnrepresentableDuration :
    (fresh 64).st = .await ∧ (necOpen 64 0 []).st = .assemble ∧ 0x7FFF < (0x8000 : BitVec 24).toNat ∧
    (0x7FFF : BitVec 24).toNat ≤ 0x7FFF ∧ exec (.mark 0x7FFF) (fresh 64) = .next (after (.mark 0x7FFF) (fresh 64)) :=
  ⟨by decide, by decide, by decide, by decide, next_after (by decide +kernel)⟩
theorem witness_MarkIsLatched : (fresh 64).st = .await ∧ (0x7FFF : BitVec 24).toNat ≤ 0x7FFF := by decide
theorem witness_UnpairedSpaceIgnored :
    (fresh 64).st = .await ∧ (fresh 64).lmValid = false ∧ (0x7FFF : BitVec 24).toNat ≤ 0x7FFF := by decide
/-- Section 2.5: one tick below NEC's leaderMark; RDCOUNT then runs in ERROR. -/
theorem witness_UnrecognizedLeaderEndsSession :
    (latched 7193 (fresh 64)).st = .await ∧ (latched 7193 (fresh 64)).lmValid = true ∧
    (4496 : BitVec 24).toNat ≤ 0x7FFF ∧
    matchLeader (latched 7193 (fresh 64)).table (latched 7193 (fresh 64)).lm.toNat (4496 : BitVec 24).toNat = none ∧
    (∀ i ∈ [Instr.rdcount], ∀ c, i ≠ .init c) ∧
    runAll [.rdcount] (after (.space 4496) (latched 7193 (fresh 64))) =
      .next (after .rdcount (after (.space 4496) (latched 7193 (fresh 64)))) := by
  refine ⟨by decide, by decide, by decide, by decide +kernel, ?_, ?_⟩
  · intro i hi c; rw [List.mem_singleton] at hi; subst hi; intro h; cases h
  · unfold runAll; rw [next_after (i := .rdcount) (by decide +kernel)]; rfl
/-- Section 2.5: a Sony pair in a NEC session. -/
theorem witness_FormatMismatchEndsSession :
    (latched 2400 necSealed).st = .await ∧ (latched 2400 necSealed).lmValid = true ∧ (600 : BitVec 24).toNat ≤ 0x7FFF ∧
    matchLeader (latched 2400 necSealed).table (latched 2400 necSealed).lm.toNat (600 : BitVec 24).toNat =
      some (.sony, .data) ∧
    (latched 2400 necSealed).read8 0 = .ok 1 ∧ (1 : Byte) ≠ 0 ∧ (1 : Byte) ≠ Format.sony.code := by decide +kernel
/-- The first frame in a buffer of 26 bytes, where its header just fits. -/
theorem witness_LeaderStartsFrame : Inv (latched 8992 (fresh 26)) ∧ (latched 8992 (fresh 26)).st = .await ∧
    (latched 8992 (fresh 26)).lmValid = true ∧ (4496 : BitVec 24).toNat ≤ 0x7FFF ∧
    matchLeader (latched 8992 (fresh 26)).table (latched 8992 (fresh 26)).lm.toNat (4496 : BitVec 24).toNat =
      some (.nec, .data) ∧
    (latched 8992 (fresh 26)).formatByte = 0 ∧ (latched 8992 (fresh 26)).frames < 10 ∧
    ((latched 8992 (fresh 26)).pairSpace (shortDuration 4496)).nextRecord (latched 8992 (fresh 26)).frames = .ok 22 ∧
    22 + 4 ≤ (latched 8992 (fresh 26)).cap.toNat :=
  ⟨inv_of_check (by decide +kernel), by decide +kernel⟩
/-- A Repeater pair in a NEC session with three frames. -/
theorem witness_LeaderStartsFrame_later : Inv threeFrames ∧ threeFrames.st = .await ∧ threeFrames.lmValid = true ∧
    matchLeader threeFrames.table threeFrames.lm.toNat (2248 : BitVec 24).toNat = some (.nec, .repeater) ∧
    threeFrames.formatByte = Format.nec.code ∧ threeFrames.frames < 10 ∧
    (threeFrames.pairSpace (shortDuration 2248)).nextRecord threeFrames.frames = .ok 36 ∧
    36 + 4 ≤ threeFrames.cap.toNat :=
  ⟨inv_threeFrames, by decide +kernel⟩
theorem witness_NextRecordPlace :
    (Inv (fresh 64) ∧ (fresh 64).st ≠ .uninit ∧ (fresh 64).frames = 0) ∧
    (Inv necSealed ∧ necSealed.st ≠ .uninit ∧ 1 ≤ necSealed.frames ∧ necSealed.kindAt necSealed.current = 0) ∧
    (Inv threeFrames ∧ 1 ≤ threeFrames.frames ∧ threeFrames.kindAt threeFrames.current ≠ 0) :=
  ⟨⟨inv_fresh, by decide +kernel⟩, ⟨inv_necSealed, by decide +kernel⟩, ⟨inv_threeFrames, by decide +kernel⟩⟩
/-- A full index; and a buffer of 25 bytes, where the first header does not fit. -/
theorem witness_NoRoomForFrame :
    (Inv tenFrames ∧ tenFrames.st = .await ∧ tenFrames.lmValid = true ∧ (4496 : BitVec 24).toNat ≤ 0x7FFF ∧
      matchLeader tenFrames.table tenFrames.lm.toNat (4496 : BitVec 24).toNat = some (.nec, .data) ∧
      tenFrames.formatByte = Format.nec.code ∧ tenFrames.frames = 10) ∧
    (Inv (latched 8992 (fresh 25)) ∧ (latched 8992 (fresh 25)).formatByte = 0 ∧
      matchLeader (latched 8992 (fresh 25)).table (latched 8992 (fresh 25)).lm.toNat (4496 : BitVec 24).toNat =
        some (.nec, .data) ∧
      ((latched 8992 (fresh 25)).pairSpace (shortDuration 4496)).nextRecord (latched 8992 (fresh 25)).frames = .ok 22 ∧
      (latched 8992 (fresh 25)).cap.toNat < 22 + 4) :=
  ⟨⟨inv_tenFrames, by decide +kernel⟩, ⟨inv_of_check (by decide +kernel), by decide +kernel⟩⟩
/-- One tick below symbol0's lower bound, and the bound itself, of a NEC frame; Sony's sync edge is the space. -/
theorem witness_SyncPulse : Inv (necOpen 64 0 []) ∧ (necOpen 64 0 []).st = .assemble ∧
    (necOpen 64 0 []).formatByte = Format.nec.code ∧ Edge.mark ≠ ((necOpen 64 0 []).table.descriptor .nec).infoEdge ∧
    (449 : BitVec 24).toNat ≤ 0x7FFF ∧ (necOpen 64 0 []).currentFrame = .ok 22 ∧
    (449 : BitVec 24).toNat < ((necOpen 64 0 []).table.descriptor .nec).symbol0.lo ∧
    ((necOpen 64 0 []).table.descriptor .nec).symbol0.lo ≤ (450 : BitVec 24).toNat ∧
    Edge.space ≠ (sonyOpen.table.descriptor .sony).infoEdge :=
  ⟨inv_necOpen, by decide +kernel⟩
/-- The bit 0 at symbol0's upper bound and the bit 1 at symbol1's lower bound, in a byte that starts. -/
theorem witness_BitAppended : Inv (necOpen 27 0 []) ∧ (necOpen 27 0 []).st = .assemble ∧
    (necOpen 27 0 []).formatByte = Format.nec.code ∧
    inR (674 : BitVec 24).toNat ((necOpen 27 0 []).table.descriptor .nec).symbol0 = true ∧
    inR (1349 : BitVec 24).toNat ((necOpen 27 0 []).table.descriptor .nec).symbol1 = true ∧
    inR (1349 : BitVec 24).toNat ((necOpen 27 0 []).table.descriptor .nec).symbol0 = false ∧
    (necOpen 27 0 []).currentFrame = .ok 22 ∧ (necOpen 27 0 []).read16 22 = .ok 0 ∧ kindOf 0 = 0 ∧
    bitCountOf 0 ≠ 0x3FFF ∧ 22 + 4 + bitCountOf 0 / 8 < (necOpen 27 0 []).cap.toNat :=
  ⟨inv_of_check (by decide +kernel), by decide +kernel⟩
/-- A byte already started. -/
theorem witness_BitAppended_started : Inv (necOpen 27 7 [0xFE]) ∧ (necOpen 27 7 [0xFE]).st = .assemble ∧
    (necOpen 27 7 [0xFE]).currentFrame = .ok 22 ∧ (necOpen 27 7 [0xFE]).read16 22 = .ok 7 ∧ kindOf 7 = 0 ∧
    bitCountOf 7 ≠ 0x3FFF ∧ bitCountOf 7 % 8 ≠ 0 ∧
    (necOpen 27 7 [0xFE]).read8 (22 + 4 + bitCountOf 7 / 8) = .ok 0xFE :=
  ⟨inv_of_check (by decide +kernel), by decide +kernel⟩
/-- P4: the ninth bit in a buffer of 27 bytes. -/
theorem witness_BitAppended_pastCap : Inv (necOpen 27 8 [0xFF]) ∧ (necOpen 27 8 [0xFF]).st = .assemble ∧
    (necOpen 27 8 [0xFF]).currentFrame = .ok 22 ∧ (necOpen 27 8 [0xFF]).read16 22 = .ok 8 ∧ kindOf 8 = 0 ∧
    bitCountOf 8 % 8 = 0 ∧ (necOpen 27 8 [0xFF]).cap.toNat ≤ 22 + 4 + bitCountOf 8 / 8 :=
  ⟨inv_of_check (by decide +kernel), by decide +kernel⟩
/-- A full bit count. -/
theorem witness_BitAppended_full : Inv (fillCount (State.reset.startSession 4096)) ∧
    (fillCount (State.reset.startSession 4096)).st = .assemble ∧
    (fillCount (State.reset.startSession 4096)).currentFrame = .ok 22 ∧
    (fillCount (State.reset.startSession 4096)).read16 22 = .ok (makeKb 0 0x3FFF) ∧
    kindOf (makeKb 0 0x3FFF) = 0 ∧ bitCountOf (makeKb 0 0x3FFF) = 0x3FFF := by
  obtain ⟨h1, h2, h3, h4⟩ := inv_full (c := 4096) (by decide)
  exact ⟨h1, h2, h3, h4, kindOf_makeKb _ _, bitCountOf_makeKb _ (Nat.le_refl _)⟩
/-- A duplicate of the first frame, at leaderMark's lower bound. -/
theorem witness_FrameSealed : Inv (necSecond 0xA5) ∧ (necSecond 0xA5).st = .assemble ∧
    (necSecond 0xA5).formatByte = Format.nec.code ∧ (7194 : BitVec 24).toNat ≤ 0x7FFF ∧
    inR (7194 : BitVec 24).toNat ((necSecond 0xA5).table.descriptor .nec).symbol0 = false ∧
    inR (7194 : BitVec 24).toNat ((necSecond 0xA5).table.descriptor .nec).symbol1 = false ∧
    (necSecond 0xA5).currentFrame = .ok 28 ∧ (necSecond 0xA5).read16 28 = .ok 8 ∧ (necSecond 0xA5).offset 0 = .ok 22 ∧
    (necSecond 0xA5).read16 22 = .ok 8 ∧ ((necSecond 0xA5).table.descriptor .nec).symbol0.hi < (7194 : BitVec 24).toNat ∧
    ((necSecond 0xA5).table.descriptor .nec).symbol1.hi < (7194 : BitVec 24).toNat ∧ bitCountOf 8 % 8 = 0 ∧
    inR (7194 : BitVec 24).toNat ((necSecond 0xA5).table.descriptor .nec).leaderMark = true ∧
    ((necSecond 0xA5).frames ≠ 1 ∧ kindOf 8 = 0 ∧ bitCountOf 8 = bitCountOf 8 ∧
      ∀ k < ceil8 (bitCountOf 8), (necSecond 0xA5).read8 (28 + 4 + k) = (necSecond 0xA5).read8 (22 + 4 + k)) :=
  ⟨inv_necSecond, by decide +kernel⟩
/-- A first frame, which is never a duplicate, and a second frame with another payload. -/
theorem witness_FrameSealed_kept : (Inv (necOpen 64 0 []) ∧ (necOpen 64 0 []).frames = 1 ∧
      (necOpen 64 0 []).currentFrame = .ok 22 ∧ (necOpen 64 0 []).read16 22 = .ok 0 ∧
      (necOpen 64 0 []).offset 0 = .ok 22 ∧ bitCountOf 0 % 8 = 0) ∧
    (Inv (necSecond 0xA4) ∧ (necSecond 0xA4).frames ≠ 1 ∧ (necSecond 0xA4).currentFrame = .ok 28 ∧
      (necSecond 0xA4).read8 (28 + 4 + 0) ≠ (necSecond 0xA4).read8 (22 + 4 + 0)) :=
  ⟨⟨inv_necOpen, by decide +kernel⟩, ⟨inv_of_check (by decide +kernel), by decide +kernel⟩⟩
/-- Section 2.7: a space between the symbol ranges, a boundary in the middle of a byte, and a bit in a Repeater frame. -/
theorem witness_UnexpectedTimingEndsSession :
    (Inv (necOpen 64 7 [0xFE]) ∧ (necOpen 64 7 [0xFE]).st = .assemble ∧
      (necOpen 64 7 [0xFE]).formatByte = Format.nec.code ∧ (necOpen 64 7 [0xFE]).currentFrame = .ok 22 ∧
      (necOpen 64 7 [0xFE]).read16 22 = .ok 7 ∧
      (∀ d ∈ [675, 8992], inR d ((necOpen 64 7 [0xFE]).table.descriptor .nec).symbol0 = false ∧
        inR d ((necOpen 64 7 [0xFE]).table.descriptor .nec).symbol1 = false) ∧
      bitCountOf 7 % 8 ≠ 0) ∧
    (Inv necRepeat ∧ necRepeat.st = .assemble ∧ necRepeat.formatByte = Format.nec.code ∧
      necRepeat.currentFrame = .ok 28 ∧ necRepeat.read16 28 = .ok 0x8000 ∧
      inR (562 : BitVec 24).toNat (necRepeat.table.descriptor .nec).symbol0 = true ∧ kindOf 0x8000 = 2) :=
  ⟨⟨inv_of_check (by decide +kernel), by decide +kernel⟩, ⟨inv_necRepeat, by decide +kernel⟩⟩
theorem witness_ReadsChangeNothing : exec (.rdframe .kb 0) necSealed = .next (after (.rdframe .kb 0) necSealed) ∧
    State.reset.st = .uninit ∧ (∀ sel, Instr.rdcount ≠ .rdstatus sel) ∧ Inv necSealed :=
  ⟨next_after (by decide +kernel), by decide, fun sel h => (by cases h), inv_necSealed⟩
theorem witness_CountRead : State.reset.st = .uninit ∧ threeFrames.st ≠ .uninit ∧ threeFrames.read8 1 = .ok 3 := by
  decide +kernel
/-- The last frame, and the first index past it. -/
theorem witness_FrameFieldRead : threeFrames.st ≠ .uninit ∧ threeFrames.frameCount = .ok 3 ∧
    3 ≤ (3 : BitVec 8).toNat ∧ (2 : BitVec 8).toNat < 3 ∧ threeFrames.offset (2 : BitVec 8).toNat = .ok 32 ∧
    threeFrames.read16 32 = .ok 0x4010 ∧ threeFrames.read16 (32 + 2) = .ok 0x0931 ∧ threeFrames.offset 0 = .ok 22 := by
  decide +kernel
/-- The last byte below CAP, and the first above. -/
theorem witness_ByteRead : (fresh 64).st ≠ .uninit ∧ (fresh 64).cap.toNat ≤ (64 : BitVec 16).toNat ∧
    (63 : BitVec 16).toNat < (fresh 64).cap.toNat ∧ (fresh 64).read8 (63 : BitVec 16).toNat = .ok 0 := by decide +kernel
theorem witness_StatusRead : State.reset.st = .uninit ∧ threeFrames.st ≠ .uninit ∧ threeFrames.read8 0 = .ok 1 ∧
    threeFrames.read8 1 = .ok 3 := by decide +kernel
/-- A SameAsFirst frame whose own payload bytes are overlaid. -/
theorem witness_HostReadsFrame : Inv threeFrames ∧ threeFrames.st ≠ .uninit ∧
    (1 : BitVec 8).toNat < threeFrames.frames ∧ threeFrames.kindAt 1 = 1 :=
  ⟨inv_threeFrames, by decide +kernel⟩
/-- A rejected pair in AWAIT, and a short sync pulse in ASSEMBLE. -/
theorem witness_SessionErrorsArePrecise :
    ((latched 7193 (fresh 64)).st = .await ∧
      exec (sampleOf .space 4496) (latched 7193 (fresh 64)) =
        .next (after (sampleOf .space 4496) (latched 7193 (fresh 64))) ∧
      (after (sampleOf .space 4496) (latched 7193 (fresh 64))).st = .error) ∧
    ((necOpen 64 0 []).st = .assemble ∧
      exec (sampleOf .mark 449) (necOpen 64 0 []) = .next (after (sampleOf .mark 449) (necOpen 64 0 [])) ∧
      (after (sampleOf .mark 449) (necOpen 64 0 [])).st = .error) :=
  ⟨⟨by decide, next_after (by decide +kernel), by decide +kernel⟩,
    ⟨by decide, next_after (by decide +kernel), by decide +kernel⟩⟩
theorem witness_CommandErrorsChangeNothing :
    runWord 0x50000040 (fresh 64) = .next (after (.rdbyte 64) (fresh 64)) ∧
    (after (.rdbyte 64) (fresh 64)).resp = some 0x3A000000 ∧ (0x3A000000 : Word).extractLsb' 28 4 = 3#4 :=
  ⟨next_after (s := fresh 64) (i := .rdbyte 64) (by decide +kernel), by decide +kernel, by decide⟩
/-- A command that completes in ERROR and is not INIT, and one that ends the session. -/
theorem witness_ErrKindWrites :
    exec (.mark 8992) (failed 2 (fresh 64)) = .next (after (.mark 8992) (failed 2 (fresh 64))) ∧
    (failed 2 (fresh 64)).st = .error ∧ (∀ c, Instr.mark 8992 ≠ .init c) ∧
    exec (.mark 449) (necOpen 64 0 []) = .next (after (.mark 449) (necOpen 64 0 [])) :=
  ⟨next_after (by decide +kernel), by decide, fun c h => (by cases h), next_after (by decide +kernel)⟩
/-- A second mark in AWAIT, a sealing space, and a paired space. -/
theorem witness_LatchWrites :
    exec (.mark 9000) (latched 8992 (fresh 64)) = .next (after (.mark 9000) (latched 8992 (fresh 64))) ∧
    exec (.space 8992) (necSecond 0xA5) = .next (after (.space 8992) (necSecond 0xA5)) ∧
    exec (.space 4496) (latched 8992 (fresh 64)) = .next (after (.space 4496) (latched 8992 (fresh 64))) :=
  ⟨next_after (by decide +kernel), next_after (by decide +kernel), next_after (by decide +kernel)⟩
/-- One command for each transition of R22's table. -/
theorem witness_StateTransitions :
    exec (.init 22) State.reset = .next (after (.init 22) State.reset) ∧
    exec (.space 4496) (latched 8992 (fresh 64)) = .next (after (.space 4496) (latched 8992 (fresh 64))) ∧
    (after (.space 4496) (latched 8992 (fresh 64))).st = .assemble ∧
    exec (.space 8992) (necSecond 0xA5) = .next (after (.space 8992) (necSecond 0xA5)) ∧
    (after (.space 8992) (necSecond 0xA5)).st = .await ∧
    exec (.mark 449) (necOpen 64 0 []) = .next (after (.mark 449) (necOpen 64 0 [])) ∧
    (after (.mark 449) (necOpen 64 0 [])).st = .error :=
  ⟨next_after (by decide +kernel), next_after (by decide +kernel), by decide +kernel, next_after (by decide +kernel),
    by decide +kernel, next_after (by decide +kernel), by decide +kernel⟩
theorem witness_SampleResponses : Inv (failed 2 (fresh 64)) ∧
    exec (sampleOf .mark 0) (failed 2 (fresh 64)) = .next (after (sampleOf .mark 0) (failed 2 (fresh 64))) ∧
    exec (.init 0) State.reset = .next (after (.init 0) State.reset) :=
  ⟨inv_after_fresh, next_after (by decide +kernel), next_after (by decide +kernel)⟩
theorem witness_ResponseForm : runWord 0x50000040 (fresh 64) = .next (after (.rdbyte 64) (fresh 64)) :=
  next_after (s := fresh 64) (i := .rdbyte 64) (by decide +kernel)
/-- A state that meets the invariant, whose step appends a frame. -/
theorem witness_StepKeepsInvariant : Inv (threeFrames.withPort [.command 0x20001190]) ∧
    step (threeFrames.withPort [.command 0x20001190]) = .next (after (.space 4496) threeFrames) :=
  ⟨inv_of_check (by decide +kernel), next_after (s := threeFrames) (i := .space 4496) (by decide +kernel)⟩
theorem witness_StepNeverStops : Inv (necRepeat.withPort [.command 0x20000232]) := inv_of_check (by decide +kernel)
theorem witness_InvariantGivesListedItems : Inv threeFrames ∧ threeFrames.st ≠ .uninit ∧
    Inv (necOpen 64 7 [0xFE]) ∧ (necOpen 64 7 [0xFE]).st = .assemble ∧ (necOpen 64 7 [0xFE]).bitsAt 0 = 7 :=
  ⟨inv_threeFrames, by decide +kernel, inv_of_check (by decide +kernel), by decide +kernel, by decide +kernel⟩
theorem witness_StepKeepsCanonicalBuffer : Memory.wf (threeFrames.withPort [.command 0x20001190]).buf ∧
    step (threeFrames.withPort [.command 0x20001190]) = .next (after (.space 4496) threeFrames) :=
  ⟨by decide +kernel, next_after (s := threeFrames) (i := .space 4496) (by decide +kernel)⟩
theorem witness_FormatTableConstant : exec (.init 64) State.reset = .next (after (.init 64) State.reset) ∧
    step (State.reset.withPort [.command 0x10000040]) = .next (after (.init 64) State.reset) :=
  ⟨next_after (by decide +kernel), next_after (s := State.reset) (i := .init 64) (by decide +kernel)⟩
theorem witness_BytesAboveCapUntouched : Inv (necOpen 27 8 [0xFF]) ∧
    exec (.space 1686) (necOpen 27 8 [0xFF]) = .next (after (.space 1686) (necOpen 27 8 [0xFF])) ∧
    (after (.space 1686) (necOpen 27 8 [0xFF])).cap.toNat ≤ 27 :=
  ⟨inv_of_check (by decide +kernel), next_after (by decide +kernel), by decide +kernel⟩
/-- Two states that differ in the byte at CAP, and the command that would write it. -/
theorem witness_BytesAboveCapUnseen : Inv (necOpen 27 8 [0xFF]) ∧
    Inv { necOpen 27 8 [0xFF] with buf := (necOpen 27 8 [0xFF]).buf.write 27 77 } ∧
    (∀ a < (necOpen 27 8 [0xFF]).cap.toNat,
      Memory.read ((necOpen 27 8 [0xFF]).buf.write 27 77) a = (necOpen 27 8 [0xFF]).buf.read a) ∧
    exec (.space 1686) (necOpen 27 8 [0xFF]) = .next (after (.space 1686) (necOpen 27 8 [0xFF])) :=
  ⟨inv_of_check (by decide +kernel), inv_of_check (by decide +kernel), by decide +kernel, next_after (by decide +kernel)⟩
theorem witness_AccumulatorUnseen :
    exec (.space 1686) (necOpen 27 0 []) = .next (after (.space 1686) (necOpen 27 0 [])) :=
  next_after (by decide +kernel)
/-- A frame appended after three sealed ones, over the second's payload; and a bit in a second, open frame. -/
theorem witness_SealedFramesNeverChange :
    (Inv threeFrames ∧ threeFrames.st ≠ .uninit ∧ (∀ c, Instr.space 4496 ≠ .init c) ∧
      exec (.space 4496) threeFrames = .next (after (.space 4496) threeFrames) ∧ 1 < threeFrames.frames ∧
      1 < threeFrames.current ∧ threeFrames.st ≠ .assemble) ∧
    (Inv (necSecond 0xA5) ∧ (∀ c, Instr.space 1686 ≠ .init c) ∧
      exec (.space 1686) (necSecond 0xA5) = .next (after (.space 1686) (necSecond 0xA5)) ∧
      0 < (necSecond 0xA5).current) :=
  ⟨⟨inv_threeFrames, by decide +kernel, fun c h => (by cases h), next_after (by decide +kernel), by decide +kernel⟩,
    ⟨inv_necSecond, fun c h => (by cases h), next_after (by decide +kernel), by decide +kernel⟩⟩
/-- A session's first leader, which writes FORMAT and FRAME_COUNT. -/
theorem witness_CountAndFormatDiscipline : Inv (latched 8992 (fresh 64)) ∧ (latched 8992 (fresh 64)).st ≠ .uninit ∧
    (∀ c, Instr.space 4496 ≠ .init c) ∧
    exec (.space 4496) (latched 8992 (fresh 64)) = .next (after (.space 4496) (latched 8992 (fresh 64))) :=
  ⟨inv_of_check (by decide +kernel), by decide +kernel, fun c h => (by cases h), next_after (by decide +kernel)⟩
/-- A duplicate that is sealed, and a Repeater pair that is accepted. -/
theorem witness_KindsComeFromTheirEvidence :
    (Inv (necSecond 0xA5) ∧ (necSecond 0xA5).st ≠ .uninit ∧ (∀ c, Instr.space 8992 ≠ .init c) ∧
      exec (.space 8992) (necSecond 0xA5) = .next (after (.space 8992) (necSecond 0xA5)) ∧
      1 < (after (.space 8992) (necSecond 0xA5)).frames ∧ (after (.space 8992) (necSecond 0xA5)).kindAt 1 = 1) ∧
    (Inv necSealed ∧ necSealed.st ≠ .uninit ∧ (∀ c, Instr.space 2248 ≠ .init c) ∧
      exec (.space 2248) necSealed = .next (after (.space 2248) necSealed) ∧
      1 < (after (.space 2248) necSealed).frames ∧ (after (.space 2248) necSealed).kindAt 1 = 2) :=
  ⟨⟨inv_necSecond, by decide +kernel, fun c h => (by cases h), next_after (by decide +kernel), by decide +kernel⟩,
    ⟨inv_necSealed, by decide +kernel, fun c h => (by cases h), next_after (by decide +kernel), by decide +kernel⟩⟩
/-- Section 2.1: NEC symbol0, and Kadenkyo symbol0, which 5 divides. -/
theorem witness_MarginClassifier : 1 ≤ (Range.mk 425).nominal ∧ (Range.mk 425).nominal = 5 * 85 ∧
    inR 339 ⟨425⟩ = false ∧ inR 340 ⟨425⟩ = true ∧ inR 510 ⟨425⟩ = true ∧ inR 511 ⟨425⟩ = false ∧
    inR 449 ⟨562⟩ = false ∧ inR 450 ⟨562⟩ = true ∧ inR 674 ⟨562⟩ = true ∧ inR 675 ⟨562⟩ = false := by decide
/-- Section 2.5: a pair that only the second, and a pair that only the third descriptor accepts. -/
theorem witness_FirstDescriptorWins :
    matchLeader FormatTable.default 8992 4496 = some (.nec, .data) ∧
    matchLeader FormatTable.default 3400 3400 = some (.kadenkyo, .repeater) ∧
    matchLeader FormatTable.default 2800 1700 = some (.kadenkyo, .data) ∧
    matchLeader FormatTable.default 2800 600 = some (.sony, .data) := by decide
/-- The bounds of section 2.1 where the statement's clauses start. -/
theorem witness_DefaultTableSeparation :
    inR 674 (FormatTable.default.descriptor .nec).symbol0 = true ∧
    inRange 3597 (FormatTable.default.descriptor .nec).leaderSpace = true ∧
    inRange 2040 (FormatTable.default.descriptor .kadenkyo).leaderSpace = true ∧
    (FormatTable.default.descriptor .nec).leaderMark.hi = 10790 ∧
    inR 2720 FormatTable.default.kadenkyo.leaderMark = true ∧ inR 2880 FormatTable.default.sony.leaderMark = true ∧
    inR 2719 FormatTable.default.kadenkyo.leaderMark = false ∧ inR 2881 FormatTable.default.sony.leaderMark = false := by
  decide
/-- Nine bits, in two bytes. -/
theorem witness_WriteBitKeepsPacking : StoreInv (necOpen 64 9 [0xA5, 0x80]) ∧ (necOpen 64 9 [0xA5, 0x80]).st = .assemble ∧
    (necOpen 64 9 [0xA5, 0x80]).kindAt (necOpen 64 9 [0xA5, 0x80]).current = 0 ∧
    [true, false, true, false, false, true, false, true, true].length =
      (necOpen 64 9 [0xA5, 0x80]).bitsAt (necOpen 64 9 [0xA5, 0x80]).current ∧
    (List.range (ceil8 ((necOpen 64 9 [0xA5, 0x80]).bitsAt (necOpen 64 9 [0xA5, 0x80]).current))).map
        ((necOpen 64 9 [0xA5, 0x80]).payloadAt (necOpen 64 9 [0xA5, 0x80]).current) =
      pack [true, false, true, false, false, true, false, true, true] ∧
    ((necOpen 64 9 [0xA5, 0x80]).writeBit true).toOption.isSome = true :=
  ⟨storeInv_of_check (by decide +kernel), by decide +kernel⟩
/-- Eight bits in a buffer of 27 bytes, which they fill; and a Sony frame. -/
theorem witness_TransmittedBitsAreStored :
    (Inv (necOpen 27 0 []) ∧ (necOpen 27 0 []).st = .assemble ∧ (necOpen 27 0 []).formatByte = Format.nec.code ∧
      ((necOpen 27 0 []).table.descriptor .nec).symbol0.nominal ≤ 0x7FFF ∧
      ((necOpen 27 0 []).table.descriptor .nec).symbol1.nominal ≤ 0x7FFF ∧
      inR ((necOpen 27 0 []).table.descriptor .nec).symbol1.nominal ((necOpen 27 0 []).table.descriptor .nec).symbol0 =
        false ∧
      (necOpen 27 0 []).kindAt (necOpen 27 0 []).current = 0 ∧ (necOpen 27 0 []).bitsAt (necOpen 27 0 []).current = 0 ∧
      (byteBits 0xA5).length ≤ 0x3FFF ∧
      (necOpen 27 0 []).recordAt (necOpen 27 0 []).current + 4 + ceil8 (byteBits 0xA5).length ≤
        (necOpen 27 0 []).cap.toNat) ∧
    (Inv sonyOpen ∧ sonyOpen.st = .assemble ∧ sonyOpen.formatByte = Format.sony.code ∧
      sonyOpen.kindAt sonyOpen.current = 0 ∧ sonyOpen.bitsAt sonyOpen.current = 0) :=
  ⟨⟨inv_of_check (by decide +kernel), by decide +kernel⟩, ⟨inv_sonyOpen, by decide +kernel⟩⟩

end Sys2Proof.Tests
end

section
/-! PROOF. One step of IRRX (00_scope.md R5, R6): what it does for each event at the head of the port, and the statements
O8 and O9. -/

namespace Sys2Proof.Machine

/-- An empty port has no next event. -/
theorem State.nextEvent_of_port_nil {s : State} (hport : s.port = []) : s.nextEvent = none := by
  simp [State.nextEvent, hport]

/-- The next event is the head of the port, and it is gone from the port once it is taken (R85). -/
theorem State.nextEvent_of_port_cons {s : State} {e : HostEvent} {rest : List HostEvent} (hport : s.port = e :: rest) :
    s.nextEvent = some (e, s.withPort rest) := by
  simp [State.nextEvent, hport]

/-- R6, R224: IRRX does nothing of its own accord. -/
theorem step_of_port_nil {s : State} (hport : s.port = []) : step s = .next s := by
  simp [step, State.nextEvent_of_port_nil hport]

/-- R230, R231: a reset is a step of its own. -/
theorem step_of_port_reset {s : State} {rest : List HostEvent} (hport : s.port = .reset :: rest) :
    step s = .next (s.withPort rest).hardReset := by
  simp [step, State.nextEvent_of_port_cons hport]

/-- R65, R85: a command word is run in the state from whose port it has been taken. -/
theorem step_of_port_command {s : State} {w : Word} {rest : List HostEvent} (hport : s.port = .command w :: rest) :
    step s = runWord w (s.withPort rest) := by
  simp [step, State.nextEvent_of_port_cons hport]

/-- R83: a word that decodes runs its command. -/
theorem runWord_of_decode_ok {w : Word} {i : Instr} (hdec : decode w = .ok i) (s : State) : runWord w s = exec i s := by
  simp [runWord, hdec]

/-- R84, R199: a word that decodes to nothing takes the answer to ILLEGAL, whatever the reason. -/
theorem runWord_of_decode_error {w : Word} {e : DecodeError} (hdec : decode w = .error e) (s : State) :
    runWord w s = execIllegal s := by
  simp [runWord, hdec]

/-- R86, R211: the word that answers IllegalCommand. -/
theorem respWord_illegalCommand : respWord .commandError CommandErrorKind.illegalCommand.code 0 = 0x39000000 := by
  decide

/-- R199, R214: the answer to ILLEGAL writes the response and nothing else. -/
theorem execIllegal_eq (s : State) : execIllegal s = .next { s with resp := some 0x39000000 } := by
  rw [← respWord_illegalCommand]; rfl

/-- Settles O8: the port's head is the word that runs, and each result of its decoding has one continuation. -/
theorem stepRunsDecodedCommand : Obligations.StepRunsDecodedCommand := by
  intro s w rest hport
  rw [step_of_port_command hport]
  constructor
  · intro i hdec
    exact runWord_of_decode_ok hdec (s.withPort rest)
  · intro e hdec
    rw [runWord_of_decode_error hdec, execIllegal_eq]
    rfl

/-- Settles O9. -/
theorem idleHoldsState : Obligations.IdleHoldsState :=
  fun _ hport => step_of_port_nil hport

end Sys2Proof.Machine
end

section
/-! PROOF. What a command can do, in every state: which registers it writes, and that BUF is written inside its 65536 bytes
only. One inversion lemma, `exec_effect`, says it for every command; no invariant is assumed. -/

namespace Sys2Proof.Machine

/-! Writes of the Frame Store (43_frame_store.md): BUF and EACC, no other register. -/

/-- The state `t` is `s` after writes to BUF, each inside it, and to EACC. -/
structure StoreWrite (s t : State) : Prop where
  table : t.table = s.table
  st : t.st = s.st
  cap : t.cap = s.cap
  errKind : t.errKind = s.errKind
  lm : t.lm = s.lm
  ls : t.ls = s.ls
  lmValid : t.lmValid = s.lmValid
  port : t.port = s.port
  resp : t.resp = s.resp
  wf : Memory.wf s.buf → Memory.wf t.buf

namespace StoreWrite

theorem refl (s : State) : StoreWrite s s := ⟨rfl, rfl, rfl, rfl, rfl, rfl, rfl, rfl, rfl, id⟩

theorem trans {s t u : State} (h : StoreWrite s t) (h' : StoreWrite t u) : StoreWrite s u where
  table := h'.table.trans h.table
  st := h'.st.trans h.st
  cap := h'.cap.trans h.cap
  errKind := h'.errKind.trans h.errKind
  lm := h'.lm.trans h.lm
  ls := h'.ls.trans h.ls
  lmValid := h'.lmValid.trans h.lmValid
  port := h'.port.trans h.port
  resp := h'.resp.trans h.resp
  wf := h'.wf ∘ h.wf

theorem setEacc (s : State) (e : BitVec 20) : StoreWrite s (s.setEacc e) :=
  ⟨rfl, rfl, rfl, rfl, rfl, rfl, rfl, rfl, rfl, id⟩

variable {s t : State}

theorem of_write8 {a : Nat} {v : Byte} (h : s.write8 a v = .ok t) : StoreWrite s t := by
  obtain ⟨ha, rfl⟩ := write8_eq_ok.1 h
  exact ⟨rfl, rfl, rfl, rfl, rfl, rfl, rfl, rfl, rfl, fun hwf => Memory.wf_write hwf ha⟩

theorem of_write16 {a : Nat} {v : Half} (h : s.write16 a v = .ok t) : StoreWrite s t := by
  obtain ⟨s1, h1, h2⟩ := bind_eq_ok.1 h
  exact (of_write8 h1).trans (of_write8 h2)

/-- appendFrame (R161). -/
theorem of_appendFrame {k : FrameKind} {e : BitVec 20} (h : s.appendFrame k e = .ok t) : StoreWrite s t := by
  obtain ⟨n, -, h⟩ := bind_eq_ok.1 h
  split at h
  · cases h
  · obtain ⟨off, -, h⟩ := bind_eq_ok.1 h
    split at h
    · cases h
    · obtain ⟨s1, h1, h⟩ := bind_eq_ok.1 h
      obtain ⟨s2, h2, h⟩ := bind_eq_ok.1 h
      obtain ⟨s3, h3, h4⟩ := bind_eq_ok.1 h
      exact (((of_write16 h1).trans (of_write16 h2)).trans (of_write16 h3)).trans (of_write8 h4)

/-- writeBit (R163). -/
theorem of_writeBit {b : Bool} (h : s.writeBit b = .ok t) : StoreWrite s t := by
  obtain ⟨p, -, h⟩ := bind_eq_ok.1 h
  obtain ⟨kb, -, h⟩ := bind_eq_ok.1 h
  dsimp only at h
  split at h
  · cases h
  · obtain ⟨old, -, h⟩ := bind_eq_ok.1 h
    obtain ⟨s1, h1, h2⟩ := bind_eq_ok.1 h
    exact (of_write8 h1).trans (of_write16 h2)

/-- addElapsed (R167). -/
theorem of_addElapsed {d : BitVec 15} (h : s.addElapsed d = .ok t) : StoreWrite s t := by
  obtain ⟨p, -, h⟩ := bind_eq_ok.1 h
  exact (setEacc s _).trans (of_write16 h)

/-- finalize (R180). -/
theorem of_finalize {i : Nat} (h : s.finalize i = .ok t) : StoreWrite s t := by
  unfold State.finalize at h
  split at h
  · cases h; exact refl s
  · obtain ⟨p, -, h⟩ := bind_eq_ok.1 h
    obtain ⟨q, -, h⟩ := bind_eq_ok.1 h
    obtain ⟨dup, -, h⟩ := bind_eq_ok.1 h
    split at h
    · obtain ⟨kb, -, h⟩ := bind_eq_ok.1 h
      exact of_write16 h
    · cases h; exact refl s

/-- Fixing the session's format (R128). -/
theorem of_fixFormat {f : Format} (h : s.fixFormat f = .ok t) : StoreWrite s t := by
  obtain ⟨fmt, -, h⟩ := bind_eq_ok.1 h
  split at h
  · exact of_write8 h
  · cases h; exact refl s

end StoreWrite

/-! What a sample does when it raises nothing. -/

/-- AWAIT with the sealing sample latched, answered FRAME_BOUNDARY (R146). -/
def State.sealedBy (s : State) (d : BitVec 15) : State := ((s.enter .await).latch d).respond .frameBoundary 0 0

/-- A leader pair that is accepted opens a frame (R128). -/
theorem acceptLeader_effect {s t : State} {d : BitVec 15} (h : s.acceptLeader d = .ok t) :
    ∃ u, StoreWrite s u ∧ t = (u.enter .assemble).continued 0 := by
  unfold State.acceptLeader at h
  split at h
  · cases h
  · obtain ⟨fmt, -, h⟩ := bind_eq_ok.1 h
    split at h
    · cases h
    · obtain ⟨s1, h1, h⟩ := bind_eq_ok.1 h
      obtain ⟨s2, h2, h⟩ := bind_eq_ok.1 h
      cases h
      exact ⟨_, ((StoreWrite.of_appendFrame h1).trans (.of_fixFormat h2)).trans (.setEacc s2 _), rfl⟩

/-- A sync pulse that is long enough only counts time (R141). -/
theorem syncStep_effect {s t : State} {D : Descriptor} {d : BitVec 15} (h : s.syncStep D d = .ok t) :
    ∃ u, StoreWrite s u ∧ t = u.continued 0 := by
  unfold State.syncStep at h
  split at h
  · cases h
  · obtain ⟨u, hu, h⟩ := bind_eq_ok.1 h
    cases h
    exact ⟨u, .of_addElapsed hu, rfl⟩

/-- A sample in a symbol range writes a bit and counts time (R142). -/
theorem symbolStep_effect {s t : State} {b : Bool} {d : BitVec 15} (h : s.symbolStep b d = .ok t) :
    ∃ u, StoreWrite s u ∧ t = u.continued 0 := by
  obtain ⟨p, -, h⟩ := bind_eq_ok.1 h
  obtain ⟨kb, -, h⟩ := bind_eq_ok.1 h
  split at h
  · cases h
  · obtain ⟨s1, h1, h⟩ := bind_eq_ok.1 h
    obtain ⟨s2, h2, h⟩ := bind_eq_ok.1 h
    cases h
    exact ⟨s2, (StoreWrite.of_writeBit h1).trans (.of_addElapsed h2), rfl⟩

/-- Sealing finalizes the frame and returns to AWAIT (R146). -/
theorem sealFrame_effect {s t : State} {d : BitVec 15} (h : s.sealFrame d = .ok t) :
    ∃ u, StoreWrite s u ∧ t = u.sealedBy d := by
  obtain ⟨n, -, h⟩ := bind_eq_ok.1 h
  obtain ⟨u, hu, h⟩ := bind_eq_ok.1 h
  cases h
  exact ⟨u, .of_finalize hu, rfl⟩

/-- A sample in ASSEMBLE either goes on with the frame or seals it (R140, R142). -/
theorem frameStep_effect {s t : State} {e : Edge} {d : BitVec 15} (h : s.frameStep e d = .ok t) :
    ∃ u, StoreWrite s u ∧ (t = u.continued 0 ∨ t = u.sealedBy d) := by
  obtain ⟨D, -, h⟩ := bind_eq_ok.1 h
  split at h
  · unfold State.infoStep at h
    split at h
    · obtain ⟨u, hu, ht⟩ := symbolStep_effect h
      exact ⟨u, hu, .inl ht⟩
    split at h
    · obtain ⟨u, hu, ht⟩ := symbolStep_effect h
      exact ⟨u, hu, .inl ht⟩
    · obtain ⟨boundary, -, h⟩ := bind_eq_ok.1 h
      split at h
      · obtain ⟨u, hu, ht⟩ := sealFrame_effect h
        exact ⟨u, hu, .inr ht⟩
      · cases h
  · obtain ⟨u, hu, ht⟩ := syncStep_effect h
    exact ⟨u, hu, .inl ht⟩

/-! Reads raise no session error and write the response only (R192). -/

/-- The read `x` from `s` ends in an answer, which changes nothing but the response, or in a fault. -/
structure AnswersOnly (s : State) (x : Except Raised State) : Prop where
  ne_session : ∀ k, x ≠ .error (.session k)
  answer : ∀ t, x = .ok t → ∃ o k d, t = s.respond o k d

theorem AnswersOnly.respond (s : State) (o : RespOutcome) (k : BitVec 4) (d : Half) :
    AnswersOnly s (.ok (s.respond o k d)) where
  ne_session := fun _ h => by cases h
  answer := fun _ h => by cases h; exact ⟨o, k, d, rfl⟩

theorem AnswersOnly.bind {α : Type} {s : State} {x : Except Raised α} {f : α → Except Raised State}
    (hx : ∀ k, x ≠ .error (.session k)) (hf : ∀ a, AnswersOnly s (f a)) : AnswersOnly s (x >>= f) where
  ne_session := fun k h => by
    rcases bind_eq_error.1 h with h | ⟨a, -, h⟩
    · exact hx k h
    · exact (hf a).ne_session k h
  answer := fun t h => by
    obtain ⟨a, -, h⟩ := bind_eq_ok.1 h
    exact (hf a).answer t h

theorem AnswersOnly.of_conclude {s t : State} {x : Except Raised State} (hx : AnswersOnly s x)
    (h : s.conclude x = .next t) : ∃ o k d, t = s.respond o k d := by
  rcases conclude_eq_next.1 h with h | ⟨k, h, -⟩
  · exact hx.answer t h
  · exact absurd h (hx.ne_session k)

theorem AnswersOnly.of_readCommand {s t : State} {x : Except Raised State} (hx : AnswersOnly s x)
    (h : s.readCommand x = .next t) : ∃ o k d, t = s.respond o k d := by
  unfold State.readCommand at h
  split at h
  · cases h; exact ⟨_, _, _, rfl⟩
  · exact hx.of_conclude h

theorem frameCount_ne_session {s : State} {k : SessionErrorKind} : s.frameCount ≠ .error (.session k) := by
  simp [State.frameCount, bind_eq_error, read8_ne_session]

theorem offset_ne_session {s : State} {i : Nat} {k : SessionErrorKind} : s.offset i ≠ .error (.session k) := by
  simp [State.offset, bind_eq_error, read16_ne_session]

theorem payloadAddr_ne_session {s : State} {p : Nat} {k : SessionErrorKind} :
    s.payloadAddr p ≠ .error (.session k) := by
  intro h
  rcases bind_eq_error.1 h with h | ⟨kb, -, h⟩
  · exact read16_ne_session h
  · split at h
    · simp [bind_eq_error, offset_ne_session] at h
    · cases h

theorem frameField_ne_session {s : State} {sel : FrameSel} {p : Nat} {k : SessionErrorKind} :
    s.frameField sel p ≠ .error (.session k) := by
  cases sel with
  | kb => exact read16_ne_session
  | elapsed => exact read16_ne_session
  | payload => simp [State.frameField, bind_eq_error, payloadAddr_ne_session]
  | offset => simp [State.frameField]

theorem readRegister_ne_session {s : State} {sel : StatusSel} {k : SessionErrorKind} :
    s.readRegister sel ≠ .error (.session k) := by
  cases sel with
  | status =>
    simp only [State.readRegister, State.readStatus]
    split
    · simp
    · simp [bind_eq_error, read8_ne_session]
  | lm => simp [State.readRegister]
  | ls => simp [State.readRegister]
  | cap => simp [State.readRegister]

/-! Every command. -/

/-- Everything a command can do (41_leader.md to 45_host_commands.md). Where a sample writes the Frame Store, the operation
that writes it is kept, for what the invariants say of it. -/
inductive Effect (s : State) : Instr → State → Prop
  /-- A read, a command error, a sample in UNINIT or ERROR, an unpaired space: only the response. -/
  | answered {i : Instr} (hi : ∀ c, i ≠ .init c) (o : RespOutcome) (k : BitVec 4) (d : Half) : Effect s i (s.respond o k d)
  /-- R191. -/
  | initFailed {c : BitVec 16} (hc : c.toNat < Config.hdrSize) : Effect s (.init c) s.initFail
  /-- R190. -/
  | started {c : BitVec 16} (hc : Config.hdrSize ≤ c.toNat) : Effect s (.init c) (s.startSession c)
  /-- R212: a session error that discards every write. -/
  | raised {e : Edge} {dur : BitVec 24} (hs : s.st = .await ∨ s.st = .assemble) (k : SessionErrorKind) :
      Effect s (sampleOf e dur) (s.raiseSession k)
  /-- R124. -/
  | latched {dur : BitVec 24} (hs : s.st = .await) (hd : dur.toNat ≤ Config.maxDuration) :
      Effect s (.mark dur) ((s.latch (shortDuration dur)).continued 0)
  /-- R127, R129, R130, R162: a leader pair that is not accepted. -/
  | rejected {dur : BitVec 24} (hs : s.st = .await) (hv : s.lmValid = true) (hd : dur.toNat ≤ Config.maxDuration)
      (k : SessionErrorKind) : Effect s (.space dur) ((s.pairSpace (shortDuration dur)).raiseSession k)
  /-- R128. -/
  | opened {dur : BitVec 24} {u : State} (hs : s.st = .await) (hv : s.lmValid = true)
      (hd : dur.toNat ≤ Config.maxDuration) (hu : StoreWrite (s.pairSpace (shortDuration dur)) u)
      (hx : (s.pairSpace (shortDuration dur)).acceptLeader (shortDuration dur) = .ok ((u.enter .assemble).continued 0)) :
      Effect s (.space dur) ((u.enter .assemble).continued 0)
  /-- R141, R143, R144. -/
  | assembled {e : Edge} {dur : BitVec 24} {u : State} (hs : s.st = .assemble) (hu : StoreWrite s u)
      (hx : s.frameStep e (shortDuration dur) = .ok (u.continued 0)) : Effect s (sampleOf e dur) (u.continued 0)
  /-- R146. -/
  | sealed {e : Edge} {dur : BitVec 24} {u : State} (hs : s.st = .assemble) (hd : dur.toNat ≤ Config.maxDuration)
      (hu : StoreWrite s u) (hx : s.frameStep e (shortDuration dur) = .ok (u.sealedBy (shortDuration dur))) :
      Effect s (sampleOf e dur) (u.sealedBy (shortDuration dur))

theorem sampleOf_ne_init (e : Edge) (dur : BitVec 24) (c : BitVec 16) : sampleOf e dur ≠ .init c := by
  cases e <;> exact nofun

/-- The command that delivers a sample is SAMPLE (R81, R121). -/
theorem exec_sampleOf (e : Edge) (dur : BitVec 24) (s : State) : exec (sampleOf e dur) s = s.sample e dur := by
  cases e <;> rfl

theorem le_maxDuration {dur : BitVec 24} (h : ¬ unrepresentable dur = true) : dur.toNat ≤ Config.maxDuration := by
  rw [unrepresentable_iff] at h
  exact Nat.le_of_not_lt h

/-- SAMPLE in AWAIT (R123). -/
theorem leaderStep_effect {s t : State} {e : Edge} {dur : BitVec 24} (hs : s.st = .await)
    (hd : dur.toNat ≤ Config.maxDuration) (h : s.leaderStep e (shortDuration dur) = .next t) :
    Effect s (sampleOf e dur) t := by
  cases e with
  | mark => cases h; exact .latched hs hd
  | space =>
    unfold State.leaderStep State.leaderPair at h
    dsimp only at h
    split at h
    · next hv =>
      rcases conclude_eq_next.1 h with hx | ⟨k, -, rfl⟩
      · obtain ⟨u, hu, rfl⟩ := acceptLeader_effect hx
        exact .opened hs hv hd hu hx
      · exact .rejected hs hv hd k
    · cases h; exact .answered (sampleOf_ne_init .space dur) _ _ _

/-- SAMPLE (R120, R121, R122). -/
theorem sample_effect {s t : State} {e : Edge} {dur : BitVec 24} (h : s.sample e dur = .next t) :
    Effect s (sampleOf e dur) t := by
  unfold State.sample at h
  split at h
  · cases h; exact .answered (sampleOf_ne_init e dur) _ _ _
  · cases h; exact .answered (sampleOf_ne_init e dur) _ _ _
  · next hs =>
    split at h
    · cases h; exact .raised (.inl hs) .timingOverflow
    · next hd => exact leaderStep_effect hs (le_maxDuration hd) h
  · next hs =>
    split at h
    · cases h; exact .raised (.inr hs) .timingOverflow
    · next hd =>
      rcases conclude_eq_next.1 h with hx | ⟨k, -, rfl⟩
      · obtain ⟨u, hu, rfl | rfl⟩ := frameStep_effect hx
        · exact .assembled hs hu hx
        · exact .sealed hs (le_maxDuration hd) hu hx
      · exact .raised (.inr hs) k

/-- INIT (R190, R191). -/
theorem init_effect {s t : State} {c : BitVec 16} (h : execInit c s = .next t) : Effect s (.init c) t := by
  unfold execInit at h
  split at h
  · next hc => cases h; exact .initFailed hc
  · next hc => cases h; exact .started (Nat.le_of_not_lt hc)

theorem rdcount_answers {s t : State} (h : execRdcount s = .next t) : ∃ o k d, t = s.respond o k d :=
  AnswersOnly.of_readCommand (.bind (fun _ => read8_ne_session) fun _ => .respond ..) h

theorem rdframe_answers {s t : State} {sel : FrameSel} {index : BitVec 8} (h : execRdframe sel index s = .next t) :
    ∃ o k d, t = s.respond o k d := by
  refine AnswersOnly.of_readCommand (.bind (fun _ => frameCount_ne_session) fun n => ?_) h
  split
  · exact .respond ..
  · exact .bind (fun _ => offset_ne_session) fun _ => .bind (fun _ => frameField_ne_session) fun _ => .respond ..

theorem rdbyte_answers {s t : State} {addr : BitVec 16} (h : execRdbyte addr s = .next t) :
    ∃ o k d, t = s.respond o k d := by
  refine AnswersOnly.of_readCommand ?_ h
  split
  · exact .respond ..
  · exact .bind (fun _ => read8_ne_session) fun _ => .respond ..

theorem rdstatus_answers {s t : State} {sel : StatusSel} (h : execRdstatus sel s = .next t) :
    ∃ o k d, t = s.respond o k d :=
  AnswersOnly.of_conclude (.bind (fun _ => readRegister_ne_session) fun _ => .respond ..) h

theorem Effect.of_answer {i : Instr} {s t : State} (hi : ∀ c, i ≠ .init c) (h : ∃ o k d, t = s.respond o k d) :
    Effect s i t := by
  obtain ⟨o, k, d, rfl⟩ := h
  exact .answered hi o k d

/-- Every command that gives a next state has one of the effects. -/
theorem exec_effect {i : Instr} {s t : State} (h : exec i s = .next t) : Effect s i t := by
  cases i with
  | init c => exact init_effect h
  | mark dur => exact sample_effect (e := .mark) h
  | space dur => exact sample_effect (e := .space) h
  | rdcount => exact .of_answer (by exact nofun) (rdcount_answers h)
  | rdframe sel index => exact .of_answer (by exact nofun) (rdframe_answers h)
  | rdbyte addr => exact .of_answer (by exact nofun) (rdbyte_answers h)
  | rdstatus sel => exact .of_answer (by exact nofun) (rdstatus_answers h)

end Sys2Proof.Machine
end

section
/-! PROOF. The registers: who writes ERR_KIND, the leader latch and STATE, and that nothing writes the Format Table (10_state.md
R22 to R26, R30). Each is read off `exec_effect`. -/

namespace Sys2Proof.Machine

/-- The response that takes a session error carries its kind (R86, R212). -/
theorem respWord_sessionError (k : SessionErrorKind) : respWord .sessionError k.code 0 = 0x2#4 ++ k.code ++ 0#24 := by
  cases k <;> rfl

/-- The duration a sample latches is the one it was issued with (R121, R122). -/
theorem shortDuration_eq (dur : BitVec 24) : shortDuration dur = BitVec.ofNat 15 dur.toNat := by
  apply BitVec.eq_of_toNat_eq
  simp [shortDuration]

/-- Settles O35. -/
theorem errKindWrites : Obligations.ErrKindWrites := by
  have written : ∀ (i : Instr) (s t : State), exec i s = .next t →
      (∃ c : BitVec 16, i = .init c ∧ t.errKind = if c.toNat < 22 then 7 else 0) ∨
      ((∀ c, i ≠ .init c) ∧ (s.st = .await ∨ s.st = .assemble) ∧ t.st = .error ∧
        t.resp = some (0x2#4 ++ t.errKind ++ 0#24)) ∨
      ((∀ c, i ≠ .init c) ∧ t.errKind = s.errKind) := by
    intro i s t h
    cases exec_effect h with
    | answered hi => exact .inr (.inr ⟨hi, rfl⟩)
    | initFailed hc => exact .inl ⟨_, rfl, (if_pos hc).symm⟩
    | started hc => exact .inl ⟨_, rfl, (if_neg (Nat.not_lt.2 hc)).symm⟩
    | raised hs k =>
      exact .inr (.inl ⟨sampleOf_ne_init _ _, hs, rfl, congrArg some (respWord_sessionError k)⟩)
    | latched => exact .inr (.inr ⟨nofun, rfl⟩)
    | rejected hs hv hd k => exact .inr (.inl ⟨nofun, .inl hs, rfl, congrArg some (respWord_sessionError k)⟩)
    | opened hs hv hd hu => exact .inr (.inr ⟨nofun, hu.errKind⟩)
    | assembled hs hu => exact .inr (.inr ⟨sampleOf_ne_init _ _, hu.errKind⟩)
    | sealed hs hd hu => exact .inr (.inr ⟨sampleOf_ne_init _ _, hu.errKind⟩)
  refine ⟨written, fun i s t h hs hi => ?_, fun _ => rfl⟩
  rcases written i s t h with ⟨c, rfl, -⟩ | ⟨-, hrun, -⟩ | ⟨-, hkept⟩
  · exact absurd rfl (hi c)
  · rw [hs] at hrun; exact absurd hrun (by decide)
  · exact hkept

/-- Settles O36. -/
theorem latchWrites : Obligations.LatchWrites := by
  intro i s t h
  cases exec_effect h with
  | answered => exact .inl ⟨rfl, rfl, rfl⟩
  | initFailed hc => exact .inr (.inl ⟨_, rfl, rfl, .inr ⟨hc, rfl, rfl⟩⟩)
  | started hc => exact .inr (.inl ⟨_, rfl, rfl, .inl ⟨hc, rfl, rfl⟩⟩)
  | raised => exact .inl ⟨rfl, rfl, rfl⟩
  | latched hs hd => exact .inr (.inr (.inl ⟨_, rfl, hs, hd, shortDuration_eq _, rfl, rfl⟩))
  | rejected hs hv hd k => exact .inr (.inr (.inr (.inr ⟨_, rfl, hs, hv, hd, shortDuration_eq _, rfl, rfl⟩)))
  | opened hs hv hd hu =>
    exact .inr (.inr (.inr (.inr ⟨_, rfl, hs, hv, hd, hu.ls.trans (shortDuration_eq _), hu.lmValid, hu.lm⟩)))
  | assembled hs hu => exact .inl ⟨hu.lm, hu.ls, hu.lmValid⟩
  | sealed hs hd hu =>
    exact .inr (.inr (.inr (.inl ⟨_, _, rfl, hs, hd, rfl, shortDuration_eq _, rfl, hu.ls⟩)))

/-- Settles O37. -/
theorem stateTransitions : Obligations.StateTransitions := by
  intro i s t h
  cases exec_effect h with
  | answered => exact .inl rfl
  | initFailed hc => exact .inr (.inl ⟨_, rfl, (if_pos hc).symm⟩)
  | started hc => exact .inr (.inl ⟨_, rfl, (if_neg (Nat.not_lt.2 hc)).symm⟩)
  | raised hs => exact .inr (.inr (.inr (.inr ⟨_, _, rfl, hs, rfl⟩)))
  | latched => exact .inl rfl
  | rejected hs => exact .inr (.inr (.inr (.inr ⟨.space, _, rfl, .inl hs, rfl⟩)))
  | opened hs => exact .inr (.inr (.inl ⟨_, rfl, hs, rfl⟩))
  | assembled hs hu => exact .inl hu.st
  | sealed hs => exact .inr (.inr (.inr (.inl ⟨_, _, rfl, hs, rfl, rfl⟩)))

/-- R30, log entry 1: no command writes the Format Table or touches the host's events. -/
theorem Effect.keeps_table_port {i : Instr} {s t : State} (h : Effect s i t) : t.table = s.table ∧ t.port = s.port := by
  cases h with
  | opened hs hv hd hu => exact ⟨hu.table, hu.port⟩
  | assembled hs hu => exact ⟨hu.table, hu.port⟩
  | sealed hs hd hu => exact ⟨hu.table, hu.port⟩
  | _ => exact ⟨rfl, rfl⟩

/-- What a step can do (R6, R65, R230): nothing, a reset, or one command, run from the state without the event. -/
theorem step_effect {s t : State} (h : step s = .next t) :
    t = s ∨ (∃ rest, t = (s.withPort rest).hardReset) ∨
      (∃ rest, t = (s.withPort rest).raiseCommand .illegalCommand) ∨ ∃ i rest, Effect (s.withPort rest) i t := by
  rcases hport : s.port with _ | ⟨event, rest⟩
  · rw [step_of_port_nil hport] at h; cases h; exact .inl rfl
  rcases event with w | _
  · rw [step_of_port_command hport] at h
    rcases hdec : decode w with e | i
    · rw [runWord_of_decode_error hdec] at h; cases h; exact .inr (.inr (.inl ⟨rest, rfl⟩))
    · rw [runWord_of_decode_ok hdec] at h
      exact .inr (.inr (.inr ⟨i, rest, exec_effect h⟩))
  · rw [step_of_port_reset hport] at h; cases h; exact .inr (.inl ⟨rest, rfl⟩)

/-- Settles O45. -/
theorem formatTableConstant : Obligations.FormatTableConstant := by
  refine ⟨fun i s t h => (exec_effect h).keeps_table_port, fun s t h => ?_⟩
  rcases step_effect h with rfl | ⟨rest, rfl⟩ | ⟨rest, rfl⟩ | ⟨i, rest, he⟩
  · rfl
  · rfl
  · rfl
  · exact he.keeps_table_port.1

end Sys2Proof.Machine
end

section
/-! PROOF. The Frame Store's invariants through every command (10_state.md R34): what a leader pair and a sample in ASSEMBLE
give under `StoreInv`, that each keeps `Inv`, that none faults, and what a reader of R34 gets from it. -/

namespace Sys2Proof.Machine

/-! What the samples give under the invariants of the Frame Store. -/

/-- What a leader pair gives after its two committed writes (R128). -/
inductive LeaderOutcome (s : State) (d : BitVec 15) : Except Raised State → Prop
  | raised (k : SessionErrorKind) : LeaderOutcome s d (.error (.session k))
  | opened (f : Format) (k : FrameKind) (hk : k ≠ .sameAsFirst) (hn : s.frames < 10)
      (hcap : s.nextOffset + 4 ≤ s.cap.toNat) :
      LeaderOutcome s d (.ok ((s.frameOpened f k (sat20 (s.lm.toNat + d.toNat))).continued 0))

/-- What a sample in ASSEMBLE gives (R140 to R150). -/
inductive FrameOutcome (s : State) (d : BitVec 15) : Except Raised State → Prop
  | raised (k : SessionErrorKind) : FrameOutcome s d (.error (.session k))
  | timed : FrameOutcome s d (.ok ((s.elapsedAdded d).continued 0))
  | bit (b : Bool) (hn : s.bitsAt s.current ≠ Config.maxBitCount)
      (hcap : s.bitsAt s.current % 8 = 0 → s.bitAddr < s.cap.toNat)
      (hkind : s.kindAt s.current ≠ FrameKind.repeater.code) :
      FrameOutcome s d (.ok (((s.bitWritten b).elapsedAdded d).continued 0))
  | sealedSame (hne : s.current ≠ 0) (hdup : s.duplicatesFirst s.current) :
      FrameOutcome s d (.ok ((s.markedSame s.current).sealedBy d))
  | sealed : FrameOutcome s d (.ok (s.sealedBy d))

/-- No outcome is a fault: the command ends with a next state. -/
theorem LeaderOutcome.exists_conclude {s : State} {d : BitVec 15} {x : Except Raised State} (hx : LeaderOutcome s d x)
    (base : State) : ∃ t, base.conclude x = .next t := by
  cases hx with
  | raised k => exact ⟨_, conclude_session base k⟩
  | opened => exact ⟨_, conclude_ok base _⟩

theorem FrameOutcome.exists_conclude {s : State} {d : BitVec 15} {x : Except Raised State} (hx : FrameOutcome s d x)
    (base : State) : ∃ t, base.conclude x = .next t := by
  cases hx with
  | raised k => exact ⟨_, conclude_session base k⟩
  | timed | bit | sealedSame | sealed => exact ⟨_, conclude_ok base _⟩

namespace StoreInv

variable {s : State} (h : StoreInv s)
include h

theorem acceptLeader_outcome (d : BitVec 15) : LeaderOutcome s d (s.acceptLeader d) := by
  have h10 := h.frames_le
  rw [h.acceptLeader_eq]
  split
  · exact .raised .unrecognizedLeader
  · next f k hm =>
    split
    · exact .raised .formatMismatch
    split
    · exact .raised .bufferOverflow
    · next hroom =>
      simp only [Config.maxFrames, Config.recHdr, not_or, Nat.not_lt] at hroom
      exact .opened f k (matchLeader_ne_same hm) (by omega) hroom.2

variable (hf : 1 ≤ s.frames)
include hf

theorem symbolStep_outcome (hs : s.kindAt s.current ≠ FrameKind.sameAsFirst.code) (b : Bool) (d : BitVec 15) :
    FrameOutcome s d (s.symbolStep b d) := by
  rw [h.symbolStep_eq hf hs]
  split
  · exact .raised .unexpectedTiming
  · next hk =>
    split
    · exact .raised .bufferOverflow
    · next hn =>
      rw [not_or, not_and, Nat.not_le] at hn
      exact .bit b hn.1 hn.2 hk

theorem sealFrame_outcome (d : BitVec 15) : FrameOutcome s d (s.sealFrame d) := by
  rcases h.sealFrame_eq hf d with ⟨hne, hdup, hx⟩ | ⟨-, hx⟩
  · rw [hx]; exact .sealedSame hne hdup
  · rw [hx]; exact .sealed

theorem infoStep_outcome (hs : s.kindAt s.current ≠ FrameKind.sameAsFirst.code) (D : Descriptor) (d : BitVec 15) :
    FrameOutcome s d (s.infoStep D d) := by
  unfold State.infoStep
  split
  · exact h.symbolStep_outcome hf hs false d
  split
  · exact h.symbolStep_outcome hf hs true d
  · rw [h.isBoundary_eq hf, ok_bind]
    split
    · exact h.sealFrame_outcome hf d
    · exact .raised .unexpectedTiming

theorem syncStep_outcome (D : Descriptor) (d : BitVec 15) : FrameOutcome s d (s.syncStep D d) := by
  rw [h.syncStep_eq hf]
  split
  · exact .raised .timingTooShort
  · exact .timed

omit hf in
theorem frameStep_outcome (hst : s.st = .assemble) (e : Edge) (d : BitVec 15) :
    FrameOutcome s d (s.frameStep e d) := by
  have hf := h.openFrame hst
  obtain ⟨f, hfmt⟩ := h.exists_format hf
  unfold State.frameStep
  rw [h.descriptor_eq hfmt, ok_bind]
  split
  · exact h.infoStep_outcome hf (h.openKind hst) _ d
  · exact h.syncStep_outcome hf _ d

/-! Every operation keeps the invariants. -/

omit hf

theorem keep_continued (d : Half) : StoreInv (s.continued d) := h.of_registers rfl rfl rfl id

/-- An accepted leader pair has opened a frame, and there was room for it (R128, R161). -/
theorem eq_frameOpened_of_acceptLeader {t : State} {d : BitVec 15} (hx : s.acceptLeader d = .ok t) :
    ∃ f k, k ≠ .sameAsFirst ∧ s.frames < 10 ∧ s.nextOffset + 4 ≤ s.cap.toNat ∧
      t = (s.frameOpened f k (sat20 (s.lm.toNat + d.toNat))).continued 0 := by
  have ho := h.acceptLeader_outcome d
  rw [hx] at ho
  cases ho with
  | opened f k hk hn hcap => exact ⟨f, k, hk, hn, hcap, rfl⟩

theorem keep_acceptLeader {t : State} {d : BitVec 15} (hx : s.acceptLeader d = .ok t) : StoreInv t := by
  obtain ⟨f, k, hk, hn, hcap, rfl⟩ := h.eq_frameOpened_of_acceptLeader hx
  exact (h.keep_frameOpened f k _ hn hcap hk).keep_continued 0

theorem frames_bitWritten (hf : 1 ≤ s.frames) (b : Bool) : (s.bitWritten b).frames = s.frames := by
  have hr := h.record_ge (State.current_lt hf)
  have ha := bitAddr_ge s
  exact frames_low (L := 22) (fun c hc => byteAt_bitWritten s b c (by omega) (by omega) (by omega)) (Nat.le_refl _)

theorem keep_frameStep {t : State} (hst : s.st = .assemble) {e : Edge} {d : BitVec 15}
    (hx : s.frameStep e d = .ok t) : StoreInv t := by
  have hf := h.openFrame hst
  have ho := h.frameStep_outcome hst e d
  rw [hx] at ho
  cases ho with
  | timed => exact (h.keep_elapsedAdded hf d).keep_continued 0
  | bit b hn hcap hkind =>
    have hbit := h.keep_bitWritten hf b hn hcap hkind (h.openKind hst)
    have hf' : 1 ≤ (s.bitWritten b).frames := by rw [h.frames_bitWritten hf]; exact hf
    exact (hbit.keep_elapsedAdded hf' d).keep_continued 0
  | sealedSame hne hdup => exact (h.keep_markedSame hf hne hdup).of_registers rfl rfl rfl nofun
  | sealed => exact h.of_registers rfl rfl rfl nofun

/-- A sample in ASSEMBLE writes nothing below the current record (R168). -/
theorem byteAt_frameStep {t : State} (hst : s.st = .assemble) {e : Edge} {d : BitVec 15}
    (hx : s.frameStep e d = .ok t) {c : Nat} (hc : c < s.recordAt s.current) : t.byteAt c = s.byteAt c := by
  have hf := h.openFrame hst
  have hr := h.record_ge (State.current_lt hf)
  have ho := h.frameStep_outcome hst e d
  rw [hx] at ho
  cases ho with
  | timed => exact byteAt_elapsedAdded s d c (by omega) (by omega)
  | bit b =>
    have ha := bitAddr_ge s
    have hrec : (s.bitWritten b).recordAt (s.bitWritten b).current = s.recordAt s.current := by
      rw [State.current, h.frames_bitWritten hf]
      exact h.record_bitWritten hf b
    calc ((s.bitWritten b).elapsedAdded d).byteAt c
      _ = (s.bitWritten b).byteAt c := byteAt_elapsedAdded _ d c (by omega) (by omega)
      _ = s.byteAt c := byteAt_bitWritten s b c (by omega) (by omega) (by omega)
  | sealedSame => exact byteAt_markedSame s _ c (by omega) (by omega)
  | sealed => rfl

end StoreInv

/-! The invariant of the machine through the registers. -/

/-- R211: the kinds ERR_KIND holds in ERROR. -/
theorem SessionErrorKind.code_legal (k : SessionErrorKind) : 1 ≤ k.code.toNat ∧ k.code.toNat ≤ 6 := by
  cases k <;> decide

theorem ne_uninit_of_running {s : State} (hs : s.st = .await ∨ s.st = .assemble) : s.st ≠ .uninit := by
  rcases hs with hs | hs <;> rw [hs] <;> exact nofun

/-- R33, R34: UNINIT with the registers of reset meets the invariant, whatever the canonical BUF holds. -/
theorem Inv.of_reset {s : State} (htable : s.table.wellFormed = true) (hwf : Memory.wf s.buf) (hst : s.st = .uninit)
    (herr : s.errKind = 0) (hcap : s.cap = 0) (hlatch : s.lmValid = false) : Inv s where
  tableWf := htable
  bufWf := hwf
  errKindLegal := ⟨fun _ => .inl herr, fun _ => herr, fun he => by rw [hst] at he; cases he⟩
  uninitCap := fun _ => hcap
  latchState := fun hv => by rw [hlatch] at hv; cases hv
  store := fun hs => absurd hst hs

namespace Inv

variable {s : State} (h : Inv s)
include h

/-- R34's items about BUF while samples are taken. -/
theorem store_of_running (hs : s.st = .await ∨ s.st = .assemble) : StoreInv s := h.store (ne_uninit_of_running hs)

theorem respond (o : RespOutcome) (k : BitVec 4) (d : Half) : Inv (s.respond o k d) :=
  { h with store := fun hs => (h.store hs).of_registers rfl rfl rfl id }

theorem withPort (rest : List HostEvent) : Inv (s.withPort rest) :=
  { h with store := fun hs => (h.store hs).of_registers rfl rfl rfl id }

/-- R230, R231. -/
theorem hardReset : Inv s.hardReset := .of_reset h.tableWf h.bufWf rfl rfl rfl rfl

/-- R191. -/
theorem initFail : Inv s.initFail where
  tableWf := h.tableWf
  bufWf := h.bufWf
  errKindLegal := ⟨fun _ => .inr rfl, nofun, nofun⟩
  uninitCap := fun _ => rfl
  latchState := nofun
  store := fun hs => absurd rfl hs

/-- R190. -/
theorem startSession {c : BitVec 16} (hc : Config.hdrSize ≤ c.toNat) : Inv (s.startSession c) where
  tableWf := h.tableWf
  bufWf := Memory.wf_zeroBelow h.bufWf (Nat.le_of_lt c.isLt)
  errKindLegal := ⟨fun _ => .inl rfl, fun _ => rfl, nofun⟩
  uninitCap := nofun
  latchState := nofun
  store := fun _ => storeInv_startSession hc

/-- R212: ERROR keeps the Frame Store of the session it ends. -/
theorem raiseSession (hs : s.st ≠ .uninit) (k : SessionErrorKind) : Inv (s.raiseSession k) where
  tableWf := h.tableWf
  bufWf := h.bufWf
  errKindLegal := ⟨nofun, nofun, fun _ => SessionErrorKind.code_legal k⟩
  uninitCap := nofun
  latchState := fun _ => .inr rfl
  store := fun _ => (h.store hs).of_registers rfl rfl rfl nofun

/-- R127. -/
theorem pairSpace (d : BitVec 15) : Inv (s.pairSpace d) :=
  { h with latchState := nofun, store := fun hs => (h.store hs).keep_pairSpace d }

/-- R124, R34 item 10. -/
theorem latch (hs : s.st = .await) (d : BitVec 15) : Inv (s.latch d) :=
  { h with latchState := fun _ => .inl hs, store := fun hs => (h.store hs).of_registers rfl rfl rfl id }

/-- A sample that writes the Frame Store and stays in the session keeps the invariant if it keeps the Frame Store's and
latches in AWAIT only. -/
theorem of_storeWrite {t u : State} (hu : StoreWrite s u) (hs : s.st = .await ∨ s.st = .assemble)
    (table : t.table = u.table) (buf : t.buf = u.buf) (errKind : t.errKind = u.errKind)
    (hst : t.st = .await ∨ t.st = .assemble) (latch : t.lmValid = true → t.st = .await) (store : StoreInv t) : Inv t where
  tableWf := by rw [table, hu.table]; exact h.tableWf
  bufWf := by rw [buf]; exact hu.wf h.bufWf
  errKindLegal := by
    obtain ⟨-, hzero, -⟩ := h.errKindLegal
    have herr : t.errKind = 0 := by rw [errKind, hu.errKind]; exact hzero hs
    exact ⟨fun _ => .inl herr, fun _ => herr, fun he => by rw [he] at hst; simp at hst⟩
  uninitCap := fun hn => absurd hn (ne_uninit_of_running hst)
  latchState := fun hv => .inl (latch hv)
  store := fun _ => store

end Inv

/-- Every effect of a command keeps the invariant (R34). -/
theorem Effect.keeps_inv {i : Instr} {s t : State} (he : Effect s i t) (h : Inv s) : Inv t := by
  cases he with
  | answered _ o k d => exact h.respond o k d
  | initFailed => exact h.initFail
  | started hc => exact h.startSession hc
  | raised hs k => exact h.raiseSession (ne_uninit_of_running hs) k
  | latched hs => exact (h.latch hs _).respond ..
  | rejected hs _ _ k => exact (h.pairSpace _).raiseSession (ne_uninit_of_running (.inl hs)) k
  | opened hs _ _ hu hx =>
    have hstore := ((h.store_of_running (.inl hs)).keep_pairSpace _).keep_acceptLeader hx
    exact (h.pairSpace _).of_storeWrite hu (.inl hs) rfl rfl rfl (.inr rfl)
      (fun hv => by rw [State.continued_lmValid, State.enter_lmValid, hu.lmValid] at hv; cases hv) hstore
  | assembled hs hu hx =>
    have hstore := (h.store_of_running (.inr hs)).keep_frameStep hs hx
    refine h.of_storeWrite hu (.inr hs) rfl rfl rfl (.inr (hu.st.trans hs)) (fun hv => ?_) hstore
    rcases h.latchState (hu.lmValid.symm.trans hv) with ha | ha <;> rw [hs] at ha <;> cases ha
  | sealed hs _ hu hx =>
    have hstore := (h.store_of_running (.inr hs)).keep_frameStep hs hx
    exact h.of_storeWrite hu (.inr hs) rfl rfl rfl (.inl rfl) (fun _ => rfl) hstore

/-- Settles O41. -/
theorem stepKeepsInvariant : Obligations.StepKeepsInvariant := by
  intro s t h hstep
  rcases step_effect hstep with rfl | ⟨rest, rfl⟩ | ⟨rest, rfl⟩ | ⟨i, rest, he⟩
  · exact h
  · exact (h.withPort rest).hardReset
  · exact (h.withPort rest).respond ..
  · exact he.keeps_inv (h.withPort rest)

/-- Settles O40. -/
theorem resetMeetsInvariant : Obligations.ResetMeetsInvariant :=
  .of_reset (by decide) ⟨.nil, nofun⟩ rfl rfl rfl rfl

/-- Settles O11. -/
theorem resetStateValues : Obligations.ResetStateValues :=
  ⟨rfl, rfl, rfl, rfl, rfl, rfl, rfl, fun _ => rfl, rfl, rfl, rfl⟩

/-! Every command gives a next state. -/

/-- The selected field of a frame can be read (R194). -/
theorem StoreInv.exists_frameField {s : State} (h : StoreInv s) (sel : FrameSel) {i : Nat} (hi : i < s.frames) :
    ∃ v, s.frameField sel (s.recordAt i) = .ok v := by
  cases sel with
  | kb => exact ⟨_, h.readKb hi⟩
  | elapsed => exact ⟨_, h.readElapsed hi⟩
  | payload => exact ⟨_, by rw [State.frameField, h.payloadAddr_eq hi]; rfl⟩
  | offset => exact ⟨_, rfl⟩

namespace Inv

variable {s : State} (h : Inv s)
include h

/-- SAMPLE (R120 to R123, R140). -/
theorem exists_sample (e : Edge) (dur : BitVec 24) : ∃ t, s.sample e dur = .next t := by
  unfold State.sample
  split
  · exact ⟨_, rfl⟩
  · exact ⟨_, rfl⟩
  · next hs =>
    split
    · exact ⟨_, rfl⟩
    cases e with
    | mark => exact ⟨_, rfl⟩
    | space =>
      unfold State.leaderStep
      dsimp only
      split
      · exact (((h.store_of_running (.inl hs)).keep_pairSpace _).acceptLeader_outcome _).exists_conclude _
      · exact ⟨_, rfl⟩
  · next hs =>
    split
    · exact ⟨_, rfl⟩
    · exact ((h.store_of_running (.inr hs)).frameStep_outcome hs e _).exists_conclude s

omit h in
/-- A read that succeeds in a session answers, and one in UNINIT is refused (R192). -/
theorem exists_readCommand {read : Except Raised State} (hread : s.st ≠ .uninit → ∃ t, read = .ok t) :
    ∃ t, s.readCommand read = .next t := by
  unfold State.readCommand
  split
  · exact ⟨_, rfl⟩
  · next hs =>
    obtain ⟨t, rfl⟩ := hread hs
    exact ⟨t, rfl⟩

/-- RDCOUNT (R193). -/
theorem exists_rdcount : ∃ t, execRdcount s = .next t :=
  exists_readCommand fun hs => ⟨_, by rw [(h.store hs).readCount]; rfl⟩

/-- RDFRAME (R194, R195). -/
theorem exists_rdframe (sel : FrameSel) (index : BitVec 8) : ∃ t, execRdframe sel index s = .next t := by
  refine exists_readCommand fun hs => ?_
  have hstore := h.store hs
  have h10 := hstore.frames_le
  rw [hstore.frameCount, ok_bind]
  split
  · exact ⟨_, rfl⟩
  · next hi =>
    obtain ⟨v, hv⟩ := hstore.exists_frameField sel (Nat.lt_of_not_le hi)
    rw [hstore.offset (by omega), ok_bind, hv]
    exact ⟨_, rfl⟩

/-- RDBYTE (R196). -/
theorem exists_rdbyte (addr : BitVec 16) : ∃ t, execRdbyte addr s = .next t := by
  refine exists_readCommand fun hs => ?_
  split
  · exact ⟨_, rfl⟩
  · next ha => exact ⟨_, by rw [(h.store hs).read8 (BitVec.not_le.1 ha)]; rfl⟩

/-- RDSTATUS (R198). -/
theorem exists_rdstatus (sel : StatusSel) : ∃ t, execRdstatus sel s = .next t := by
  have hread : ∃ v, s.readRegister sel = .ok v := by
    cases sel with
    | status =>
      unfold State.readRegister State.readStatus
      dsimp only
      split
      · exact ⟨_, rfl⟩
      · next hs => exact ⟨_, by rw [(h.store hs).readFormat, ok_bind, (h.store hs).readCount]; rfl⟩
    | lm => exact ⟨_, rfl⟩
    | ls => exact ⟨_, rfl⟩
    | cap => exact ⟨_, rfl⟩
  obtain ⟨v, hv⟩ := hread
  exact ⟨_, by rw [execRdstatus, hv]; rfl⟩

/-- R34, R51: no command faults. -/
theorem exists_exec (i : Instr) : ∃ t, exec i s = .next t := by
  cases i with
  | init c =>
    show ∃ t, execInit c s = .next t
    unfold execInit
    split <;> exact ⟨_, rfl⟩
  | mark dur => exact h.exists_sample .mark dur
  | space dur => exact h.exists_sample .space dur
  | rdcount => exact h.exists_rdcount
  | rdframe sel index => exact h.exists_rdframe sel index
  | rdbyte addr => exact h.exists_rdbyte addr
  | rdstatus sel => exact h.exists_rdstatus sel

end Inv

/-- Settles O42. -/
theorem stepNeverStops : Obligations.StepNeverStops := by
  intro s h
  rcases hport : s.port with _ | ⟨event, rest⟩
  · exact ⟨_, step_of_port_nil hport⟩
  rcases event with w | _
  · rw [step_of_port_command hport]
    rcases hdec : decode w with e | i
    · exact ⟨_, runWord_of_decode_error hdec _⟩
    · rw [runWord_of_decode_ok hdec]
      exact (h.withPort rest).exists_exec i
  · exact ⟨_, step_of_port_reset hport⟩

/-! The items of R34. -/

theorem Format.code_eq (f : Format) : f.code = 1 ∨ f.code = 2 ∨ f.code = 3 := by
  cases f with
  | nec => exact .inl rfl
  | kadenkyo => exact .inr (.inl rfl)
  | sony => exact .inr (.inr rfl)

/-- R34 item 8: the bits of the last payload byte past the bit count are 0. -/
theorem StoreInv.padding_zero {s : State} (h : StoreInv s) {i j : Nat} (hi : i < s.frames) (hret : s.retained i)
    (hlo : s.bitsAt i ≤ j) (hhi : j < 8 * ceil8 (s.bitsAt i)) : (s.payloadAt i (j / 8)).getLsbD (7 - j % 8) = false := by
  have hbyte : j / 8 = s.bitsAt i / 8 := by unfold ceil8 at hhi; omega
  have hne : s.bitsAt i % 8 ≠ 0 := by unfold ceil8 at hhi; omega
  have hmask : (0xFF#8 >>> (s.bitsAt i % 8)).getLsbD (7 - j % 8) = true := by
    rw [BitVec.getLsbD_ushiftRight, show 0xFF#8 = BitVec.allOnes 8 from rfl, BitVec.getLsbD_allOnes]
    exact decide_eq_true (by omega)
  have hzero := congrArg (·.getLsbD (7 - j % 8)) (h.trailingZero i hi hret hne)
  rw [hbyte]
  simpa [hmask] using hzero

/-- Settles O43. -/
theorem invariantGivesListedItems : Obligations.InvariantGivesListedItems := by
  intro s hinv hs
  have h := hinv.store hs
  have format : 1 ≤ s.frames → s.formatByte = 1 ∨ s.formatByte = 2 ∨ s.formatByte = 3 := fun hf => by
    obtain ⟨f, hfmt⟩ := h.exists_format hf
    rw [hfmt]
    exact Format.code_eq f
  refine ⟨h.capHolds, fun hst => ⟨h.openFrame hst, format (h.openFrame hst)⟩, format, fun hz => ?_, fun i h0 hi => ?_,
    fun i hi => h.record_even hi, h.firstRecord, fun i hi => h.record_fits hi, h.recordFits, fun i hi hret j => ?_,
    h.firstKind, hinv.latchState, fun i hi => ⟨h.repeaterEmpty i hi, h.kindCode i hi⟩⟩
  · by_contra hne
    exact h.formatKnown (Nat.pos_of_ne_zero hne) hz
  · have := h.record_lt (Nat.sub_lt h0 Nat.one_pos) hi
    omega
  · exact h.padding_zero hi (hret.imp_right fun hlast => by unfold State.current; omega)

theorem frames_continued (s : State) (d : Half) : (s.continued d).frames = s.frames := rfl

theorem formatByte_continued (s : State) (d : Half) : (s.continued d).formatByte = s.formatByte := rfl

/-- A sample in ASSEMBLE changes neither FRAME_COUNT nor FORMAT (R168). -/
theorem StoreInv.frames_formatByte_of_frameStep {s t : State} (h : StoreInv s) (hst : s.st = .assemble) {e : Edge}
    {d : BitVec 15} (hx : s.frameStep e d = .ok t) : t.frames = s.frames ∧ t.formatByte = s.formatByte := by
  have hr := h.record_ge (State.current_lt (h.openFrame hst))
  have low : ∀ c < s.recordAt s.current, t.byteAt c = s.byteAt c := fun c hc => h.byteAt_frameStep hst hx hc
  exact ⟨frames_low low hr, formatByte_low low hr⟩

/-- An accepted leader pair adds one frame, and fixes FORMAT if none was fixed (R128, R161). -/
theorem StoreInv.frames_formatByte_of_acceptLeader {s t : State} (h : StoreInv s) {d : BitVec 15}
    (hx : s.acceptLeader d = .ok t) :
    t.frames = s.frames + 1 ∧ ∃ f : Format, t.formatByte = if s.formatByte = 0 then f.code else s.formatByte := by
  obtain ⟨f, k, -, hn, -, rfl⟩ := h.eq_frameOpened_of_acceptLeader hx
  rw [frames_continued, formatByte_continued]
  exact ⟨frames_frameOpened f k _ hn, f, h.formatByte_frameOpened f k _⟩

/-- Settles O50. -/
theorem countAndFormatDiscipline : Obligations.CountAndFormatDiscipline := by
  intro i s t hinv hs hi hx
  have h := hinv.store hs
  cases exec_effect hx with
  | answered | raised | latched | rejected => exact ⟨.inl rfl, .inl rfl⟩
  | initFailed | started => exact absurd rfl (hi _)
  | opened hst hv hd hu hacc =>
    obtain ⟨hframes, f, hformat⟩ := (h.keep_pairSpace _).frames_formatByte_of_acceptLeader hacc
    refine ⟨.inr ⟨hframes, hst, rfl⟩, ?_⟩
    by_cases hz : s.formatByte = 0
    · exact .inr ⟨hz, by rw [hformat.trans (if_pos hz)]; exact Format.code_eq f⟩
    · exact .inl (hformat.trans (if_neg hz))
  | assembled hst hu hstep => exact (h.frames_formatByte_of_frameStep hst hstep).imp .inl .inl
  | sealed hst hd hu hstep => exact (h.frames_formatByte_of_frameStep hst hstep).imp .inl .inl

end Sys2Proof.Machine
end

section
/-! PROOF. EACC is written and never answered (10_state.md R31): a command run from two states that differ only in EACC reads
the same fields and writes the same bytes, but for ELAPSED, and gives the same response. -/

namespace Sys2Proof.Machine

/-! Reads do not see EACC. Each of those that are not listed unfolds to these, so `Agree.bind_read` below takes it as it is. -/

section Reads

variable (s : State) (e : BitVec 20)

@[simp] theorem read8_setEacc (a : Nat) : (s.setEacc e).read8 a = s.read8 a := rfl
@[simp] theorem read16_setEacc (a : Nat) : (s.setEacc e).read16 a = s.read16 a := rfl
@[simp] theorem offset_setEacc (i : Nat) : (s.setEacc e).offset i = s.offset i := rfl
@[simp] theorem payloadByte_setEacc (n a : Nat) : (s.setEacc e).payloadByte n a = s.payloadByte n a := rfl

@[simp] theorem samePayload_setEacc (p q n : Nat) : (s.setEacc e).samePayload p q n = s.samePayload p q n := by
  induction n with
  | zero => rfl
  | succ n ih => simp only [State.samePayload, ih, read8_setEacc]

@[simp] theorem duplicates_setEacc (p q : Nat) : (s.setEacc e).duplicates p q = s.duplicates p q := by
  simp only [State.duplicates, read16_setEacc, samePayload_setEacc]

@[simp] theorem frameField_setEacc (sel : FrameSel) (p : Nat) : (s.setEacc e).frameField sel p = s.frameField sel p := by
  cases sel <;> rfl

@[simp] theorem readRegister_setEacc (sel : StatusSel) : (s.setEacc e).readRegister sel = s.readRegister sel := by
  cases sel <;> rfl

end Reads

/-! Two runs side by side. -/

/-- Two operations raise the same, or give values related by `R`. -/
inductive Agree {α β : Type} (R : α → β → Prop) : Except Raised α → Except Raised β → Prop
  | error (r : Raised) : Agree R (.error r) (.error r)
  | ok {a : α} {b : β} (h : R a b) : Agree R (.ok a) (.ok b)

namespace Agree

variable {α β γ δ : Type} {R : α → β → Prop} {Q : γ → δ → Prop}

theorem bind {x : Except Raised α} {y : Except Raised β} {f : α → Except Raised γ} {g : β → Except Raised δ}
    (hxy : Agree R x y) (hfg : ∀ a b, R a b → Agree Q (f a) (g b)) : Agree Q (x >>= f) (y >>= g) := by
  cases hxy with
  | error r => exact .error r
  | ok h => exact hfg _ _ h

/-- Both read the same value first. -/
theorem bind_read (x : Except Raised α) {f : α → Except Raised γ} {g : α → Except Raised δ}
    (hfg : ∀ a, Agree Q (f a) (g a)) : Agree Q (x >>= f) (x >>= g) := by
  cases x with
  | error r => exact .error r
  | ok a => exact hfg a

end Agree

/-- Two operations give the same state, but that the second's EACC is `e`. -/
abbrev SameButEacc (e : BitVec 20) : Except Raised State → Except Raised State → Prop :=
  Agree fun s t => t = s.setEacc e

/-- Two operations raise the same, or leave the same response. -/
abbrev SameAnswer : Except Raised State → Except Raised State → Prop := Agree fun s t => t.resp = s.resp

/-- What follows a write is compared from one state and the same with EACC `e`. -/
theorem SameButEacc.bind {γ δ : Type} {Q : γ → δ → Prop} {e : BitVec 20} {x y : Except Raised State}
    {f : State → Except Raised γ} {g : State → Except Raised δ} (hxy : SameButEacc e x y)
    (hfg : ∀ s, Agree Q (f s) (g (s.setEacc e))) : Agree Q (x >>= f) (y >>= g) :=
  Agree.bind hxy fun s t ht => by rw [ht]; exact hfg s

/-! Writes other than addElapsed give the same state, with the other EACC. -/

section Writes

variable (e : BitVec 20) (s : State)

theorem write8_sameButEacc (a : Nat) (v : Byte) : SameButEacc e (s.write8 a v) ((s.setEacc e).write8 a v) := by
  unfold State.write8
  split
  · exact .ok rfl
  · exact .error _

theorem write16_sameButEacc (a : Nat) (v : Half) : SameButEacc e (s.write16 a v) ((s.setEacc e).write16 a v) :=
  (write8_sameButEacc e s ..).bind fun s1 => write8_sameButEacc e s1 ..

theorem writeRecord_sameButEacc (n off : Nat) (k : FrameKind) (e' : BitVec 20) :
    SameButEacc e (s.writeRecord n off k e') ((s.setEacc e).writeRecord n off k e') :=
  (write16_sameButEacc e s ..).bind fun s1 => (write16_sameButEacc e s1 ..).bind fun s2 =>
    (write16_sameButEacc e s2 ..).bind fun s3 => write8_sameButEacc e s3 ..

theorem appendFrame_sameButEacc (k : FrameKind) (e' : BitVec 20) :
    SameButEacc e (s.appendFrame k e') ((s.setEacc e).appendFrame k e') := by
  refine .bind_read s.frameCount fun n => ?_
  split
  · exact .error _
  refine .bind_read (s.nextRecord n) fun off => ?_
  rw [State.setEacc_cap]
  split
  · exact .error _
  · exact writeRecord_sameButEacc e s ..

theorem writeBit_sameButEacc (b : Bool) : SameButEacc e (s.writeBit b) ((s.setEacc e).writeBit b) := by
  refine .bind_read s.currentFrame fun p => .bind_read (s.read16 p) fun kb => ?_
  dsimp only
  split
  · exact .error _
  · rw [payloadByte_setEacc]
    exact .bind_read _ fun old => (write8_sameButEacc e s ..).bind fun s1 => write16_sameButEacc e s1 ..

theorem finalize_sameButEacc (i : Nat) : SameButEacc e (s.finalize i) ((s.setEacc e).finalize i) := by
  simp only [State.finalize, offset_setEacc, duplicates_setEacc, read16_setEacc]
  split
  · exact .ok rfl
  refine .bind_read (s.offset i) fun p => .bind_read (s.offset 0) fun q => .bind_read (s.duplicates p q) fun dup => ?_
  split
  · exact .bind_read (s.read16 p) fun kb => write16_sameButEacc e s ..
  · exact .ok rfl

theorem fixFormat_sameButEacc (f : Format) : SameButEacc e (s.fixFormat f) ((s.setEacc e).fixFormat f) := by
  refine .bind_read (s.read8 formatAddr) fun fmt => ?_
  split
  · exact write8_sameButEacc e s ..
  · exact .ok rfl

end Writes

/-! The samples give the same answer. -/

theorem write8_sameAnswer {s t : State} (hresp : t.resp = s.resp) (a : Nat) (v w : Byte) :
    SameAnswer (s.write8 a v) (t.write8 a w) := by
  unfold State.write8
  split
  · exact .ok hresp
  · exact .error _

/-- A write outside BUF faults at the same address, whatever is written. -/
theorem write16_sameAnswer {s t : State} (hresp : t.resp = s.resp) (a : Nat) (v w : Half) :
    SameAnswer (s.write16 a v) (t.write16 a w) :=
  (write8_sameAnswer hresp ..).bind fun _ _ h1 => write8_sameAnswer h1 ..

section Samples

variable (e : BitVec 20) (s : State)

/-- addElapsed stores an ELAPSED that depends on EACC, and the command then answers CONTINUE all the same (R167). -/
theorem addElapsed_continued_sameAnswer (d : BitVec 15) :
    SameAnswer (s.addElapsed d >>= fun u => .ok (u.continued 0))
      ((s.setEacc e).addElapsed d >>= fun u => .ok (u.continued 0)) := by
  refine .bind (R := fun s t => t.resp = s.resp) ?_ fun _ _ _ => .ok rfl
  refine .bind_read s.currentFrame fun p => ?_
  refine write16_sameAnswer ?_ ..
  rfl

theorem syncStep_sameAnswer (D : Descriptor) (d : BitVec 15) :
    SameAnswer (s.syncStep D d) ((s.setEacc e).syncStep D d) := by
  unfold State.syncStep
  split
  · exact .error _
  · exact addElapsed_continued_sameAnswer e s d

theorem symbolStep_sameAnswer (b : Bool) (d : BitVec 15) :
    SameAnswer (s.symbolStep b d) ((s.setEacc e).symbolStep b d) := by
  refine .bind_read s.currentFrame fun p => .bind_read (s.read16 p) fun kb => ?_
  split
  · exact .error _
  · exact (writeBit_sameButEacc e s b).bind fun s1 => addElapsed_continued_sameAnswer e s1 d

theorem sealFrame_sameAnswer (d : BitVec 15) : SameAnswer (s.sealFrame d) ((s.setEacc e).sealFrame d) :=
  .bind_read s.frameCount fun _ => (finalize_sameButEacc e s _).bind fun _ => .ok rfl

theorem infoStep_sameAnswer (D : Descriptor) (d : BitVec 15) :
    SameAnswer (s.infoStep D d) ((s.setEacc e).infoStep D d) := by
  unfold State.infoStep
  split
  · exact symbolStep_sameAnswer e s false d
  split
  · exact symbolStep_sameAnswer e s true d
  · refine .bind_read (s.isBoundary D d) fun boundary => ?_
    split
    · exact sealFrame_sameAnswer e s d
    · exact .error _

theorem frameStep_sameAnswer (edge : Edge) (d : BitVec 15) :
    SameAnswer (s.frameStep edge d) ((s.setEacc e).frameStep edge d) := by
  refine .bind_read s.descriptor fun D => ?_
  split
  · exact infoStep_sameAnswer e s D d
  · exact syncStep_sameAnswer e s D d

theorem acceptLeader_sameAnswer (d : BitVec 15) : SameAnswer (s.acceptLeader d) ((s.setEacc e).acceptLeader d) := by
  unfold State.acceptLeader
  rw [State.setEacc_table, State.setEacc_lm]
  split
  · exact .error _
  · next f k _ =>
    refine .bind_read (s.read8 formatAddr) fun fmt => ?_
    split
    · exact .error _
    · exact (appendFrame_sameButEacc e s ..).bind fun s1 => (fixFormat_sameButEacc e s1 f).bind fun _ => .ok rfl

end Samples

/-! Every command gives the same answer. -/

/-- Where the first outcome is a next state, so is the second, with the same response. -/
def AnswersAlike (x y : Result) : Prop := ∀ t, x = .next t → ∃ t', y = .next t' ∧ t'.resp = t.resp

namespace AnswersAlike

theorem next {s t : State} (h : t.resp = s.resp) : AnswersAlike (.next s) (.next t) :=
  fun _ hs => by cases hs; exact ⟨t, rfl, h⟩

/-- The response to a session error is its kind's, whatever state stands (R212). -/
theorem conclude {x y : Except Raised State} (h : SameAnswer x y) (s t : State) :
    AnswersAlike (s.conclude x) (t.conclude y) := by
  cases h with
  | error r =>
    cases r with
    | session k => rw [conclude_session, conclude_session]; exact next rfl
    | fault f => intro _ ht; cases ht
  | ok h => exact next h

variable (e : BitVec 20) (s : State)

theorem readCommand {x y : Except Raised State} (h : SameAnswer x y) :
    AnswersAlike (s.readCommand x) ((s.setEacc e).readCommand y) := by
  unfold State.readCommand
  rw [State.setEacc_st]
  split
  · exact next rfl
  · exact conclude h _ _

theorem leaderStep (edge : Edge) (d : BitVec 15) : AnswersAlike (s.leaderStep edge d) ((s.setEacc e).leaderStep edge d) := by
  cases edge with
  | mark => exact next rfl
  | space =>
    unfold State.leaderStep State.leaderPair
    dsimp only
    rw [State.setEacc_lmValid]
    split
    · exact conclude (acceptLeader_sameAnswer e (s.pairSpace d) d) _ _
    · exact next rfl

theorem sample (edge : Edge) (dur : BitVec 24) : AnswersAlike (s.sample edge dur) ((s.setEacc e).sample edge dur) := by
  unfold State.sample
  rw [State.setEacc_st]
  cases s.st with
  | uninit => exact next rfl
  | error => exact next rfl
  | await =>
    dsimp only
    split
    · exact next rfl
    · exact leaderStep e s edge _
  | assemble =>
    dsimp only
    split
    · exact next rfl
    · exact conclude (frameStep_sameAnswer e s edge _) _ _

theorem execInit (c : BitVec 16) : AnswersAlike (execInit c s) (execInit c (s.setEacc e)) := by
  unfold Machine.execInit
  split
  · exact next rfl
  · exact next rfl

theorem execRdframe (sel : FrameSel) (index : BitVec 8) :
    AnswersAlike (execRdframe sel index s) (execRdframe sel index (s.setEacc e)) := by
  refine readCommand e s (.bind_read s.frameCount fun n => ?_)
  split
  · exact .ok rfl
  · refine .bind_read (s.offset _) fun p => ?_
    rw [frameField_setEacc]
    exact .bind_read _ fun _ => .ok rfl

theorem execRdbyte (addr : BitVec 16) : AnswersAlike (execRdbyte addr s) (execRdbyte addr (s.setEacc e)) := by
  refine readCommand e s ?_
  rw [State.setEacc_cap]
  split
  · exact .ok rfl
  · exact .bind_read (s.read8 _) fun _ => .ok rfl

theorem execRdstatus (sel : StatusSel) : AnswersAlike (execRdstatus sel s) (execRdstatus sel (s.setEacc e)) := by
  refine conclude ?_ _ _
  rw [readRegister_setEacc]
  exact .bind_read _ fun _ => .ok rfl

theorem exec (i : Instr) : AnswersAlike (exec i s) (exec i (s.setEacc e)) := by
  cases i with
  | init c => exact execInit e s c
  | mark dur => exact sample e s .mark dur
  | space dur => exact sample e s .space dur
  | rdcount => exact readCommand e s (.bind_read (s.read8 countAddr) fun _ => .ok rfl)
  | rdframe sel index => exact execRdframe e s sel index
  | rdbyte addr => exact execRdbyte e s addr
  | rdstatus sel => exact execRdstatus e s sel

end AnswersAlike

/-- Settles O48. -/
theorem accumulatorUnseen : Obligations.AccumulatorUnseen :=
  fun i s t e h => AnswersAlike.exec e s i t h

end Sys2Proof.Machine
end

section
/-! PROOF. What commands do to BUF (20_memory.md R50, R51, R59, R61): where a new record starts, that BUF keeps its canonical
form, and that no byte at or above CAP is written. -/

namespace Sys2Proof.Machine

/-- R59, R161: after a frame, the next record starts at the even address at or just past that frame's record. -/
theorem State.nextOffset_of_frames {s : State} (hf : 1 ≤ s.frames) :
    s.nextOffset = align2 (s.recordAt s.current + recordSize (s.kbAt s.current)) :=
  if_neg (Nat.ne_of_gt hf)

/-- R59: the payload of a frame that is not Data takes no place. -/
theorem recordSize_of_ne_data {kb : Half} (h : kindOf kb ≠ FrameKind.data.code) : recordSize kb = Config.recHdr := by
  simp [recordSize, h]

theorem align2_eq_or (x : Nat) : align2 x = x ∨ align2 x = x + 1 := by unfold align2; omega

/-- Settles O21. -/
theorem nextRecordPlace : Obligations.NextRecordPlace := by
  intro s hinv hs
  have h := hinv.store hs
  refine ⟨fun hz => by rw [hz]; rfl, fun hf => ⟨s.nextOffset, h.nextRecord_eq, s.nextOffset_even, ?_⟩⟩
  rw [State.nextOffset_of_frames hf]
  by_cases hdata : s.kindAt s.current = FrameKind.data.code
  · rw [recordSize_data hdata, ← Nat.add_assoc]
    exact .inl ⟨hdata, align2_eq_or _⟩
  · have heven := h.record_even (State.current_lt hf)
    rw [recordSize_of_ne_data hdata, align2_of_even (by simp only [Config.recHdr]; omega)]
    exact .inr ⟨hdata, rfl⟩

/-- Log entry 3: every command keeps the canonical form of BUF. -/
theorem Effect.keeps_wf {i : Instr} {s t : State} (he : Effect s i t) (hwf : Memory.wf s.buf) : Memory.wf t.buf := by
  cases he with
  | answered | initFailed | raised | latched | rejected => exact hwf
  | started => exact Memory.wf_zeroBelow hwf (Nat.le_of_lt (BitVec.isLt _))
  | opened _ _ _ hu => exact hu.wf hwf
  | assembled _ hu => exact hu.wf hwf
  | sealed _ _ hu => exact hu.wf hwf

/-- Settles O44. -/
theorem stepKeepsCanonicalBuffer : Obligations.StepKeepsCanonicalBuffer := by
  intro s t hwf hstep
  rcases step_effect hstep with rfl | ⟨rest, rfl⟩ | ⟨rest, rfl⟩ | ⟨i, rest, he⟩
  · exact hwf
  · exact hwf
  · exact hwf
  · exact he.keeps_wf hwf

/-! No byte at or above CAP is written (R51, R61). -/

/-- The bytes of BUF at and above `c` are in `t` what they are in `s`, specified or not. -/
def UntouchedFrom (c : Nat) (s t : State) : Prop := ∀ a, c ≤ a → t.buf.read a = s.buf.read a

namespace UntouchedFrom

variable {c a : Nat} {s t : State}

theorem of_buf_eq (h : t.buf = s.buf) : UntouchedFrom c s t := fun _ _ => by rw [h]

theorem refl (s : State) : UntouchedFrom c s s := of_buf_eq rfl

theorem trans {u : State} (h : UntouchedFrom c s t) (h' : UntouchedFrom c t u) : UntouchedFrom c s u :=
  fun x hx => (h' x hx).trans (h x hx)

theorem setByte (h : UntouchedFrom c s t) (ha : a < c) (v : Byte) : UntouchedFrom c s (t.setByte a v) :=
  fun x hx => (Memory.read_write_other _ _ _ _ (by omega)).trans (h x hx)

theorem setHalf (h : UntouchedFrom c s t) (ha : a + 1 < c) (v : Half) : UntouchedFrom c s (t.setHalf a v) :=
  (h.setByte (by omega) _).setByte ha _

theorem formatFixed (h : UntouchedFrom c s t) (hc : formatAddr < c) (f : Format) :
    UntouchedFrom c s (t.formatFixed f) := by
  unfold State.formatFixed
  split
  · exact h.setByte hc _
  · exact h

end UntouchedFrom

namespace StoreInv

variable {s : State} (h : StoreInv s)
include h

theorem formatAddr_lt : formatAddr < s.cap.toNat := Nat.lt_of_lt_of_le (by decide : formatAddr < 22) h.cap_ge

theorem countAddr_lt : countAddr < s.cap.toNat := Nat.lt_of_lt_of_le (by decide : countAddr < 22) h.cap_ge

/-- R161: a new record is written where its header fits below CAP. -/
theorem untouched_appended (k : FrameKind) (e : BitVec 20) (hn : s.frames < 10)
    (hcap : s.nextOffset + 4 ≤ s.cap.toNat) : UntouchedFrom s.cap.toNat s (s.appended k e) := by
  have h22 := h.cap_ge
  have hoff : offsetAddr s.frames + 1 < s.cap.toNat := by unfold offsetAddr; omega
  exact (((UntouchedFrom.refl s).setHalf hoff _ |>.setHalf (by omega) _).setHalf (by omega) _).setByte h.countAddr_lt _

theorem untouched_frameOpened (f : Format) (k : FrameKind) (e : BitVec 20) (hn : s.frames < 10)
    (hcap : s.nextOffset + 4 ≤ s.cap.toNat) : UntouchedFrom s.cap.toNat s (s.frameOpened f k e) := by
  exact ((h.untouched_appended k e hn hcap).formatFixed h.formatAddr_lt f).trans (.of_buf_eq rfl)

theorem untouched_acceptLeader {t : State} {d : BitVec 15} (hx : s.acceptLeader d = .ok t) :
    UntouchedFrom s.cap.toNat s t := by
  obtain ⟨f, k, -, hn, hcap, rfl⟩ := h.eq_frameOpened_of_acceptLeader hx
  exact (h.untouched_frameOpened f k _ hn hcap).trans (.of_buf_eq (State.continued_buf _ 0))

variable (hf : 1 ≤ s.frames)
include hf

/-- R163: a byte already started lies below CAP with its record, and a new one is checked. -/
theorem bitAddr_lt (hcap : s.bitsAt s.current % 8 = 0 → s.bitAddr < s.cap.toNat) : s.bitAddr < s.cap.toNat := by
  by_cases hz : s.bitsAt s.current % 8 = 0
  · exact hcap hz
  · have hfit := h.recordFits s.current (State.current_lt hf)
    have hstarted := div8_lt_ceil8 hz
    unfold State.bitAddr
    omega

theorem untouched_bitWritten (b : Bool) (hcap : s.bitsAt s.current % 8 = 0 → s.bitAddr < s.cap.toNat) :
    UntouchedFrom s.cap.toNat s (s.bitWritten b) := by
  have hrec := h.record_fits (State.current_lt hf)
  exact ((UntouchedFrom.refl s).setByte (h.bitAddr_lt hf hcap) _).setHalf (by omega) _

theorem untouched_elapsedAdded (d : BitVec 15) : UntouchedFrom s.cap.toNat s (s.elapsedAdded d) := by
  have hrec := h.record_fits (State.current_lt hf)
  exact (UntouchedFrom.of_buf_eq rfl).setHalf (by omega) _

theorem untouched_markedSame : UntouchedFrom s.cap.toNat s (s.markedSame s.current) := by
  have hrec := h.record_fits (State.current_lt hf)
  exact (UntouchedFrom.refl s).setHalf (by omega) _

omit hf in
theorem untouched_frameStep {t : State} (hst : s.st = .assemble) {e : Edge} {d : BitVec 15}
    (hx : s.frameStep e d = .ok t) : UntouchedFrom s.cap.toNat s t := by
  have hf := h.openFrame hst
  have ho := h.frameStep_outcome hst e d
  rw [hx] at ho
  cases ho with
  | timed => exact (h.untouched_elapsedAdded hf d).trans (.of_buf_eq rfl)
  | bit b hn hcap hkind =>
    have hbit := h.keep_bitWritten hf b hn hcap hkind (h.openKind hst)
    have hf' : 1 ≤ (s.bitWritten b).frames := by rw [h.frames_bitWritten hf]; exact hf
    exact (h.untouched_bitWritten hf b hcap).trans ((hbit.untouched_elapsedAdded hf' d).trans (.of_buf_eq rfl))
  | sealedSame => exact (h.untouched_markedSame hf).trans (.of_buf_eq rfl)
  | sealed => exact .of_buf_eq rfl

end StoreInv

theorem State.sealedBy_cap (s : State) (d : BitVec 15) : (s.sealedBy d).cap = s.cap := rfl

/-- INIT zeroes below the capacity it leaves (R190). -/
theorem untouched_startSession (s : State) (c : BitVec 16) : UntouchedFrom c.toNat s (s.startSession c) :=
  fun a ha => by rw [State.startSession_buf, Memory.read_zeroBelow, if_neg (Nat.not_lt.2 ha)]

theorem Effect.untouched {i : Instr} {s t : State} (he : Effect s i t) (h : Inv s) :
    UntouchedFrom t.cap.toNat s t := by
  cases he with
  | answered | initFailed | raised | latched | rejected => exact .of_buf_eq rfl
  | started => exact untouched_startSession s _
  | opened hs _ _ hu hx =>
    rw [State.continued_cap, State.enter_cap, hu.cap]
    exact ((h.store_of_running (.inl hs)).keep_pairSpace _).untouched_acceptLeader hx
  | assembled hs hu hx =>
    rw [State.continued_cap, hu.cap]
    exact (h.store_of_running (.inr hs)).untouched_frameStep hs hx
  | sealed hs _ hu hx =>
    rw [State.sealedBy_cap, hu.cap]
    exact (h.store_of_running (.inr hs)).untouched_frameStep hs hx

/-- Settles O46. -/
theorem bytesAboveCapUntouched : Obligations.BytesAboveCapUntouched :=
  fun _ _ _ hinv hx => (exec_effect hx).untouched hinv

end Sys2Proof.Machine
end

section
/-! PROOF. No command reads a byte at or above CAP (20_memory.md R51): a command run from two states that differ in those
bytes only takes the same branches, writes the same bytes at the same places, and gives the same response. -/

namespace Sys2Proof.Machine

/-- The second state is the first, but for bytes of BUF at and above CAP. -/
inductive SameBelowCap (s : State) : State → Prop
  | mk (b : Memory) (hb : ∀ a < s.cap.toNat, b.read a = s.buf.read a) : SameBelowCap s { s with buf := b }

namespace SameBelowCap

variable {s t : State} (r : SameBelowCap s t)
include r

/-! The registers are the same. -/

theorem table : t.table = s.table := by cases r; rfl
theorem st : t.st = s.st := by cases r; rfl
theorem cap : t.cap = s.cap := by cases r; rfl
theorem errKind : t.errKind = s.errKind := by cases r; rfl
theorem lm : t.lm = s.lm := by cases r; rfl
theorem ls : t.ls = s.ls := by cases r; rfl
theorem lmValid : t.lmValid = s.lmValid := by cases r; rfl
theorem eacc : t.eacc = s.eacc := by cases r; rfl

/-! The same writes leave the states alike. -/

theorem respond (o : RespOutcome) (k : BitVec 4) (d : Half) : SameBelowCap (s.respond o k d) (t.respond o k d) := by
  cases r with | mk b hb => exact .mk b hb

theorem continued (d : Half) : SameBelowCap (s.continued d) (t.continued d) := r.respond ..

theorem enter (x : SessionState) : SameBelowCap (s.enter x) (t.enter x) := by
  cases r with | mk b hb => exact .mk b hb

theorem setEacc (e : BitVec 20) : SameBelowCap (s.setEacc e) (t.setEacc e) := by
  cases r with | mk b hb => exact .mk b hb

theorem latch (d : BitVec 15) : SameBelowCap (s.latch d) (t.latch d) := by
  cases r with | mk b hb => exact .mk b hb

theorem pairSpace (d : BitVec 15) : SameBelowCap (s.pairSpace d) (t.pairSpace d) := by
  cases r with | mk b hb => exact .mk b hb

theorem raiseSession (k : SessionErrorKind) : SameBelowCap (s.raiseSession k) (t.raiseSession k) := by
  cases r with | mk b hb => exact .mk b hb

theorem sealedBy (d : BitVec 15) : SameBelowCap (s.sealedBy d) (t.sealedBy d) :=
  ((r.enter .await).latch d).respond ..

/-- A failed INIT leaves CAP 0, below which there is no byte (R191). -/
theorem initFail : SameBelowCap s.initFail t.initFail := by
  cases r with | mk b hb => exact .mk b fun _ ha => absurd ha (Nat.not_lt_zero _)

/-- INIT zeroes every byte below the CAP it leaves (R190). -/
theorem startSession (c : BitVec 16) : SameBelowCap (s.startSession c) (t.startSession c) := by
  cases r with
  | mk b hb =>
    refine .mk (b.zeroBelow c.toNat) fun a ha => ?_
    rw [State.startSession_cap] at ha
    rw [State.startSession_buf, Memory.read_zeroBelow, Memory.read_zeroBelow, if_pos ha, if_pos ha]

theorem setByte (a : Nat) (v : Byte) : SameBelowCap (s.setByte a v) (t.setByte a v) := by
  cases r with
  | mk b hb =>
    refine .mk (b.write a v) fun c hc => ?_
    rw [State.setByte_buf, Memory.read_write, Memory.read_write, hb c hc]

theorem setHalf (a : Nat) (v : Half) : SameBelowCap (s.setHalf a v) (t.setHalf a v) := (r.setByte ..).setByte ..

/-! The views of BUF below CAP are the same. -/

theorem byteAt : ∀ a < s.cap.toNat, t.byteAt a = s.byteAt a := by
  cases r with | mk b hb => exact fun a ha => congrArg (·.getD 0) (hb a ha)

variable (h : StoreInv s)
include h

theorem frames : t.frames = s.frames := frames_low r.byteAt h.cap_ge

theorem current : t.current = s.current := current_low r.byteAt h.cap_ge

theorem formatByte : t.formatByte = s.formatByte := formatByte_low r.byteAt h.cap_ge

theorem recordAt {i : Nat} (hi : i < 10) : t.recordAt i = s.recordAt i := recordAt_low r.byteAt h.cap_ge hi

section Frame

variable {i : Nat} (hi : i < s.frames)
include hi

theorem recordAt_frame : t.recordAt i = s.recordAt i := r.recordAt h (Nat.lt_of_lt_of_le hi h.frames_le)

theorem kbAt : t.kbAt i = s.kbAt i :=
  kbAt_low r.byteAt h.cap_ge (Nat.lt_of_lt_of_le hi h.frames_le) (h.record_fits hi)

theorem kindAt : t.kindAt i = s.kindAt i := kindAt_of_kbAt (r.kbAt h hi)

theorem bitsAt : t.bitsAt i = s.bitsAt i := bitsAt_of_kbAt (r.kbAt h hi)

theorem elapsedAt : t.elapsedAt i = s.elapsedAt i :=
  elapsedAt_low r.byteAt h.cap_ge (Nat.lt_of_lt_of_le hi h.frames_le) (h.record_fits hi)

theorem payloadAt {k : Nat} (hk : k < ceil8 (s.bitsAt i)) : t.payloadAt i k = s.payloadAt i k := by
  have hfit := h.recordFits i hi
  simp only [Config.recHdr] at hfit
  exact payloadAt_low r.byteAt h.cap_ge (Nat.lt_of_lt_of_le hi h.frames_le) (by omega)

/-- R180 compares payload bytes of two frames, all below CAP. -/
theorem duplicatesFirst_iff : t.duplicatesFirst i ↔ s.duplicatesFirst i := by
  have h0 : 0 < s.frames := Nat.zero_lt_of_lt hi
  unfold State.duplicatesFirst
  rw [r.kindAt h hi, r.bitsAt h hi, r.bitsAt h h0]
  refine and_congr_right fun _ => and_congr_right fun hbits => forall₂_congr fun k hk => ?_
  rw [r.payloadAt h hi hk, r.payloadAt h h0 (hbits ▸ hk)]

theorem markedSame : SameBelowCap (s.markedSame i) (t.markedSame i) := by
  unfold State.markedSame
  rw [r.recordAt_frame h hi, r.bitsAt h hi]
  exact r.setHalf ..

end Frame

theorem nextOffset : t.nextOffset = s.nextOffset := by
  unfold State.nextOffset
  rw [r.frames h]
  split
  · rfl
  · next hf =>
    have hc := State.current_lt (Nat.pos_of_ne_zero hf)
    rw [r.current h, r.recordAt_frame h hc, r.kbAt h hc]

theorem appended (k : FrameKind) (e : BitVec 20) : SameBelowCap (s.appended k e) (t.appended k e) := by
  unfold State.appended
  rw [r.frames h, r.nextOffset h]
  exact (((r.setHalf ..).setHalf ..).setHalf ..).setByte ..

omit h in
/-- R128: FORMAT lies below the CAP of any session. -/
theorem formatFixed (hc : formatAddr < s.cap.toNat) (f : Format) :
    SameBelowCap (s.formatFixed f) (t.formatFixed f) := by
  have hfmt : t.formatByte = s.formatByte := r.byteAt _ hc
  unfold State.formatFixed
  rw [hfmt]
  split
  · exact r.setByte ..
  · exact r

theorem frameOpened (f : Format) (k : FrameKind) (e : BitVec 20) :
    SameBelowCap (s.frameOpened f k e) (t.frameOpened f k e) := by
  have hc : formatAddr < (s.appended k e).cap.toNat := by
    rw [appended_cap]
    exact h.formatAddr_lt
  exact (((r.appended h k e).formatFixed hc f).setEacc e).enter _

variable (hf : 1 ≤ s.frames)
include hf

theorem bitAddr : t.bitAddr = s.bitAddr := by
  have hc := State.current_lt hf
  unfold State.bitAddr
  rw [r.current h, r.recordAt_frame h hc, r.bitsAt h hc]

theorem bitByte (hcap : s.bitsAt s.current % 8 = 0 → s.bitAddr < s.cap.toNat) (b : Bool) :
    t.bitByte b = s.bitByte b := by
  unfold State.bitByte
  rw [r.current h, r.bitsAt h (State.current_lt hf), r.bitAddr h hf, r.byteAt _ (h.bitAddr_lt hf hcap)]

theorem bitWritten (hcap : s.bitsAt s.current % 8 = 0 → s.bitAddr < s.cap.toNat) (b : Bool) :
    SameBelowCap (s.bitWritten b) (t.bitWritten b) := by
  have hc := State.current_lt hf
  unfold State.bitWritten
  rw [r.bitByte h hf hcap, r.bitAddr h hf, r.current h, r.recordAt_frame h hc, r.kindAt h hc, r.bitsAt h hc]
  exact (r.setByte ..).setHalf ..

theorem elapsedAdded (d : BitVec 15) : SameBelowCap (s.elapsedAdded d) (t.elapsedAdded d) := by
  unfold State.elapsedAdded
  rw [r.eacc, r.current h, r.recordAt_frame h (State.current_lt hf)]
  exact (r.setEacc _).setHalf ..

end SameBelowCap

/-! The samples. -/

/-- Two operations raise the same, or leave states alike below CAP. -/
abbrev AgreeBelowCap : Except Raised State → Except Raised State → Prop := Agree SameBelowCap

namespace SameBelowCap

variable {s t : State} (r : SameBelowCap s t) (hs : StoreInv s) (ht : StoreInv t)
include r hs ht

/-- R128: the leader's checks and the new record's place come from the header and the last record. -/
theorem acceptLeader (d : BitVec 15) : AgreeBelowCap (s.acceptLeader d) (t.acceptLeader d) := by
  rw [hs.acceptLeader_eq, ht.acceptLeader_eq, r.table, r.lm, r.formatByte hs, r.frames hs, r.cap, r.nextOffset hs]
  split
  · exact .error _
  split
  · exact .error _
  split
  · exact .error _
  · exact .ok ((r.frameOpened hs ..).continued 0)

/-- R194: the fields of a frame, and for a SameAsFirst frame the place of frame 0's payload. -/
theorem frameField (sel : FrameSel) {i : Nat} (hi : i < s.frames) :
    t.frameField sel (t.recordAt i) = s.frameField sel (s.recordAt i) := by
  have hi' : i < t.frames := r.frames hs ▸ hi
  cases sel with
  | kb => exact (ht.readKb hi').trans (r.kbAt hs hi ▸ (hs.readKb hi).symm)
  | elapsed => exact (ht.readElapsed hi').trans (r.elapsedAt hs hi ▸ (hs.readElapsed hi).symm)
  | payload =>
    unfold State.frameField
    dsimp only
    rw [ht.payloadAddr_eq hi', hs.payloadAddr_eq hi, r.kindAt hs hi, r.recordAt_frame hs hi,
      r.recordAt hs (by decide : 0 < 10)]
  | offset => rw [r.recordAt_frame hs hi]; rfl

variable (hf : 1 ≤ s.frames)
include hf

theorem syncStep (D : Descriptor) (d : BitVec 15) : AgreeBelowCap (s.syncStep D d) (t.syncStep D d) := by
  rw [hs.syncStep_eq hf, ht.syncStep_eq (r.frames hs ▸ hf)]
  split
  · exact .error _
  · exact .ok ((r.elapsedAdded hs hf d).continued 0)

theorem symbolStep (hsame : s.kindAt s.current ≠ FrameKind.sameAsFirst.code) (b : Bool) (d : BitVec 15) :
    AgreeBelowCap (s.symbolStep b d) (t.symbolStep b d) := by
  have hc := State.current_lt hf
  have hcur := r.current hs
  have hkind := r.kindAt hs hc
  rw [hs.symbolStep_eq hf hsame, ht.symbolStep_eq (r.frames hs ▸ hf) (by rw [hcur, hkind]; exact hsame), hcur, hkind,
    r.bitsAt hs hc, r.cap, r.bitAddr hs hf]
  split
  · exact .error _
  next hrep =>
  split
  · exact .error _
  · next hroom =>
    rw [not_or, not_and, Nat.not_le] at hroom
    obtain ⟨hn, hcap⟩ := hroom
    have hbit := hs.keep_bitWritten hf b hn hcap hrep hsame
    exact .ok (((r.bitWritten hs hf hcap b).elapsedAdded hbit (hs.frames_bitWritten hf b ▸ hf) d).continued 0)

theorem isBoundary (D : Descriptor) (d : BitVec 15) : t.isBoundary D d = s.isBoundary D d := by
  rw [hs.isBoundary_eq hf, ht.isBoundary_eq (r.frames hs ▸ hf), r.current hs, r.bitsAt hs (State.current_lt hf)]

/-- R180: both frames are marked SameAsFirst, or neither is. -/
theorem sealFrame (d : BitVec 15) : AgreeBelowCap (s.sealFrame d) (t.sealFrame d) := by
  have hc := State.current_lt hf
  have hdup : (t.current ≠ 0 ∧ t.duplicatesFirst t.current) ↔ (s.current ≠ 0 ∧ s.duplicatesFirst s.current) := by
    rw [r.current hs, r.duplicatesFirst_iff hs hc]
  have ht_seal := ht.sealFrame_eq (r.frames hs ▸ hf) d
  rcases hs.sealFrame_eq hf d with ⟨hne, hd, hx⟩ | ⟨hn, hx⟩
  · rcases ht_seal with ⟨-, -, hy⟩ | ⟨hn', -⟩
    · rw [hx, hy, r.current hs]
      exact .ok ((r.markedSame hs hc).sealedBy d)
    · exact absurd (hdup.2 ⟨hne, hd⟩) hn'
  · rcases ht_seal with ⟨hne', hd', -⟩ | ⟨-, hy⟩
    · exact absurd (hdup.1 ⟨hne', hd'⟩) hn
    · rw [hx, hy]
      exact .ok (r.sealedBy d)

theorem infoStep (hsame : s.kindAt s.current ≠ FrameKind.sameAsFirst.code) (D : Descriptor) (d : BitVec 15) :
    AgreeBelowCap (s.infoStep D d) (t.infoStep D d) := by
  unfold State.infoStep
  rw [r.isBoundary hs ht hf]
  split
  · exact r.symbolStep hs ht hf hsame false d
  split
  · exact r.symbolStep hs ht hf hsame true d
  · refine .bind_read (s.isBoundary D d) fun boundary => ?_
    split
    · exact r.sealFrame hs ht hf d
    · exact .error _

omit hf in
theorem frameStep (hst : s.st = .assemble) (e : Edge) (d : BitVec 15) :
    AgreeBelowCap (s.frameStep e d) (t.frameStep e d) := by
  have hf := hs.openFrame hst
  obtain ⟨f, hfmt⟩ := hs.exists_format hf
  unfold State.frameStep
  rw [hs.descriptor_eq hfmt, ht.descriptor_eq ((r.formatByte hs).trans hfmt), r.table]
  refine .bind_read _ fun D => ?_
  split
  · exact r.infoStep hs ht hf (hs.openKind hst) D d
  · exact r.syncStep hs ht hf D d

end SameBelowCap

/-! Every command. -/

/-- Two outcomes are the same fault, or next states alike below CAP. -/
inductive OutcomesAlike : Result → Result → Prop
  | next {s t : State} (r : SameBelowCap s t) : OutcomesAlike (.next s) (.next t)
  | fault (f : Fault) : OutcomesAlike (.fault f) (.fault f)

namespace SameBelowCap

variable {s t : State} (r : SameBelowCap s t)
include r

theorem conclude {x y : Except Raised State} (hxy : AgreeBelowCap x y) :
    OutcomesAlike (s.conclude x) (t.conclude y) := by
  cases hxy with
  | error e =>
    cases e with
    | session k => exact .next (r.raiseSession k)
    | fault f => exact .fault f
  | ok h => exact .next h

theorem execInit (c : BitVec 16) : OutcomesAlike (execInit c s) (execInit c t) := by
  unfold Machine.execInit
  split
  · exact .next r.initFail
  · exact .next (r.startSession c)

variable (hs : Inv s) (ht : Inv t)
include hs ht

theorem readRegister (sel : StatusSel) : t.readRegister sel = s.readRegister sel := by
  cases sel with
  | status =>
    unfold State.readRegister State.readStatus
    dsimp only
    rw [r.st, r.errKind, r.lmValid]
    split
    · rfl
    · next hst =>
      have hs' := hs.store hst
      have ht' := ht.store (r.st ▸ hst)
      rw [hs'.readFormat, ht'.readFormat, r.formatByte hs', hs'.readCount, ht'.readCount, r.byteAt _ hs'.countAddr_lt]
  | lm => rw [State.readRegister, State.readRegister, r.lm]
  | ls => rw [State.readRegister, State.readRegister, r.ls]
  | cap => rw [State.readRegister, State.readRegister, r.cap]

/-- A read command reads in a session only (R192). -/
theorem readCommand {x y : Except Raised State} (hxy : StoreInv s → StoreInv t → AgreeBelowCap x y) :
    OutcomesAlike (s.readCommand x) (t.readCommand y) := by
  unfold State.readCommand
  rw [r.st]
  split
  · exact .next (r.respond ..)
  · next hst => exact r.conclude (hxy (hs.store hst) (ht.store (r.st ▸ hst)))

theorem execRdcount : OutcomesAlike (execRdcount s) (execRdcount t) := by
  refine r.readCommand hs ht fun hs' ht' => ?_
  rw [hs'.readCount, ht'.readCount, r.byteAt _ hs'.countAddr_lt]
  exact .ok (r.continued _)

/-- RDFRAME's index is checked against FRAME_COUNT, and every record lies below CAP (R194, R195). -/
theorem execRdframe (sel : FrameSel) (index : BitVec 8) :
    OutcomesAlike (execRdframe sel index s) (execRdframe sel index t) := by
  refine r.readCommand hs ht fun hs' ht' => ?_
  rw [hs'.frameCount, ht'.frameCount, r.frames hs', ok_bind, ok_bind]
  split
  · exact .ok (r.respond ..)
  · next hi =>
    have hi := Nat.lt_of_not_le hi
    have hi10 := Nat.lt_of_lt_of_le hi hs'.frames_le
    rw [hs'.offset hi10, ht'.offset hi10, ok_bind, ok_bind, r.frameField hs' ht' sel hi]
    exact .bind_read _ fun _ => .ok (r.continued _)

/-- RDBYTE's address is checked against CAP (R196). -/
theorem execRdbyte (addr : BitVec 16) : OutcomesAlike (execRdbyte addr s) (execRdbyte addr t) := by
  refine r.readCommand hs ht fun hs' ht' => ?_
  rw [r.cap]
  split
  · exact .ok (r.respond ..)
  · next ha =>
    have ha : addr.toNat < s.cap.toNat := BitVec.not_le.1 ha
    rw [hs'.read8 ha, ht'.read8 (r.cap ▸ ha), r.byteAt _ ha]
    exact .ok (r.continued _)

theorem execRdstatus (sel : StatusSel) : OutcomesAlike (execRdstatus sel s) (execRdstatus sel t) := by
  unfold Machine.execRdstatus
  rw [r.readRegister hs ht]
  exact r.conclude (.bind_read _ fun _ => .ok (r.continued _))

theorem leaderStep (hst : s.st = .await) (e : Edge) (d : BitVec 15) :
    OutcomesAlike (s.leaderStep e d) (t.leaderStep e d) := by
  cases e with
  | mark => exact .next ((r.latch d).continued 0)
  | space =>
    have hs' := hs.store_of_running (.inl hst)
    have ht' := ht.store_of_running (.inl (r.st.trans hst))
    unfold State.leaderStep State.leaderPair
    dsimp only
    rw [r.lmValid]
    split
    · exact (r.pairSpace d).conclude ((r.pairSpace d).acceptLeader (hs'.keep_pairSpace d) (ht'.keep_pairSpace d) d)
    · exact .next (r.continued 0)

theorem sample (e : Edge) (dur : BitVec 24) : OutcomesAlike (s.sample e dur) (t.sample e dur) := by
  unfold State.sample
  rw [r.st, r.errKind]
  split
  · exact .next (r.respond ..)
  · exact .next (r.respond ..)
  · next hst =>
    split
    · exact .next (r.raiseSession _)
    · exact r.leaderStep hs ht hst e _
  · next hst =>
    split
    · exact .next (r.raiseSession _)
    · have hs' := hs.store_of_running (.inr hst)
      have ht' := ht.store_of_running (.inr (r.st.trans hst))
      exact r.conclude (r.frameStep hs' ht' hst e _)

theorem exec (i : Instr) : OutcomesAlike (exec i s) (exec i t) := by
  cases i with
  | init c => exact r.execInit c
  | mark dur => exact r.sample hs ht .mark dur
  | space dur => exact r.sample hs ht .space dur
  | rdcount => exact r.execRdcount hs ht
  | rdframe sel index => exact r.execRdframe hs ht sel index
  | rdbyte addr => exact r.execRdbyte hs ht addr
  | rdstatus sel => exact r.execRdstatus hs ht sel

end SameBelowCap

/-- Settles O47. -/
theorem bytesAboveCapUnseen : Obligations.BytesAboveCapUnseen := by
  intro i s t b hs hs' hb hx
  have halike := (SameBelowCap.mk b hb).exec hs hs' i
  rw [hx] at halike
  generalize hy : exec i { s with buf := b } = y at halike
  cases halike with
  | next r => cases r with | mk b' hb' => exact ⟨_, rfl, rfl, hb'⟩

end Sys2Proof.Machine
end

section
/-! PROOF. Decoding and encoding (30_encoding.md R80 to R84, R90): a row of the opcode table selects the words whose bits above
the operands are those of its match, which makes `decode` and `encode` inverse to each other. The statements O1 to O5. -/

namespace Sys2Proof

/-! Fields of a word as numbers. -/

/-- A word is its high part above its low part. -/
theorem toNat_append_eq_add {m n : Nat} (x : BitVec m) (y : BitVec n) : (x ++ y).toNat = x.toNat * 2 ^ n + y.toNat := by
  rw [BitVec.toNat_append, ← Nat.shiftLeft_add_eq_or_of_lt y.isLt, Nat.shiftLeft_eq]

/-- A mask that clears the lowest n bits. -/
theorem toNat_and_highMask {m : Nat} (w : BitVec m) (n : Nat) :
    (w &&& BitVec.allOnes m <<< n).toNat = w.toNat / 2 ^ n * 2 ^ n := by
  have hand : w &&& BitVec.allOnes m <<< n = w >>> n <<< n := by
    ext i hi
    by_cases hn : i < n
    · simp [hn]
    · have hshift : n + (i - n) = i := by omega
      simp [hn, hshift, BitVec.getLsbD_eq_getElem hi]
  have hlt : w.toNat / 2 ^ n * 2 ^ n < 2 ^ m := Nat.lt_of_le_of_lt (Nat.div_mul_le_self _ _) w.isLt
  rw [hand, BitVec.toNat_shiftLeft, BitVec.toNat_ushiftRight, Nat.shiftLeft_eq, Nat.shiftRight_eq_div_pow,
    Nat.mod_eq_of_lt hlt]

/-! Which words a row selects. -/

/-- How many of a row's low bits hold its operands (R81); the bits above, OP, EDGE and the reserved ones, are fixed. -/
def Opcode.operandBits : Opcode → Nat
  | .init | .rdbyte => 16
  | .mark | .space => 24
  | .rdcount => 0
  | .rdframe => 10
  | .rdstatus => 2

namespace OpcodeRow

/-- A row's mask covers every bit above its operands (R81, R83). -/
theorem mask_eq : ∀ r ∈ opcodeRows, r.mask = BitVec.allOnes 32 <<< r.name.operandBits := by decide

/-- A row's match has no bit among its operands (R81, R83). -/
theorem pattern_eq :
    ∀ r ∈ opcodeRows, r.pattern.toNat = r.pattern.toNat / 2 ^ r.name.operandBits * 2 ^ r.name.operandBits := by decide

/-- The matches of two rows differ in a bit that both masks cover (R83). -/
theorem eq_of_patterns_agree :
    ∀ r ∈ opcodeRows, ∀ r' ∈ opcodeRows, r.pattern &&& r'.mask = r'.pattern &&& r.mask → r = r' := by decide

theorem hits_iff {r : OpcodeRow} {w : Word} : r.hits w = true ↔ w &&& r.mask = r.pattern := beq_iff_eq

/-- A row selects the words whose bits above the operands are those of its match. -/
theorem hits_iff_div {r : OpcodeRow} (hr : r ∈ opcodeRows) (w : Word) :
    r.hits w = true ↔ w.toNat / 2 ^ r.name.operandBits = r.pattern.toNat / 2 ^ r.name.operandBits := by
  have hpos : 0 < 2 ^ r.name.operandBits := Nat.two_pow_pos _
  rw [hits_iff, mask_eq r hr, ← BitVec.toNat_inj, toNat_and_highMask]
  conv_lhs => rw [pattern_eq r hr]
  exact Nat.mul_left_inj (Nat.ne_of_gt hpos)

/-- A row selects the words with the OP of its match and with the match's bits between OP and the operands (R80, R81). -/
theorem hits_iff_fields {r : OpcodeRow} (hr : r ∈ opcodeRows) (w : Word) : r.hits w = true ↔
    w.extractLsb' 28 4 = r.pattern.extractLsb' 28 4 ∧
      w.extractLsb' r.name.operandBits (28 - r.name.operandBits) =
        r.pattern.extractLsb' r.name.operandBits (28 - r.name.operandBits) := by
  have hle : r.name.operandBits ≤ 28 := by cases r.name <;> decide
  rw [hits_iff_div hr]
  generalize r.name.operandBits = n at hle
  have hop : ∀ v : Word, (v.extractLsb' 28 4).toNat = v.toNat / 2 ^ n / 2 ^ (28 - n) := by
    intro v
    rw [BitVec.extractLsb'_toNat, Nat.shiftRight_eq_div_pow, Nat.div_div_eq_div_mul, ← Nat.pow_add,
      Nat.add_sub_of_le hle]
    omega
  have hlow : ∀ v : Word, (v.extractLsb' n (28 - n)).toNat = v.toNat / 2 ^ n % 2 ^ (28 - n) := by
    intro v
    rw [BitVec.extractLsb'_toNat, Nat.shiftRight_eq_div_pow]
  rw [← BitVec.toNat_inj, ← BitVec.toNat_inj, hop, hop, hlow, hlow]
  constructor
  · intro h
    rw [h]
    exact ⟨rfl, rfl⟩
  · rintro ⟨hdiv, hmod⟩
    rw [← Nat.div_add_mod (w.toNat / 2 ^ n) (2 ^ (28 - n)), hdiv, hmod, Nat.div_add_mod]

/-- R83: no two rows overlap. -/
theorem eq_of_hits {r r' : OpcodeRow} (hr : r ∈ opcodeRows) (hr' : r' ∈ opcodeRows) {w : Word} (h : r.hits w = true)
    (h' : r'.hits w = true) : r = r' := by
  refine eq_of_patterns_agree r hr r' hr' ?_
  calc r.pattern &&& r'.mask
    _ = w &&& r.mask &&& r'.mask := by rw [hits_iff.1 h]
    _ = w &&& r'.mask &&& r.mask := by rw [BitVec.and_assoc, BitVec.and_comm r.mask, BitVec.and_assoc]
    _ = r'.pattern &&& r.mask := by rw [hits_iff.1 h']

end OpcodeRow

/-! Decoding is row selection. -/

/-- R83: a word decodes to a command when a row selects it, and the command is the row's with the word's operands. -/
theorem decode_eq_ok_iff {w : Word} {i : Instr} :
    decode w = .ok i ↔ ∃ r ∈ opcodeRows, r.hits w = true ∧ r.name.operands w = i := by
  unfold decode
  cases hfind : opcodeRows.find? (fun r => r.hits w) with
  | none =>
    have hnone := List.find?_eq_none.1 hfind
    simp only [reduceCtorEq, false_iff, not_exists, not_and]
    exact fun r hr hit => absurd hit (hnone r hr)
  | some r =>
    have hr := List.mem_of_find?_eq_some hfind
    have hit : r.hits w = true := List.find?_some (p := fun r => OpcodeRow.hits r w) hfind
    simp only [Except.ok.injEq]
    constructor
    · exact fun h => ⟨r, hr, hit, h⟩
    · rintro ⟨r', hr', hit', rfl⟩
      rw [OpcodeRow.eq_of_hits hr hr' hit hit']

/-- R83, R84: a word is ILLEGAL when no row selects it. -/
theorem exists_decode_error_iff {w : Word} :
    (∃ e, decode w = .error e) ↔ ∀ r ∈ opcodeRows, ¬ r.hits w = true := by
  rw [← List.find?_eq_none]
  unfold decode
  cases opcodeRows.find? (fun r => r.hits w) <;> simp

/-! Encoding. -/

@[simp] theorem FrameSel.ofBits_toBits (sel : FrameSel) : FrameSel.ofBits sel.toBits = sel := by cases sel <;> rfl

@[simp] theorem FrameSel.toBits_ofBits : ∀ b : BitVec 2, (FrameSel.ofBits b).toBits = b := by decide

@[simp] theorem StatusSel.toBits_ofBits : ∀ b : BitVec 2, (StatusSel.ofBits b).toBits = b := by decide

/-- R82: the operand fields of a command's word hold its operands. -/
theorem operands_encode (i : Instr) : i.opcode.operands (encode i) = i := by
  cases i with
  | init cap => exact congrArg Instr.init BitVec.extractLsb'_append_eq_right
  | mark dur => exact congrArg Instr.mark BitVec.extractLsb'_append_eq_right
  | space dur => exact congrArg Instr.space BitVec.extractLsb'_append_eq_right
  | rdcount => rfl
  | rdframe sel index =>
    have hindex : (encode (.rdframe sel index)).extractLsb' 0 8 = index := BitVec.extractLsb'_append_eq_right
    have hsel : (encode (.rdframe sel index)).extractLsb' 8 2 = sel.toBits := by
      rw [encode, BitVec.extractLsb'_append_eq_of_le (Nat.le_refl 8)]
      exact BitVec.extractLsb'_append_eq_right
    rw [Instr.opcode, Opcode.operands, hindex, hsel, FrameSel.ofBits_toBits]
  | rdbyte addr => exact congrArg Instr.rdbyte BitVec.extractLsb'_append_eq_right
  | rdstatus sel => cases sel <;> rfl

/-- A command's word hits the row of its name (R81). -/
theorem encode_hits_row (i : Instr) : ∃ r ∈ opcodeRows, r.name = i.opcode ∧ r.hits (encode i) = true := by
  cases i with
  | init cap => exact Laws.EncodingHitsRow.init cap
  | mark dur => exact Laws.EncodingHitsRow.mark dur
  | space dur => exact Laws.EncodingHitsRow.space dur
  | rdcount => exact Laws.EncodingHitsRow.rdcount
  | rdframe sel index => exact Laws.EncodingHitsRow.rdframe sel index
  | rdbyte addr => exact Laws.EncodingHitsRow.rdbyte addr
  | rdstatus sel => exact Laws.EncodingHitsRow.rdstatus sel

/-- R81, R82: the word of a row's command with the operands of `w` is the row's match with the low bits of `w`. -/
theorem toNat_encode_operands (w : Word) : ∀ r ∈ opcodeRows,
    (encode (r.name.operands w)).toNat = r.pattern.toNat + w.toNat % 2 ^ r.name.operandBits := by
  simp only [opcodeRows, List.forall_mem_cons, Opcode.operands, Opcode.operandBits, encode, toNat_append_eq_add,
    BitVec.extractLsb'_toNat, BitVec.ofNat_eq_ofNat, BitVec.toNat_ofNat, Nat.shiftRight_eq_div_pow,
    FrameSel.toBits_ofBits, StatusSel.toBits_ofBits, List.not_mem_nil, false_implies, implies_true, and_true, Nat.reducePow]
  omega

/-- A word that a row selects is the encoding of the row's command with the word's operands. -/
theorem encode_operands_of_hits {r : OpcodeRow} (hr : r ∈ opcodeRows) {w : Word} (h : r.hits w = true) :
    encode (r.name.operands w) = w := by
  have hdiv := (OpcodeRow.hits_iff_div hr w).1 h
  refine BitVec.eq_of_toNat_eq ?_
  rw [toNat_encode_operands w r hr, OpcodeRow.pattern_eq r hr, ← hdiv, Nat.div_add_mod']

/-- Settles O1: the command's word hits the row of its name, whose operand fields give the command back. -/
theorem decodeInvertsEncode : Obligations.DecodeInvertsEncode := by
  intro i _
  obtain ⟨r, hr, hname, hit⟩ := encode_hits_row i
  exact decode_eq_ok_iff.2 ⟨r, hr, hit, by rw [hname, operands_encode]⟩

/-- Settles O2. -/
theorem encodeInvertsDecode : Obligations.EncodeInvertsDecode := by
  intro w i hdec
  obtain ⟨r, hr, hit, rfl⟩ := decode_eq_ok_iff.1 hdec
  exact encode_operands_of_hits hr hit

/-! Decoding as the chain of R83. -/

/-- Decoding with the rows `rows` of a table. -/
def decodeWith (rows : List OpcodeRow) (w : Word) : Except DecodeError Instr :=
  (rows.find? fun r => r.hits w).elim (.error (reservedReason w)) fun r => .ok (r.name.operands w)

theorem decode_eq_decodeWith (w : Word) : decode w = decodeWith opcodeRows w := by
  unfold decode decodeWith
  cases opcodeRows.find? fun r => r.hits w <;> rfl

theorem decodeWith_cons (r : OpcodeRow) (rows : List OpcodeRow) (w : Word) :
    decodeWith (r :: rows) w = if w &&& r.mask = r.pattern then .ok (r.name.operands w) else decodeWith rows w := by
  unfold decodeWith
  rw [List.find?_cons]
  split
  · next hit => rw [if_pos (OpcodeRow.hits_iff.1 hit)]; rfl
  · next hmiss => rw [if_neg (by rw [← OpcodeRow.hits_iff, hmiss]; exact Bool.false_ne_true)]

/-- Settles O3: each row of the table is one test of the chain; RDCOUNT's mask covers the whole word. -/
theorem decodeFollowsTable : Obligations.DecodeFollowsTable := by
  refine ⟨fun w => ?_, fun w r r' hr hr' hit hit' => OpcodeRow.eq_of_hits hr hr' hit hit'⟩
  have hfull : w &&& 0xFFFFFFFF = w := BitVec.and_allOnes
  rw [decode_eq_decodeWith]
  simp only [opcodeRows, decodeWith_cons, hfull]
  rfl

/-! Reserved encodings. -/

/-- R81: SAMPLE's reserved bits are 0 when EDGE is all that bits 27 to 24 hold. -/
theorem sample_reserved_zero_iff (w : Word) :
    w.extractLsb' 25 3 = 0#3 ↔ w.extractLsb' 24 4 = 1#4 ∨ w.extractLsb' 24 4 = 0#4 := by
  simp only [← BitVec.toNat_inj, BitVec.extractLsb'_toNat, Nat.shiftRight_eq_div_pow, BitVec.toNat_ofNat]
  omega

/-- R80, R84: OP names one of the rows' opcodes, or it is unassigned. -/
theorem opcode_cases : ∀ op : BitVec 4,
    ((op.toNat = 0 ∨ 7 ≤ op.toNat) ∧ op ≠ 1#4 ∧ op ≠ 2#4 ∧ op ≠ 3#4 ∧ op ≠ 4#4 ∧ op ≠ 5#4 ∧ op ≠ 6#4) ∨
      op = 1#4 ∨ op = 2#4 ∨ op = 3#4 ∨ op = 4#4 ∨ op = 5#4 ∨ op = 6#4 := by decide

/-- Settles O4: a row holds the words of its OP with every reserved bit 0, and SAMPLE's two rows hold both values of EDGE. -/
theorem reservedWordsRefused : Obligations.ReservedWordsRefused := by
  intro w
  constructor
  · rw [exists_decode_error_iff, forall₂_congr fun r hr => not_congr (OpcodeRow.hits_iff_fields hr w)]
    simp only [opcodeRows, List.forall_mem_cons, Opcode.operandBits, ne_eq, sample_reserved_zero_iff]
    generalize w.extractLsb' 28 4 = op
    rcases opcode_cases op with ⟨hop, hne⟩ | hassigned
    · simp [hop, hne]
    · rcases hassigned with rfl | rfl | rfl | rfl | rfl | rfl <;> simp
  · rintro s ⟨e, hdec⟩
    rw [Machine.runWord_of_decode_error hdec, Machine.execIllegal_eq]

/-- Settles O5: R90's words, each decoded by the table. -/
theorem workedEncodingsDecode : Obligations.WorkedEncodingsDecode := by
  unfold Obligations.WorkedEncodingsDecode
  decide

end Sys2Proof
end

section
/-! PROOF. The assembler (30_encoding.md R88, R89): a line gives the words of its commands when its operands fit, and the lines
of a pseudo-instruction's expansion give its words. The statements O6 and O7. -/

namespace Sys2Proof

namespace AsmLine

theorem assemble_of_wellFormed {l : AsmLine} (h : l.wellFormed = true) : l.assemble = some (l.instrs.map encode) :=
  if_pos h

/-- R88: a line whose operands do not fit is refused. -/
theorem assemble_of_not_wellFormed {l : AsmLine} (h : ¬ l.wellFormed = true) : l.assemble = none := if_neg h

/-- The words of several lines: all of them, if the assembler refuses none. -/
theorem mapM_assemble (ls : List AsmLine) : ls.mapM assemble =
    if ls.all wellFormed then some (ls.map fun l => l.instrs.map encode) else none := by
  induction ls with
  | nil => rfl
  | cons l ls ih =>
    by_cases hl : l.wellFormed = true
    · by_cases hls : ls.all wellFormed = true <;> simp [List.mapM_cons, ih, assemble_of_wellFormed hl, hl, hls]
    · simp [List.mapM_cons, assemble_of_not_wellFormed hl, hl]

/-- R89: a pseudo-instruction whose operands fit when those of its expansion do, and whose commands are the expansion's, gives
the expansion's words. -/
theorem assemble_eq_of_expansion {l : AsmLine} {ls : List AsmLine} (hwf : l.wellFormed = ls.all wellFormed)
    (hinstrs : l.instrs = ls.flatMap instrs) : l.assemble = (ls.mapM assemble).map List.flatten := by
  rw [mapM_assemble, assemble, hwf, hinstrs]
  split
  · simp [List.flatMap_def, Function.comp_def]
  · rfl

end AsmLine

/-- A command's line stands for the command (R88). -/
theorem instrs_line (i : Instr) : i.line.instrs = [i] := by
  cases i with
  | rdframe sel index => cases sel <;> simp [Instr.line, AsmLine.instrs, FrameSel.number, FrameSel.ofBits]
  | rdstatus sel => cases sel <;> rfl
  | _ => simp [Instr.line, AsmLine.instrs, sampleInstr]

/-- Settles O6: every command's operands fit their fields, and each refusal is the range check of its line. -/
theorem assemblerWritesCommands : Obligations.AssemblerWritesCommands := by
  refine ⟨fun i => ?_, fun cap h => ?_, fun dur h => ⟨?_, ?_⟩, fun index sel h => ?_, fun addr h => ?_, fun sel h => ?_⟩
  · rw [AsmLine.assemble_of_wellFormed (Laws.instr_wellFormed i), instrs_line]
    rfl
  all_goals
    refine AsmLine.assemble_of_not_wellFormed ?_
    simp only [AsmLine.wellFormed, Bool.and_eq_true, decide_eq_true_eq]
    omega

/-- R89: the bits of a byte, most significant first, as quotients by the powers of two. -/
theorem byteBits_eq (v : Nat) : byteBits v =
    [v / 128 % 2, v / 64 % 2, v / 32 % 2, v / 16 % 2, v / 8 % 2, v / 4 % 2, v / 2 % 2, v % 2].map (· == 1) := by
  have hbit : ∀ j < 8, (BitVec.ofNat 8 v).getLsbD j = (v / 2 ^ j % 2 == 1) := by
    intro j hj
    rw [BitVec.getLsbD_ofNat, Nat.testBit_eq_decide_div_mod_eq, beq_eq_decide, decide_eq_true hj, Bool.true_and]
  calc byteBits v
    _ = (List.range 8).map fun j => v / 2 ^ (7 - j) % 2 == 1 := List.map_congr_left fun j _ => hbit (7 - j) (by omega)
    _ = _ := by simp [List.range_succ]

/-- R89: `<F>.BYTE` is eight `<F>.BIT`. -/
theorem assemble_formatByte (f : Format) {v : Nat} (hv : v ≤ 255) : AsmLine.assemble (.formatByte f v) =
    ([v / 128 % 2, v / 64 % 2, v / 32 % 2, v / 16 % 2, v / 8 % 2, v / 4 % 2, v / 2 % 2, v % 2].mapM
      fun b => AsmLine.assemble (.formatBit f b)).map List.flatten := by
  rw [← Function.comp_def, ← List.mapM_map]
  refine AsmLine.assemble_eq_of_expansion ?_ ?_
  · simp [AsmLine.wellFormed, hv]
    omega
  · rw [AsmLine.instrs, byteBits_eq, List.flatMap_map, List.flatMap_map]
    rfl

/-- Settles O7: the expansions with operands by the lines they consist of, the nominals and the text by evaluation. -/
theorem pseudoInstructionsExpand : Obligations.PseudoInstructionsExpand := by
  refine ⟨fun dur => ⟨rfl, rfl⟩, by decide, fun m s => ?_, by decide, by decide, by decide, by decide, by decide, by decide,
    by decide, by decide, by decide, by decide, by decide, by decide, by decide, by decide, by decide,
    fun f v hv => assemble_formatByte f hv⟩
  exact AsmLine.assemble_eq_of_expansion (by simp [AsmLine.wellFormed]) rfl

end Sys2Proof
end

section
/-! PROOF. The response word (30_encoding.md R86, R87): the responses a sample and INIT can give, and the form of the response
of every command word in every state. The statements O38 and O39. -/

namespace Sys2Proof.Machine

/-! The form of R86. -/

/-- The response words of R86: KIND is 0 where no error is reported, and DATA is 0 where nothing has been read. -/
inductive LegalResponse : Word → Prop
  | continued (d : Half) : LegalResponse (respWord .continued 0 d)
  | frameBoundary : LegalResponse (respWord .frameBoundary 0 0)
  | sessionError (k : BitVec 4) : LegalResponse (respWord .sessionError k 0)
  | commandError (k : BitVec 4) : LegalResponse (respWord .commandError k 0)

/-- R86: the fields of a response. -/
theorem LegalResponse.fields {r : Word} (h : LegalResponse r) :
    r.extractLsb' 16 8 = 0#8 ∧ (r.extractLsb' 28 4).toNat ≤ 3 ∧
      ((r.extractLsb' 28 4).toNat ≤ 1 → r.extractLsb' 24 4 = 0#4) ∧
      (r.extractLsb' 28 4 ≠ 0#4 → r.extractLsb' 0 16 = 0#16) := by
  cases h <;> rw [respWord_reserved, respWord_outcome, respWord_kind, respWord_data] <;> simp [RespOutcome.code]

/-- The state has answered its last command in the form of R86. -/
def State.Answered (s : State) : Prop := ∃ r, s.resp = some r ∧ LegalResponse r

namespace State.Answered

theorem continued (s : State) (d : Half) : (s.continued d).Answered := ⟨_, rfl, .continued d⟩

theorem raiseSession (s : State) (k : SessionErrorKind) : (s.raiseSession k).Answered := ⟨_, rfl, .sessionError k.code⟩

theorem raiseCommand (s : State) (k : CommandErrorKind) : (s.raiseCommand k).Answered := ⟨_, rfl, .commandError k.code⟩

/-- A command that goes on has answered, if its work has where it raises nothing (R212). -/
theorem of_conclude {s t : State} {x : Except Raised State} (hx : ∀ u, x = .ok u → u.Answered)
    (h : s.conclude x = .next t) : t.Answered := by
  rcases conclude_eq_next.1 h with h | ⟨k, -, rfl⟩
  · exact hx t h
  · exact raiseSession s k

/-- R192. -/
theorem of_readCommand {s t : State} {x : Except Raised State} (hx : ∀ u, x = .ok u → u.Answered)
    (h : s.readCommand x = .next t) : t.Answered := by
  unfold State.readCommand at h
  split at h
  · cases h; exact raiseCommand s _
  · exact of_conclude hx h

/-- A read of BUF or of a register that goes on with an answer. -/
theorem of_bind {α : Type} {x : Except Raised α} {f : α → Except Raised State}
    (hf : ∀ a u, f a = .ok u → u.Answered) (u : State) (h : (x >>= f) = .ok u) : u.Answered := by
  obtain ⟨a, -, ha⟩ := bind_eq_ok.1 h
  exact hf a u ha

end State.Answered

/-! Samples and INIT. -/

/-- The answers of a sample (R120 to R125, R141 to R147): goes on, seals a frame, raises, or is refused in ERROR and UNINIT. -/
inductive SampleAnswer (s : State) : Option Word → Prop
  | continued : SampleAnswer s (some (respWord .continued 0 0))
  | sealed : SampleAnswer s (some (respWord .frameBoundary 0 0))
  | raised (k : SessionErrorKind) : SampleAnswer s (some (respWord .sessionError k.code 0))
  | failed (hs : s.st = .error) : SampleAnswer s (some (respWord .sessionError s.errKind 0))
  | notInitialized : SampleAnswer s (some (respWord .commandError CommandErrorKind.notInitialized.code 0))

/-- R123 to R125. -/
theorem leaderStep_answer {s t : State} {e : Edge} {d : BitVec 15} (h : s.leaderStep e d = .next t) :
    SampleAnswer s t.resp := by
  cases e with
  | mark => cases h; exact .continued
  | space =>
    unfold State.leaderStep State.leaderPair at h
    dsimp only at h
    split at h
    · rcases conclude_eq_next.1 h with hx | ⟨k, -, rfl⟩
      · obtain ⟨u, -, rfl⟩ := acceptLeader_effect hx
        exact .continued
      · exact .raised k
    · cases h; exact .continued

/-- R120 to R122, R140. -/
theorem sample_answer {s t : State} {e : Edge} {dur : BitVec 24} (h : s.sample e dur = .next t) :
    SampleAnswer s t.resp := by
  unfold State.sample at h
  split at h
  · cases h; exact .notInitialized
  · next hs => cases h; exact .failed hs
  · split at h
    · cases h; exact .raised .timingOverflow
    · exact leaderStep_answer h
  · split at h
    · cases h; exact .raised .timingOverflow
    · rcases conclude_eq_next.1 h with hx | ⟨k, -, rfl⟩
      · obtain ⟨u, -, rfl | rfl⟩ := frameStep_effect hx
        · exact .continued
        · exact .sealed
      · exact .raised k

/-- R190, R191: INIT succeeds or answers BufferTooSmall. -/
theorem init_answer {s t : State} {c : BitVec 16} (h : execInit c s = .next t) :
    t.resp = some (respWord .continued 0 0) ∨ t.resp = some (respWord .sessionError bufferTooSmallCode 0) := by
  unfold execInit at h
  split at h
  · cases h; exact .inr rfl
  · cases h; exact .inl rfl

/-- R211: the kinds of session errors that a sample reports. -/
theorem kind_cases {k : BitVec 4} (h : 1 ≤ k.toNat ∧ k.toNat ≤ 6) :
    k = 1 ∨ k = 2 ∨ k = 3 ∨ k = 4 ∨ k = 5 ∨ k = 6 := by
  revert k; decide

/-- Settles O38: a sample in ERROR repeats ERR_KIND, which `Inv` keeps among the kinds that a sample raises. -/
theorem sampleResponses : Obligations.SampleResponses := by
  refine ⟨fun e dur s t hinv h => ?_, fun c s t h => init_answer h⟩
  rw [exec_sampleOf] at h
  have hanswer := sample_answer h
  generalize t.resp = r at hanswer
  cases hanswer with
  | continued => exact .inl rfl
  | sealed => exact .inr (.inl rfl)
  | raised k => cases k <;> decide
  | failed hs =>
    obtain ⟨-, -, hlegal⟩ := hinv.errKindLegal
    rcases kind_cases (hlegal hs) with hk | hk | hk | hk | hk | hk <;> rw [hk] <;> decide
  | notInitialized => decide

/-! Every command. -/

theorem SampleAnswer.answered {s t : State} (h : SampleAnswer s t.resp) : t.Answered := by
  unfold State.Answered
  generalize t.resp = r at h
  cases h with
  | continued => exact ⟨_, rfl, .continued 0⟩
  | sealed => exact ⟨_, rfl, .frameBoundary⟩
  | raised k => exact ⟨_, rfl, .sessionError k.code⟩
  | failed => exact ⟨_, rfl, .sessionError s.errKind⟩
  | notInitialized => exact ⟨_, rfl, .commandError _⟩

theorem execInit_answered {s t : State} {c : BitVec 16} (h : execInit c s = .next t) : t.Answered := by
  rcases init_answer h with h | h
  · exact ⟨_, h, .continued 0⟩
  · exact ⟨_, h, .sessionError _⟩

/-- R193. -/
theorem execRdcount_answered {s t : State} (h : execRdcount s = .next t) : t.Answered := by
  refine .of_readCommand (.of_bind fun n u hu => ?_) h
  cases hu
  exact .continued ..

/-- R194, R195. -/
theorem execRdframe_answered {s t : State} {sel : FrameSel} {index : BitVec 8} (h : execRdframe sel index s = .next t) :
    t.Answered := by
  refine .of_readCommand (.of_bind fun n u hu => ?_) h
  split at hu
  · cases hu; exact .raiseCommand ..
  · refine .of_bind (fun p => .of_bind fun v u hu => ?_) u hu
    cases hu
    exact .continued ..

/-- R196. -/
theorem execRdbyte_answered {s t : State} {addr : BitVec 16} (h : execRdbyte addr s = .next t) : t.Answered := by
  refine .of_readCommand (fun u hu => ?_) h
  split at hu
  · cases hu; exact .raiseCommand ..
  · refine .of_bind (fun b u hu => ?_) u hu
    cases hu
    exact .continued ..

/-- R198. -/
theorem execRdstatus_answered {s t : State} {sel : StatusSel} (h : execRdstatus sel s = .next t) : t.Answered := by
  refine .of_conclude (.of_bind fun v u hu => ?_) h
  cases hu
  exact .continued ..

/-- R86: every command that gives a next state answers in the form of R86. -/
theorem exec_answered {i : Instr} {s t : State} (h : exec i s = .next t) : t.Answered := by
  cases i with
  | init c => exact execInit_answered h
  | mark dur => exact (sample_answer (e := .mark) h).answered
  | space dur => exact (sample_answer (e := .space) h).answered
  | rdcount => exact execRdcount_answered h
  | rdframe sel index => exact execRdframe_answered h
  | rdbyte addr => exact execRdbyte_answered h
  | rdstatus sel => exact execRdstatus_answered h

/-- R85, R86, R199: so does every word, since ILLEGAL is answered too. -/
theorem runWord_answered {w : Word} {s t : State} (h : runWord w s = .next t) : t.Answered := by
  rcases hdec : decode w with e | i
  · rw [runWord_of_decode_error hdec] at h; cases h; exact .raiseCommand ..
  · rw [runWord_of_decode_ok hdec] at h; exact exec_answered h

/-- Settles O39. -/
theorem responseForm : Obligations.ResponseForm := by
  intro w s t h
  obtain ⟨r, hresp, hlegal⟩ := runWord_answered h
  exact ⟨r, hresp, hlegal.fields⟩

end Sys2Proof.Machine
end

section
/-! PROOF. The margin test (40_classifier.md R103, R104) and the ranges of the default Format Table (R101, R106, R107). The
statements O52 and O54. -/

namespace Sys2Proof

/-! The margin test. -/

@[simp] theorem inRange_none (v : Nat) : inRange v none = false := rfl

@[simp] theorem inRange_some (v : Nat) (r : Range) : inRange v (some r) = inR v r := rfl

/-- R103: the test in its integer form. -/
theorem inR_iff {v : Nat} {r : Range} : inR v r = true ↔ 8 * r.nominal ≤ 10 * v ∧ 10 * v ≤ 12 * r.nominal := by
  simp [inR]

/-- A duration is not below the bound rounded up exactly when it is not below the exact 80 % of the nominal. -/
theorem Range.lo_le_iff {v : Nat} {r : Range} : r.lo ≤ v ↔ 8 * r.nominal ≤ 10 * v := by
  unfold Range.lo; omega

/-- A duration is not above the bound rounded down exactly when it is not above the exact 120 % of the nominal. -/
theorem Range.le_hi_iff {v : Nat} {r : Range} : v ≤ r.hi ↔ 10 * v ≤ 12 * r.nominal := by
  unfold Range.hi; omega

/-- R103: the range is the closed interval between its bounds. -/
theorem inR_iff_bounds {v : Nat} {r : Range} : inR v r = true ↔ r.lo ≤ v ∧ v ≤ r.hi := by
  rw [inR_iff, Range.lo_le_iff, Range.le_hi_iff]

theorem inR_eq_false_iff {v : Nat} {r : Range} : inR v r = false ↔ v < r.lo ∨ r.hi < v := by
  rw [← Bool.not_eq_true, inR_iff_bounds, not_and_or, not_le, not_le]

/-- R103: 0 lies below every range with `N ≥ 1`. -/
theorem Range.lo_pos {r : Range} (h : 1 ≤ r.nominal) : 0 < r.lo := by
  unfold Range.lo; omega

/-- R104: the test is reflexive at the nominal. -/
theorem inR_nominal (r : Range) : inR r.nominal r = true := by
  rw [inR_iff]; omega

/-- R104: exactly 20 % either side is accepted, where 5 divides the nominal. -/
theorem inR_twenty_percent {r : Range} {n : Nat} (h : r.nominal = 5 * n) :
    inR (4 * n) r = true ∧ inR (6 * n) r = true := by
  rw [inR_iff, inR_iff]; omega

/-- Settles O52: the interval form gives both rejections, of which the lower one needs `Range.lo_pos`. -/
theorem marginClassifier : Obligations.MarginClassifier := by
  refine ⟨inRange_none, fun r v hN => ?_⟩
  have hlo := Range.lo_pos hN
  exact ⟨rfl, rfl, inR_iff, inR_iff_bounds, inRange_some v r, inR_eq_false_iff.2 (.inl hlo), inR_nominal r,
    fun n => inR_twenty_percent, inR_eq_false_iff.2 (.inl (Nat.sub_one_lt hlo.ne')),
    inR_eq_false_iff.2 (.inr (Nat.lt_succ_self _))⟩

/-! Disjoint ranges. -/

/-- One range ends before the other starts. -/
abbrev Range.Apart (r q : Range) : Prop := r.hi < q.lo ∨ q.hi < r.lo

/-- Ranges that lie apart accept no common duration. -/
theorem Range.Apart.inR_eq_false {r q : Range} {v : Nat} (h : r.Apart q) (hv : inR v r = true) : inR v q = false := by
  rw [inR_iff_bounds] at hv
  rw [inR_eq_false_iff]
  omega

/-- Optional ranges accept no common duration when what is present of them lies apart. -/
theorem inRange_eq_false_of_apart {o p : Option Range} {v : Nat} (h : ∀ r ∈ o, ∀ q ∈ p, r.Apart q)
    (hv : inRange v o = true) : inRange v p = false := by
  match o, p with
  | _, none => rfl
  | some r, some q => exact (h r rfl q rfl).inR_eq_false hv

/-! The default table. -/

/-- The ranges that a descriptor holds (R100). -/
def Descriptor.ranges (D : Descriptor) : List Range :=
  [D.leaderMark, D.symbol0, D.symbol1] ++ D.leaderSpace.toList ++ D.repeater.toList

theorem Descriptor.mem_ranges {D : Descriptor} {r : Range} : r ∈ D.ranges ↔
    r = D.leaderMark ∨ D.leaderSpace = some r ∨ D.repeater = some r ∨ r = D.symbol0 ∨ r = D.symbol1 := by
  simp only [ranges, List.mem_append, List.mem_cons, List.not_mem_nil, or_false, Option.mem_toList]
  tauto

/-- R106: NEC 674 < 1349, Kadenkyo 510 < 1020, Sony 720 < 960. -/
theorem default_symbols_apart (f : Format) :
    (FormatTable.default.descriptor f).symbol0.Apart (FormatTable.default.descriptor f).symbol1 := by
  cases f <;> decide

/-- R106: NEC 2697 < 3597, Kadenkyo 2040 < 2720; Sony has neither range. -/
theorem default_leaderSpace_apart_repeater (f : Format) : ∀ r ∈ (FormatTable.default.descriptor f).leaderSpace,
    ∀ q ∈ (FormatTable.default.descriptor f).repeater, r.Apart q := by
  cases f <;> decide

/-- R106: of the ranges 2720 to 4080 and 1920 to 2880, the common part. -/
theorem default_leaderMarks_overlap (v : Nat) :
    (inR v FormatTable.default.kadenkyo.leaderMark = true ∧ inR v FormatTable.default.sony.leaderMark = true) ↔
      2720 ≤ v ∧ v ≤ 2880 := by
  have hkadenkyo : inR v FormatTable.default.kadenkyo.leaderMark = true ↔ 2720 ≤ v ∧ v ≤ 4080 := inR_iff_bounds
  have hsony : inR v FormatTable.default.sony.leaderMark = true ↔ 1920 ≤ v ∧ v ≤ 2880 := inR_iff_bounds
  rw [hkadenkyo, hsony]
  omega

/-- R107: the highest bound is that of the NEC leader mark. -/
theorem default_ranges_hi_le (f : Format) : ∀ r ∈ (FormatTable.default.descriptor f).ranges, r.hi ≤ 10790 := by
  cases f <;> decide

/-- Settles O54: the ranges that are disjoint lie apart, and the leader marks that meet do so where both intervals hold. -/
theorem defaultTableSeparation : Obligations.DefaultTableSeparation :=
  ⟨fun f _ hv => (default_symbols_apart f).inR_eq_false hv,
    fun f _ _ hv => inRange_eq_false_of_apart (default_leaderSpace_apart_repeater f) hv,
    default_leaderMarks_overlap,
    fun v => inRange_some v FormatTable.default.kadenkyo.leaderMark,
    fun f r hr => default_ranges_hi_le f r (Descriptor.mem_ranges.2 hr)⟩

end Sys2Proof
end

section
/-! PROOF. The leader match (41_leader.md R126): what one descriptor accepts, and that the first in table order wins. The
statement O53. -/

namespace Sys2Proof.Machine

/-- A descriptor whose mark range misses the mark accepts nothing. -/
theorem leaderKind_of_mark_miss {D : Descriptor} {m d : Nat} (h : inR m D.leaderMark = false) :
    leaderKind D m d = none := by
  simp [leaderKind, h]

/-- A descriptor with no leaderSpace gives Data whatever the space is. -/
theorem leaderKind_of_no_space {D : Descriptor} {m d : Nat} (h : inR m D.leaderMark = true) (hs : D.leaderSpace = none) :
    leaderKind D m d = some .data := by
  simp [leaderKind, h, hs]

/-- With a leaderSpace, its range is tested before the repeater's. -/
theorem leaderKind_of_space {D : Descriptor} {m d : Nat} (h : inR m D.leaderMark = true) (hs : D.leaderSpace ≠ none) :
    leaderKind D m d =
      if inRange d D.leaderSpace then some .data else if inRange d D.repeater then some .repeater else none := by
  simp [leaderKind, h, hs]

/-- R126: one turn of the loop. -/
theorem leaderKind_eq_some_iff {D : Descriptor} {m d : Nat} {k : FrameKind} : leaderKind D m d = some k ↔
    inR m D.leaderMark = true ∧
      ((k = .data ∧ (D.leaderSpace = none ∨ inRange d D.leaderSpace = true)) ∨
        (k = .repeater ∧ D.leaderSpace ≠ none ∧ inRange d D.leaderSpace = false ∧ inRange d D.repeater = true)) := by
  by_cases hmark : inR m D.leaderMark = true
  · by_cases hnone : D.leaderSpace = none
    · rw [leaderKind_of_no_space hmark hnone]
      simp [hmark, hnone, eq_comm (a := FrameKind.data)]
    · rw [leaderKind_of_space hmark hnone]
      by_cases hspace : inRange d D.leaderSpace = true
      · simp [hmark, hnone, hspace, eq_comm (a := FrameKind.data)]
      · by_cases hrepeat : inRange d D.repeater = true
        · simp [hmark, hnone, hspace, hrepeat, eq_comm (a := FrameKind.repeater)]
        · simp [hmark, hnone, hspace, hrepeat]
  · rw [leaderKind_of_mark_miss (Bool.eq_false_of_not_eq_true hmark)]
    simp [hmark]

theorem findSome?_cons_eq_or {α β : Type} (f : α → Option β) (a : α) (l : List α) :
    (a :: l).findSome? f = (f a).or (l.findSome? f) := by
  rw [List.findSome?_cons]
  cases f a <;> rfl

/-- R126: the loop over the three formats; a later format's turn is taken only where no earlier one gives a kind. -/
theorem matchLeader_eq_or (t : FormatTable) (m d : Nat) :
    matchLeader t m d =
      ((leaderKind t.nec m d).map (Format.nec, ·)).or
        (((leaderKind t.kadenkyo m d).map (Format.kadenkyo, ·)).or
          ((leaderKind t.sony m d).map (Format.sony, ·))) := by
  simp only [matchLeader, findSome?_cons_eq_or, List.findSome?_nil, Option.or_none, FormatTable.descriptor]

/-- Settles O53: each format's turn gives that format's own pairs, so the first turn that gives one decides. -/
theorem firstDescriptorWins : Obligations.FirstDescriptorWins := by
  refine ⟨fun D m d k => leaderKind_eq_some_iff, fun t m d f k => ?_⟩
  rw [matchLeader_eq_or]
  cases f with
  | nec => simp [FormatTable.descriptor]
  | kadenkyo => simp [FormatTable.descriptor, and_comm]
  | sony => simp [FormatTable.descriptor, and_comm, and_assoc]

end Sys2Proof.Machine
end

section
/-! PROOF. SAMPLE up to the leader pair (41_leader.md R120 to R125): what it gives in each STATE, and that only its
representability check raises TimingOverflow. The statements O14 to O17. -/

namespace Sys2Proof.Machine

/-! SAMPLE in each STATE (R120 to R123). -/

section Sample

variable {s : State} {e : Edge} {dur : BitVec 24}

theorem sample_of_uninit (hs : s.st = .uninit) : s.sample e dur = .next (s.raiseCommand .notInitialized) := by
  unfold State.sample; rw [hs]

theorem sample_of_error (hs : s.st = .error) : s.sample e dur = .next (s.respond .sessionError s.errKind 0) := by
  unfold State.sample; rw [hs]

/-- R122: the representability check comes first. -/
theorem sample_of_unrepresentable (hs : s.st = .await ∨ s.st = .assemble) (hd : Config.maxDuration < dur.toNat) :
    s.sample e dur = .next (s.raiseSession .timingOverflow) := by
  have hu := (unrepresentable_iff dur).2 hd
  unfold State.sample
  rcases hs with hs | hs <;> rw [hs] <;> exact if_pos hu

theorem sample_of_await (hs : s.st = .await) (hd : dur.toNat ≤ Config.maxDuration) :
    s.sample e dur = s.leaderStep e (shortDuration dur) := by
  unfold State.sample
  rw [hs]
  exact if_neg (by simp [unrepresentable_eq_false hd])

theorem sample_of_assemble (hs : s.st = .assemble) (hd : dur.toNat ≤ Config.maxDuration) :
    s.sample e dur = s.conclude (s.frameStep e (shortDuration dur)) := by
  unfold State.sample
  rw [hs]
  exact if_neg (by simp [unrepresentable_eq_false hd])

/-- R123, R127: a space with a latched mark makes a leader pair, whose two writes stand if the rest of it raises. -/
theorem exec_space_of_latched (hs : s.st = .await) (hv : s.lmValid = true) (hd : dur.toNat ≤ Config.maxDuration) :
    exec (.space dur) s =
      (s.pairSpace (shortDuration dur)).conclude ((s.pairSpace (shortDuration dur)).acceptLeader (shortDuration dur)) :=
  (sample_of_await (e := .space) hs hd).trans (if_pos hv)

end Sample

/-- The response in ERROR: KIND is ERR_KIND, the rest of the word below OUTCOME is 0 (R86, R120). -/
theorem respWord_errKind (k : BitVec 4) : respWord .sessionError k 0 = 0x2#4 ++ k ++ 0#24 := by
  revert k; decide

/-- Settles O14. -/
theorem sampleOutsideSession : Obligations.SampleOutsideSession := by
  intro dur s
  refine ⟨fun hs => ⟨sample_of_uninit hs, sample_of_uninit hs⟩, fun hs => ?_⟩
  rw [← respWord_errKind]
  exact ⟨sample_of_error hs, sample_of_error hs⟩

/-- Settles O16. -/
theorem markIsLatched : Obligations.MarkIsLatched := by
  intro dur s hs hd
  rw [← shortDuration_eq]
  exact sample_of_await (e := .mark) hs hd

/-- Settles O17. -/
theorem unpairedSpaceIgnored : Obligations.UnpairedSpaceIgnored := by
  intro dur s hs hv hd
  have hstep : s.leaderStep .space (shortDuration dur) = .next (s.continued 0) := if_neg (by simp [hv])
  exact (sample_of_await (e := .space) hs hd).trans hstep

/-! Only the representability check raises TimingOverflow (R122): no operation after it does, in any state. -/

theorem bind_ne_session {α β : Type} {x : Except Raised α} {f : α → Except Raised β} {k : SessionErrorKind}
    (hx : x ≠ .error (.session k)) (hf : ∀ a, f a ≠ .error (.session k)) : (x >>= f) ≠ .error (.session k) := by
  intro h
  rcases bind_eq_error.1 h with h | ⟨a, -, h⟩
  · exact hx h
  · exact hf a h

section NeSession

variable {s : State} {k : SessionErrorKind}

theorem nextRecord_ne_session {n : Nat} : s.nextRecord n ≠ .error (.session k) := by
  unfold State.nextRecord
  split
  · exact nofun
  · exact bind_ne_session offset_ne_session fun p => bind_ne_session read16_ne_session fun kb => nofun

theorem currentFrame_ne_session : s.currentFrame ≠ .error (.session k) := by
  refine bind_ne_session frameCount_ne_session fun n => ?_
  split
  · exact nofun
  · exact offset_ne_session

theorem writeRecord_ne_session {n off : Nat} {kind : FrameKind} {e : BitVec 20} :
    s.writeRecord n off kind e ≠ .error (.session k) :=
  bind_ne_session write16_ne_session fun _ => bind_ne_session write16_ne_session fun _ =>
    bind_ne_session write16_ne_session fun _ => write8_ne_session

theorem fixFormat_ne_session {f : Format} : s.fixFormat f ≠ .error (.session k) := by
  refine bind_ne_session read8_ne_session fun fmt => ?_
  split
  · exact write8_ne_session
  · exact nofun

theorem descriptor_ne_session : s.descriptor ≠ .error (.session k) := by
  refine bind_ne_session read8_ne_session fun c => ?_
  split <;> exact nofun

theorem addElapsed_ne_session {d : BitVec 15} : s.addElapsed d ≠ .error (.session k) :=
  bind_ne_session currentFrame_ne_session fun _ => write16_ne_session

theorem samePayload_ne_session {p q n : Nat} : s.samePayload p q n ≠ .error (.session k) := by
  induction n with
  | zero => exact nofun
  | succ n ih =>
    refine bind_ne_session ih fun same => ?_
    split
    · exact bind_ne_session read8_ne_session fun x => bind_ne_session read8_ne_session fun y => nofun
    · exact nofun

theorem duplicates_ne_session {p q : Nat} : s.duplicates p q ≠ .error (.session k) := by
  refine bind_ne_session read16_ne_session fun kp => bind_ne_session read16_ne_session fun kq => ?_
  split
  · exact samePayload_ne_session
  · exact nofun

theorem finalize_ne_session {i : Nat} : s.finalize i ≠ .error (.session k) := by
  unfold State.finalize
  split
  · exact nofun
  refine bind_ne_session offset_ne_session fun p => bind_ne_session offset_ne_session fun q =>
    bind_ne_session duplicates_ne_session fun dup => ?_
  split
  · exact bind_ne_session read16_ne_session fun kb => write16_ne_session
  · exact nofun

theorem sealFrame_ne_session {d : BitVec 15} : s.sealFrame d ≠ .error (.session k) :=
  bind_ne_session frameCount_ne_session fun _ => bind_ne_session finalize_ne_session fun _ => nofun

theorem isBoundary_ne_session {D : Descriptor} {d : BitVec 15} : s.isBoundary D d ≠ .error (.session k) :=
  bind_ne_session currentFrame_ne_session fun _ => bind_ne_session read16_ne_session fun _ => nofun

end NeSession

section NeTimingOverflow

variable {s : State} {d : BitVec 15}

theorem appendFrame_ne_timingOverflow {k : FrameKind} {e : BitVec 20} :
    s.appendFrame k e ≠ .error (.session .timingOverflow) := by
  refine bind_ne_session frameCount_ne_session fun n => ?_
  split
  · exact nofun
  refine bind_ne_session nextRecord_ne_session fun off => ?_
  split
  · exact nofun
  · exact writeRecord_ne_session

/-- A leader pair raises UnrecognizedLeader, FormatMismatch or BufferOverflow only (R128). -/
theorem acceptLeader_ne_timingOverflow : s.acceptLeader d ≠ .error (.session .timingOverflow) := by
  unfold State.acceptLeader
  split
  · exact nofun
  refine bind_ne_session read8_ne_session fun fmt => ?_
  split
  · exact nofun
  · exact bind_ne_session appendFrame_ne_timingOverflow fun _ => bind_ne_session fixFormat_ne_session fun _ => nofun

theorem writeBit_ne_timingOverflow {b : Bool} : s.writeBit b ≠ .error (.session .timingOverflow) := by
  refine bind_ne_session currentFrame_ne_session fun p => bind_ne_session read16_ne_session fun kb => ?_
  dsimp only
  split
  · exact nofun
  refine bind_ne_session ?_ fun old => bind_ne_session write8_ne_session fun _ => write16_ne_session
  unfold State.payloadByte
  split
  · split <;> exact nofun
  · exact read8_ne_session

theorem symbolStep_ne_timingOverflow {b : Bool} : s.symbolStep b d ≠ .error (.session .timingOverflow) := by
  refine bind_ne_session currentFrame_ne_session fun p => bind_ne_session read16_ne_session fun kb => ?_
  split
  · exact nofun
  · exact bind_ne_session writeBit_ne_timingOverflow fun _ => bind_ne_session addElapsed_ne_session fun _ => nofun

theorem infoStep_ne_timingOverflow {D : Descriptor} : s.infoStep D d ≠ .error (.session .timingOverflow) := by
  unfold State.infoStep
  split
  · exact symbolStep_ne_timingOverflow
  split
  · exact symbolStep_ne_timingOverflow
  refine bind_ne_session isBoundary_ne_session fun boundary => ?_
  split
  · exact sealFrame_ne_session
  · exact nofun

theorem syncStep_ne_timingOverflow {D : Descriptor} : s.syncStep D d ≠ .error (.session .timingOverflow) := by
  unfold State.syncStep
  split
  · exact nofun
  · exact bind_ne_session addElapsed_ne_session fun _ => nofun

/-- A sample in ASSEMBLE raises TimingTooShort, UnexpectedTiming or BufferOverflow only (R141, R147, R163). -/
theorem frameStep_ne_timingOverflow {e : Edge} : s.frameStep e d ≠ .error (.session .timingOverflow) := by
  refine bind_ne_session descriptor_ne_session fun D => ?_
  split
  · exact infoStep_ne_timingOverflow
  · exact syncStep_ne_timingOverflow

end NeTimingOverflow

/-- A command answers TimingOverflow only by raising it, if its work does not answer so itself. -/
theorem conclude_resp_ne_timingOverflow {s t : State} {x : Except Raised State}
    (hx : x ≠ .error (.session .timingOverflow)) (hok : ∀ u, x = .ok u → u.resp ≠ some 0x21000000)
    (h : s.conclude x = .next t) : t.resp ≠ some 0x21000000 := by
  rcases conclude_eq_next.1 h with h | ⟨k, hraise, rfl⟩
  · exact hok t h
  · have hk : k ≠ .timingOverflow := fun hk => hx (hk ▸ hraise)
    rw [State.raiseSession_resp]
    revert hk
    cases k <;> decide

theorem continued_resp_ne_timingOverflow (s : State) : (s.continued 0).resp ≠ some 0x21000000 := by
  rw [State.continued_resp]; decide

theorem sealedBy_resp_ne_timingOverflow (s : State) (d : BitVec 15) : (s.sealedBy d).resp ≠ some 0x21000000 := by
  rw [State.sealedBy, State.respond_resp]; decide

/-- R122: a representable duration is not answered with TimingOverflow in a running session. -/
theorem sample_resp_ne_timingOverflow {s t : State} {e : Edge} {dur : BitVec 24} (hs : s.st = .await ∨ s.st = .assemble)
    (hd : dur.toNat ≤ Config.maxDuration) (h : s.sample e dur = .next t) : t.resp ≠ some 0x21000000 := by
  rcases hs with hs | hs
  · cases e with
    | mark => rw [sample_of_await hs hd] at h; cases h; exact continued_resp_ne_timingOverflow _
    | space =>
      by_cases hv : s.lmValid = true
      · rw [← exec_sampleOf, sampleOf, exec_space_of_latched hs hv hd] at h
        refine conclude_resp_ne_timingOverflow acceptLeader_ne_timingOverflow (fun u hu => ?_) h
        obtain ⟨w, -, rfl⟩ := acceptLeader_effect hu
        exact continued_resp_ne_timingOverflow _
      · rw [sample_of_await hs hd, State.leaderStep, if_neg hv] at h
        cases h
        exact continued_resp_ne_timingOverflow _
  · rw [sample_of_assemble hs hd] at h
    refine conclude_resp_ne_timingOverflow frameStep_ne_timingOverflow (fun u hu => ?_) h
    obtain ⟨w, -, rfl | rfl⟩ := frameStep_effect hu
    · exact continued_resp_ne_timingOverflow w
    · exact sealedBy_resp_ne_timingOverflow w _

/-- Settles O15. -/
theorem unrepresentableDuration : Obligations.UnrepresentableDuration := by
  intro dur s hs
  refine ⟨fun hd => ⟨sample_of_unrepresentable hs hd, sample_of_unrepresentable hs hd⟩, fun hd t ht => ?_⟩
  rcases ht with ht | ht
  · exact sample_resp_ne_timingOverflow (e := .mark) hs hd ht
  · exact sample_resp_ne_timingOverflow (e := .space) hs hd ht

end Sys2Proof.Machine
end

section
/-! PROOF. The leader pair (41_leader.md R127 to R130, 43_frame_store.md R161): what it leaves when it is rejected, and the frame
it starts when it is accepted. The statements O18 to O20. -/

namespace Sys2Proof.Machine

/-! A leader pair that is rejected (R127, R129, R130). -/

/-- R127: the pair's two writes stand, and nothing else of it. -/
theorem exec_space_of_rejected {s : State} {dur : BitVec 24} {k : SessionErrorKind} (hs : s.st = .await)
    (hv : s.lmValid = true) (hd : dur.toNat ≤ Config.maxDuration)
    (hx : (s.pairSpace (shortDuration dur)).acceptLeader (shortDuration dur) = .error (.session k)) :
    exec (.space dur) s = .next ((s.pairSpace (shortDuration dur)).raiseSession k) := by
  rw [exec_space_of_latched hs hv hd, hx, conclude_session]

theorem acceptLeader_of_no_match {s : State} {d : BitVec 15} (hm : matchLeader s.table s.lm.toNat d.toNat = none) :
    s.acceptLeader d = .error (.session .unrecognizedLeader) := by
  unfold State.acceptLeader
  rw [hm]

theorem acceptLeader_of_mismatch {s : State} {d : BitVec 15} {f : Format} {k : FrameKind} {fmt : Byte}
    (hm : matchLeader s.table s.lm.toNat d.toNat = some (f, k)) (hread : s.read8 formatAddr = .ok fmt) (h0 : fmt ≠ 0)
    (hf : fmt ≠ f.code) : s.acceptLeader d = .error (.session .formatMismatch) := by
  unfold State.acceptLeader
  rw [hm]
  dsimp only
  rw [hread, ok_bind, if_pos ⟨h0, hf⟩]

/-- Settles O19. -/
theorem formatMismatchEndsSession : Obligations.FormatMismatchEndsSession := by
  intro dur s f k fmt hs hv hd hm hread h0 hf
  rw [← toNat_shortDuration hd] at hm
  rw [← shortDuration_eq]
  exact exec_space_of_rejected hs hv hd (acceptLeader_of_mismatch hm hread h0 hf)

/-- R213: only INIT leaves ERROR. -/
theorem exec_keeps_error {i : Instr} {s t : State} (hi : ∀ c, i ≠ .init c) (hs : s.st = .error) (h : exec i s = .next t) :
    t.st = .error := by
  rcases stateTransitions i s t h with hst | ⟨c, hc, -⟩ | ⟨_, -, hawait, -⟩ | ⟨_, _, -, hasm, -, -⟩ | ⟨_, _, -, -, herr⟩
  · exact hst.trans hs
  · exact absurd hc (hi c)
  · exact nomatch hs.symm.trans hawait
  · exact nomatch hs.symm.trans hasm
  · exact herr

/-- R129: the session is over until INIT. -/
theorem runAll_keeps_error {is : List Instr} {s t : State} (his : ∀ i ∈ is, ∀ c, i ≠ .init c) (hs : s.st = .error)
    (h : runAll is s = .next t) : t.st = .error := by
  induction is generalizing s with
  | nil => cases h; exact hs
  | cons i is ih =>
    obtain ⟨hi, his⟩ := List.forall_mem_cons.1 his
    rw [runAll] at h
    split at h
    · next u hu => exact ih his (exec_keeps_error hi hs hu) h
    · cases h
    · cases h

/-- Settles O18. -/
theorem unrecognizedLeaderEndsSession : Obligations.UnrecognizedLeaderEndsSession := by
  intro dur s hs hv hd hm
  rw [← toNat_shortDuration hd] at hm
  rw [← shortDuration_eq]
  exact ⟨_, exec_space_of_rejected hs hv hd (acceptLeader_of_no_match hm), rfl,
    fun is u his h => runAll_keeps_error his rfl h⟩

/-! A leader pair that is accepted (R128, R161). -/

theorem read_setByte_other {s : State} {a c : Nat} {v : Byte} (h : c ≠ a) :
    (s.setByte a v).buf.read c = s.buf.read c :=
  Memory.read_write_other _ _ _ _ h

theorem read_setHalf_other {s : State} {a c : Nat} {v : Half} (h : c ≠ a) (h' : c ≠ a + 1) :
    (s.setHalf a v).buf.read c = s.buf.read c :=
  (read_setByte_other h').trans (read_setByte_other h)

theorem read_appended_other {s : State} {k : FrameKind} {e : BitVec 20} {c : Nat} (h1 : c ≠ countAddr)
    (h2 : c ≠ offsetAddr s.frames) (h3 : c ≠ offsetAddr s.frames + 1) (h4 : c < s.nextOffset ∨ s.nextOffset + 4 ≤ c) :
    (s.appended k e).buf.read c = s.buf.read c := by
  unfold State.appended
  rw [read_setByte_other h1, read_setHalf_other (by omega) (by omega), read_setHalf_other (by omega) (by omega),
    read_setHalf_other h2 h3]

theorem read_formatFixed_other {s : State} {f : Format} {c : Nat} (h0 : c ≠ formatAddr) :
    (s.formatFixed f).buf.read c = s.buf.read c := by
  unfold State.formatFixed
  split
  · exact read_setByte_other h0
  · rfl

theorem frameOpened_buf (s : State) (f : Format) (k : FrameKind) (e : BitVec 20) :
    (s.frameOpened f k e).buf = ((s.appended k e).formatFixed f).buf := by
  rw [State.frameOpened, State.enter_buf, State.setEacc_buf]

/-- An accepted leader writes FORMAT, FRAME_COUNT, the frame's OFFSET and its record header, and no other byte. -/
theorem read_frameOpened_other {s : State} {f : Format} {k : FrameKind} {e : BitVec 20} {c : Nat} (h0 : c ≠ formatAddr)
    (h1 : c ≠ countAddr) (h2 : c ≠ offsetAddr s.frames) (h3 : c ≠ offsetAddr s.frames + 1)
    (h4 : c < s.nextOffset ∨ s.nextOffset + 4 ≤ c) : (s.frameOpened f k e).buf.read c = s.buf.read c := by
  rw [frameOpened_buf, read_formatFixed_other h0, read_appended_other h1 h2 h3 h4]

/-- A write of the Frame Store leaves every register but EACC. -/
theorem StoreWrite.eq {s t : State} (h : StoreWrite s t) : t = { s with buf := t.buf, eacc := t.eacc } := by
  rw [← h.table, ← h.st, ← h.cap, ← h.errKind, ← h.lm, ← h.ls, ← h.lmValid, ← h.port, ← h.resp]

/-- R128: the registers an accepted leader leaves. -/
theorem eq_of_acceptLeader {s t : State} {d : BitVec 15} (hx : s.acceptLeader d = .ok t) :
    t = { s with buf := t.buf, eacc := t.eacc, st := .assemble, resp := some (respWord .continued 0 0) } := by
  obtain ⟨u, hu, rfl⟩ := acceptLeader_effect hx
  exact congrArg (fun v : State => (v.enter .assemble).continued 0) hu.eq

@[simp] theorem frames_pairSpace (s : State) (d : BitVec 15) : (s.pairSpace d).frames = s.frames := rfl

theorem elapsedField_eq (e : BitVec 20) : elapsedField e = BitVec.ofNat 16 (e.toNat / 16) :=
  BitVec.eq_of_toNat_eq (by rw [elapsedField_toNat, BitVec.toNat_ofNat]; have := e.isLt; omega)

/-- FRAME_COUNT as the byte that holds it. -/
theorem State.countByte_eq (s : State) : s.byteAt countAddr = BitVec.ofNat 8 s.frames := by
  unfold State.frames; rw [BitVec.ofNat_toNat, BitVec.setWidth_eq]

/-- The Frame Store of `t` is that of `s` with a frame of zero bits appended, its ELAPSED showing EACC (R128, R161). -/
structure FrameStarted (s t : State) (f : Format) (k : FrameKind) : Prop where
  format : t.read8 formatAddr = .ok f.code
  count : t.read8 countAddr = .ok (BitVec.ofNat 8 (s.frames + 1))
  offset : t.offset s.frames = .ok s.nextOffset
  kb : t.read16 s.nextOffset = .ok (makeKb k.code 0)
  elapsed : t.read16 (s.nextOffset + 2) = .ok (elapsedField t.eacc)
  other : ∀ a, a ≠ formatAddr → a ≠ countAddr → a ≠ offsetAddr s.frames → a ≠ offsetAddr s.frames + 1 →
    (a < s.nextOffset ∨ s.nextOffset + 4 ≤ a) → t.buf.read a = s.buf.read a

/-- A response changes nothing of the Frame Store. -/
theorem FrameStarted.continued {s t : State} {f : Format} {k : FrameKind} (h : FrameStarted s t f k) (d : Half) :
    FrameStarted s (t.continued d) f k :=
  ⟨h.format, h.count, h.offset, h.kb, h.elapsed, h.other⟩

section Accepted

variable {s : State} (h : StoreInv s)
include h

/-- R128: the checks of a leader pair passed, in their order. -/
theorem StoreInv.acceptLeader_of_room {d : BitVec 15} {f : Format} {k : FrameKind}
    (hm : matchLeader s.table s.lm.toNat d.toNat = some (f, k)) (hfmt : s.formatByte = 0 ∨ s.formatByte = f.code)
    (hn : s.frames < 10) (hcap : s.nextOffset + 4 ≤ s.cap.toNat) :
    s.acceptLeader d = .ok ((s.frameOpened f k (sat20 (s.lm.toNat + d.toNat))).continued 0) := by
  rw [h.acceptLeader_eq, hm]
  dsimp only
  rw [if_neg (by tauto), if_neg (by simp only [Config.maxFrames, Config.recHdr]; omega)]

theorem StoreInv.frameOpened_started {f : Format} {k : FrameKind} (e : BitVec 20) (hk : k ≠ .sameAsFirst)
    (hfmt : s.formatByte = 0 ∨ s.formatByte = f.code) (hn : s.frames < 10) (hcap : s.nextOffset + 4 ≤ s.cap.toNat) :
    FrameStarted s (s.frameOpened f k e) f k := by
  have keep := h.keep_frameOpened f k e hn hcap hk
  have hframes := frames_frameOpened f k e hn
  have hlast : s.frames < (s.frameOpened f k e).frames := by omega
  have hrec := h.recordAt_frameOpened f k e hn hcap
  have hformat : (s.frameOpened f k e).formatByte = f.code := by
    rw [h.formatByte_frameOpened]
    rcases hfmt with hz | hf
    · rw [if_pos hz]
    · rw [hf, if_neg (Format.code_ne_zero f)]
  have hkb := keep.readKb hlast
  have helapsed := keep.readElapsed hlast
  rw [hrec, h.kbAt_frameOpened f k e hn hcap] at hkb
  rw [hrec, h.elapsedAt_frameOpened f k e hn hcap] at helapsed
  exact {
    format := hformat ▸ keep.readFormat
    count := hframes ▸ State.countByte_eq _ ▸ keep.readCount
    offset := hrec ▸ keep.offset hn
    kb := hkb
    elapsed := helapsed
    other := fun a h0 h1 h2 h3 h4 => read_frameOpened_other h0 h1 h2 h3 h4 }

/-- R128: an accepted leader starts a frame. -/
theorem StoreInv.acceptLeader_starts {d : BitVec 15} {f : Format} {k : FrameKind}
    (hm : matchLeader s.table s.lm.toNat d.toNat = some (f, k)) (hfmt : s.formatByte = 0 ∨ s.formatByte = f.code)
    (hn : s.frames < 10) (hcap : s.nextOffset + 4 ≤ s.cap.toNat) :
    ∃ t, s.acceptLeader d = .ok t ∧ t.eacc = sat20 (s.lm.toNat + d.toNat) ∧ FrameStarted s t f k :=
  ⟨_, h.acceptLeader_of_room hm hfmt hn hcap, rfl,
    (h.frameOpened_started _ (matchLeader_ne_same hm) hfmt hn hcap).continued 0⟩

end Accepted

/-- Settles O20: the pair's two writes leave the Frame Store as it was, so the frame is opened where the statement places it. -/
theorem leaderStartsFrame : Obligations.LeaderStartsFrame := by
  intro dur s f k off hinv hs hv hd hm hfmt hn hoff hcap
  have h := (hinv.store_of_running (.inl hs)).keep_pairSpace (shortDuration dur)
  obtain rfl : (s.pairSpace (shortDuration dur)).nextOffset = off := Except.ok.inj (h.nextRecord_eq.symm.trans hoff)
  obtain ⟨t, hx, heacc, started⟩ := h.acceptLeader_starts (toNat_shortDuration hd ▸ hm) hfmt hn hcap
  rw [State.pairSpace_lm, toNat_shortDuration hd] at heacc
  refine ⟨t, by rw [exec_space_of_latched hs hv hd, hx, conclude_ok], ?_, started.format, started.count, started.offset,
    started.kb, by rw [started.elapsed, elapsedField_eq], ?_⟩
  · have hregs := eq_of_acceptLeader hx
    rw [heacc] at hregs
    rw [← shortDuration_eq]
    exact hregs
  · intro a h0 h1 h2 h3 h4
    exact started.other a h0 h1 h2 (by rw [frames_pairSpace, offsetAddr]; omega) h4

end Sys2Proof.Machine
end

section
/-! PROOF. SAMPLE in ASSEMBLE (42_bits.md R140 to R144, R147, R150): the command as its bit extractor, and what a sync
pulse and a bit leave. The statements O23, O24 and O26. -/

namespace Sys2Proof.Machine

/-! The edge chooses between the sync check and the bit classifier (R140). -/

section Extractor

variable {s : State} {f : Format} {dur : BitVec 24} (hinv : Inv s) (hs : s.st = .assemble)
  (hfmt : s.formatByte = f.code) (hd : dur.toNat ≤ Config.maxDuration)
include hinv hs hfmt hd

theorem exec_sampleOf_of_assemble (e : Edge) :
    exec (sampleOf e dur) s = s.conclude
      (if e = (s.table.descriptor f).infoEdge then s.infoStep (s.table.descriptor f) (shortDuration dur)
        else s.syncStep (s.table.descriptor f) (shortDuration dur)) := by
  rw [exec_sampleOf, sample_of_assemble hs hd, State.frameStep,
    (hinv.store_of_running (.inr hs)).descriptor_eq hfmt, ok_bind]

/-- R141: the sync edge. -/
theorem exec_syncEdge {e : Edge} (he : e ≠ (s.table.descriptor f).infoEdge) :
    exec (sampleOf e dur) s = s.conclude (s.syncStep (s.table.descriptor f) (shortDuration dur)) := by
  rw [exec_sampleOf_of_assemble hinv hs hfmt hd, if_neg he]

/-- R142: the informative edge. -/
theorem exec_infoEdge :
    exec (sampleOf (s.table.descriptor f).infoEdge dur) s =
      s.conclude (s.infoStep (s.table.descriptor f) (shortDuration dur)) := by
  rw [exec_sampleOf_of_assemble hinv hs hfmt hd, if_pos rfl]

end Extractor

/-! What the model's own reads give of the current frame. -/

namespace StoreInv

variable {s : State} (h : StoreInv s) (hf : 1 ≤ s.frames)
include h hf

theorem recordAt_of_currentFrame {p : Nat} (hp : s.currentFrame = .ok p) : s.recordAt s.current = p :=
  Except.ok.inj ((h.currentFrame hf).symm.trans hp)

/-- ELAPSED of the current frame, as it is read, shows EACC (R167). -/
theorem readElapsed_current :
    s.read16 (s.recordAt s.current + 2) = .ok (BitVec.ofNat 16 (s.eacc.toNat / 16)) := by
  rw [h.readElapsed (State.current_lt hf), h.elapsedShown hf, elapsedField_eq]

end StoreInv

/-- A response changes no byte, so every read is as it was. -/
@[simp] theorem read8_continued (s : State) (d : Half) (a : Nat) : (s.continued d).read8 a = s.read8 a := rfl

@[simp] theorem read16_continued (s : State) (d : Half) (a : Nat) : (s.continued d).read16 a = s.read16 a := rfl

/-! The sync edge (R141). -/

/-- Elapsed time writes BUF and EACC (R167). -/
theorem elapsedAdded_eq (s : State) (d : BitVec 15) :
    s.elapsedAdded d =
      { s with buf := (s.elapsedAdded d).buf, eacc := sat20 (s.eacc.toNat + d.toNat) } := rfl

/-- Elapsed time changes the current record's ELAPSED halfword only, specified bytes or not (R167). -/
theorem read_elapsedAdded_other {s : State} {d : BitVec 15} {c : Nat} (h0 : c ≠ s.recordAt s.current + 2)
    (h1 : c ≠ s.recordAt s.current + 3) : (s.elapsedAdded d).buf.read c = s.buf.read c :=
  read_setHalf_other (s := s.setEacc _) h0 h1

namespace StoreInv

variable {s : State} (h : StoreInv s) (hf : 1 ≤ s.frames)
include h hf

theorem frames_elapsedAdded (d : BitVec 15) : (s.elapsedAdded d).frames = s.frames := by
  have hr := h.record_ge (State.current_lt hf)
  exact frames_low (L := 22) (fun c hc => byteAt_elapsedAdded s d c (by omega) (by omega)) (Nat.le_refl _)

theorem formatByte_elapsedAdded (d : BitVec 15) : (s.elapsedAdded d).formatByte = s.formatByte := by
  have hr := h.record_ge (State.current_lt hf)
  exact formatByte_low (L := 22) (fun c hc => byteAt_elapsedAdded s d c (by omega) (by omega)) (Nat.le_refl _)

theorem currentRecord_elapsedAdded (d : BitVec 15) :
    (s.elapsedAdded d).recordAt (s.elapsedAdded d).current = s.recordAt s.current := by
  rw [h.current_elapsedAdded hf, h.record_elapsedAdded hf]

theorem readElapsed_elapsedAdded (d : BitVec 15) :
    (s.elapsedAdded d).read16 (s.recordAt s.current + 2) =
      .ok (BitVec.ofNat 16 ((s.elapsedAdded d).eacc.toNat / 16)) := by
  have hf' : 1 ≤ (s.elapsedAdded d).frames := by rw [h.frames_elapsedAdded hf]; exact hf
  rw [← h.currentRecord_elapsedAdded hf d]
  exact (h.keep_elapsedAdded hf d).readElapsed_current hf'

end StoreInv

/-- Settles O23. -/
theorem syncPulse : Obligations.SyncPulse := by
  intro e dur s f p hinv hs hfmt he hd hp
  have h := hinv.store_of_running (.inr hs)
  have hf := h.openFrame hs
  obtain rfl := h.recordAt_of_currentFrame hf hp
  have hexec := exec_syncEdge hinv hs hfmt hd he
  rw [h.syncStep_eq hf, toNat_shortDuration hd] at hexec
  refine ⟨fun hlow => ?_, fun hge => ⟨(s.elapsedAdded (shortDuration dur)).continued 0, ?_, ?_, ?_, ?_⟩⟩
  · rw [if_pos hlow] at hexec
    exact hexec
  · rw [if_neg (Nat.not_lt.2 hge)] at hexec
    exact hexec
  · rw [← toNat_shortDuration hd]
    exact congrArg (State.continued · 0) (elapsedAdded_eq s (shortDuration dur))
  · rw [read16_continued, State.continued_eacc, h.readElapsed_elapsedAdded hf]
  · intro a h2 h3
    rw [State.continued_buf, read_elapsedAdded_other h2 h3]

/-! The informative edge (R142). -/

/-- The bit a duration on the informative edge stands for: symbol0 is tested before symbol1 (R142). -/
def SymbolBit (D : Descriptor) (v : Nat) (b : Bool) : Prop :=
  (b = false ∧ inR v D.symbol0 = true) ∨ (b = true ∧ inR v D.symbol1 = true ∧ inR v D.symbol0 = false)

theorem exists_symbolBit {D : Descriptor} {v : Nat} (h : inR v D.symbol0 = true ∨ inR v D.symbol1 = true) :
    ∃ b, SymbolBit D v b := by
  by_cases h0 : inR v D.symbol0 = true
  · exact ⟨false, .inl ⟨rfl, h0⟩⟩
  · exact ⟨true, .inr ⟨rfl, h.resolve_left h0, Bool.eq_false_of_not_eq_true h0⟩⟩

theorem infoStep_of_symbolBit {s : State} {D : Descriptor} {d : BitVec 15} {b : Bool} (hb : SymbolBit D d.toNat b) :
    s.infoStep D d = s.symbolStep b d := by
  unfold State.infoStep
  rcases hb with ⟨rfl, h0⟩ | ⟨rfl, h1, h0⟩
  · rw [if_pos h0]
  · rw [if_neg (by simp [h0]), if_pos h1]

/-- R147: beyond or between the symbol ranges, and no boundary. -/
theorem StoreInv.infoStep_of_no_symbol {s : State} (h : StoreInv s) (hf : 1 ≤ s.frames) {D : Descriptor} {d : BitVec 15}
    (h0 : inR d.toNat D.symbol0 = false) (h1 : inR d.toNat D.symbol1 = false)
    (hb : ¬ (D.symbol0.hi < d.toNat ∧ D.symbol1.hi < d.toNat ∧ s.bitsAt s.current % 8 = 0 ∧
      inR d.toNat D.leaderMark = true)) : s.infoStep D d = .error (.session .unexpectedTiming) := by
  unfold State.infoStep
  rw [if_neg (by simp [h0]), if_neg (by simp [h1]), h.isBoundary_eq hf, ok_bind,
    if_neg (by simpa only [Bool.and_eq_true, decide_eq_true_eq, and_assoc] using hb)]

/-- R150: a Repeater frame takes no bits. -/
theorem StoreInv.symbolStep_of_repeater {s : State} (h : StoreInv s) (hs : s.st = .assemble)
    (hk : s.kindAt s.current = FrameKind.repeater.code) (b : Bool) (d : BitVec 15) :
    s.symbolStep b d = .error (.session .unexpectedTiming) := by
  rw [h.symbolStep_eq (h.openFrame hs) (h.openKind hs), if_pos hk]

/-- Settles O26. -/
theorem unexpectedTimingEndsSession : Obligations.UnexpectedTimingEndsSession := by
  intro dur s f p kb hinv hs hfmt hd hp hkb hcase
  have h := hinv.store_of_running (.inr hs)
  have hf := h.openFrame hs
  obtain rfl := h.recordAt_of_currentFrame hf hp
  obtain rfl := halfAt_of_read16 hkb
  have raised : s.infoStep (s.table.descriptor f) (shortDuration dur) = .error (.session .unexpectedTiming) := by
    rw [← toNat_shortDuration hd] at hcase
    rcases hcase with ⟨h0, h1, hb⟩ | ⟨hsym, hrep⟩
    · exact h.infoStep_of_no_symbol hf h0 h1 hb
    · obtain ⟨b, hb⟩ := exists_symbolBit hsym
      rw [infoStep_of_symbolBit hb, h.symbolStep_of_repeater hs hrep]
  rw [exec_infoEdge hinv hs hfmt hd, raised, conclude_session]
  rfl

/-! A bit (R143, R144, R163). -/

/-- R163: the bit at its place in the byte. -/
theorem bitAt_eq_shiftLeft (b : Bool) {j : Nat} (hj : j < 8) : bitAt b j = BitVec.ofNat 8 b.toNat <<< (7 - j) := by
  interval_cases j <;> cases b <;> rfl

/-- The current frame takes a bit: it is Data, its bit count is not full, and a new byte would lie below CAP (R150,
R163). -/
structure State.TakesBit (s : State) : Prop where
  data : s.kindAt s.current = FrameKind.data.code
  notFull : s.bitsAt s.current ≠ Config.maxBitCount
  room : s.bitsAt s.current % 8 = 0 → s.bitAddr < s.cap.toNat

theorem State.TakesBit.not_overflow {s : State} (ht : s.TakesBit) :
    ¬ (s.bitsAt s.current = Config.maxBitCount ∨ (s.bitsAt s.current % 8 = 0 ∧ s.cap.toNat ≤ s.bitAddr)) := by
  rintro (hfull | ⟨hz, hcap⟩)
  · exact ht.notFull hfull
  · exact Nat.not_le.2 (ht.room hz) hcap

/-- The state after a bit and its elapsed time, less the response (R143, R144). -/
def State.bitTaken (s : State) (b : Bool) (d : BitVec 15) : State := (s.bitWritten b).elapsedAdded d

/-- A bit and its elapsed time write BUF and EACC (R163, R167). -/
theorem bitTaken_eq (s : State) (b : Bool) (d : BitVec 15) :
    s.bitTaken b d =
      { s with buf := (s.bitTaken b d).buf, eacc := sat20 (s.eacc.toNat + d.toNat) } :=
  elapsedAdded_eq (s.bitWritten b) d

theorem kind_ne_repeater_of_data {s : State} {i : Nat} (hk : s.kindAt i = FrameKind.data.code) :
    s.kindAt i ≠ FrameKind.repeater.code := by rw [hk]; decide

theorem kind_ne_sameAsFirst_of_data {s : State} {i : Nat} (hk : s.kindAt i = FrameKind.data.code) :
    s.kindAt i ≠ FrameKind.sameAsFirst.code := by rw [hk]; decide

theorem read_bitWritten_other {s : State} {b : Bool} {c : Nat} (h0 : c ≠ s.recordAt s.current)
    (h1 : c ≠ s.recordAt s.current + 1) (h2 : c ≠ s.bitAddr) : (s.bitWritten b).buf.read c = s.buf.read c := by
  unfold State.bitWritten
  rw [read_setHalf_other h0 h1, read_setByte_other h2]

namespace StoreInv

variable {s : State} (h : StoreInv s) (hf : 1 ≤ s.frames)
include h hf

/-- R163: a full bit count, or a new byte past CAP. -/
theorem symbolStep_of_overflow (hk : s.kindAt s.current = FrameKind.data.code)
    (hover : s.bitsAt s.current = Config.maxBitCount ∨ (s.bitsAt s.current % 8 = 0 ∧ s.cap.toNat ≤ s.bitAddr))
    (b : Bool) (d : BitVec 15) : s.symbolStep b d = .error (.session .bufferOverflow) := by
  rw [h.symbolStep_eq hf (kind_ne_sameAsFirst_of_data hk), if_neg (kind_ne_repeater_of_data hk), if_pos hover]

theorem current_bitWritten (b : Bool) : (s.bitWritten b).current = s.current := by
  rw [State.current, h.frames_bitWritten hf, State.current]

theorem currentRecord_bitWritten (b : Bool) :
    (s.bitWritten b).recordAt (s.bitWritten b).current = s.recordAt s.current := by
  rw [h.current_bitWritten hf, h.record_bitWritten hf]

/-- A bit and its elapsed time change the current record's header and one payload byte (R168). -/
theorem read_bitTaken_other (b : Bool) (d : BitVec 15) {c : Nat}
    (hc : c < s.recordAt s.current ∨ s.recordAt s.current + 4 ≤ c) (ha : c ≠ s.bitAddr) :
    (s.bitTaken b d).buf.read c = s.buf.read c := by
  have hrec := h.currentRecord_bitWritten hf b
  calc (s.bitTaken b d).buf.read c
    _ = (s.bitWritten b).buf.read c := read_elapsedAdded_other (by omega) (by omega)
    _ = s.buf.read c := read_bitWritten_other (by omega) (by omega) ha

/-- Below the current record a bit changes nothing (R168). -/
theorem byteAt_bitTaken_low (b : Bool) (d : BitVec 15) {c : Nat} (hc : c < s.recordAt s.current) :
    (s.bitTaken b d).byteAt c = s.byteAt c := by
  have ha := bitAddr_ge s
  unfold State.byteAt
  rw [h.read_bitTaken_other hf b d (.inl hc) (by omega)]

theorem formatByte_bitTaken (b : Bool) (d : BitVec 15) : (s.bitTaken b d).formatByte = s.formatByte :=
  formatByte_low (fun _ => h.byteAt_bitTaken_low hf b d) (h.record_ge (State.current_lt hf))

theorem frames_bitTaken (b : Bool) (d : BitVec 15) : (s.bitTaken b d).frames = s.frames :=
  frames_low (fun _ => h.byteAt_bitTaken_low hf b d) (h.record_ge (State.current_lt hf))

theorem current_bitTaken (b : Bool) (d : BitVec 15) : (s.bitTaken b d).current = s.current :=
  current_low (fun _ => h.byteAt_bitTaken_low hf b d) (h.record_ge (State.current_lt hf))

theorem record_bitTaken (b : Bool) (d : BitVec 15) : (s.bitTaken b d).recordAt s.current = s.recordAt s.current := by
  have h10 := h.frames_le
  exact recordAt_low (fun _ => h.byteAt_bitTaken_low hf b d) (h.record_ge (State.current_lt hf))
    (by simp only [State.current]; omega)

variable (ht : s.TakesBit)
include ht

/-- R143, R144: a bit that fits is taken. -/
theorem symbolStep_of_takesBit (b : Bool) (d : BitVec 15) :
    s.symbolStep b d = .ok ((s.bitTaken b d).continued 0) := by
  rw [h.symbolStep_eq hf (kind_ne_sameAsFirst_of_data ht.data), if_neg (kind_ne_repeater_of_data ht.data),
    if_neg ht.not_overflow]
  rfl

theorem keep_bitWritten_of_takesBit (b : Bool) : StoreInv (s.bitWritten b) :=
  h.keep_bitWritten hf b ht.notFull ht.room (kind_ne_repeater_of_data ht.data) (kind_ne_sameAsFirst_of_data ht.data)

omit ht in
theorem one_le_frames_bitWritten (b : Bool) : 1 ≤ (s.bitWritten b).frames := by rw [h.frames_bitWritten hf]; exact hf

theorem keep_bitTaken (b : Bool) (d : BitVec 15) : StoreInv (s.bitTaken b d) :=
  (h.keep_bitWritten_of_takesBit hf ht b).keep_elapsedAdded (h.one_le_frames_bitWritten hf b) d

theorem kbAt_bitTaken (b : Bool) (d : BitVec 15) :
    (s.bitTaken b d).kbAt s.current = makeKb FrameKind.data.code (s.bitsAt s.current + 1) := by
  have hkb := (h.keep_bitWritten_of_takesBit hf ht b).kbAt_elapsedAdded (h.one_le_frames_bitWritten hf b) d
  rw [h.current_bitWritten hf, h.kbAt_bitWritten hf, ht.data] at hkb
  exact hkb

theorem kindAt_bitTaken (b : Bool) (d : BitVec 15) : (s.bitTaken b d).kindAt s.current = FrameKind.data.code := by
  rw [State.kindAt, h.kbAt_bitTaken hf ht, kindOf_makeKb]

theorem bitsAt_bitTaken (b : Bool) (d : BitVec 15) :
    (s.bitTaken b d).bitsAt s.current = s.bitsAt s.current + 1 := by
  have hle : s.bitsAt s.current ≤ Config.maxBitCount := bitCountOf_le _
  rw [State.bitsAt, h.kbAt_bitTaken hf ht, bitCountOf_makeKb _ (Nat.lt_of_le_of_ne hle ht.notFull)]

theorem payloadAt_bitTaken (b : Bool) (d : BitVec 15) (k : Nat) :
    (s.bitTaken b d).payloadAt s.current k =
      if k = s.bitsAt s.current / 8 then s.bitByte b else s.payloadAt s.current k := by
  have hpay := (h.keep_bitWritten_of_takesBit hf ht b).payloadAt_elapsedAdded (h.one_le_frames_bitWritten hf b) d k
  rw [h.current_bitWritten hf, h.payloadAt_bitWritten hf] at hpay
  exact hpay

theorem readKb_bitTaken (b : Bool) (d : BitVec 15) :
    (s.bitTaken b d).read16 (s.recordAt s.current) = .ok (makeKb FrameKind.data.code (s.bitsAt s.current + 1)) := by
  have hlast : s.current < (s.bitTaken b d).frames := by rw [h.frames_bitTaken hf]; exact State.current_lt hf
  have hkb := (h.keep_bitTaken hf ht b d).readKb hlast
  rw [h.record_bitTaken hf, h.kbAt_bitTaken hf ht] at hkb
  exact hkb

theorem readElapsed_bitTaken (b : Bool) (d : BitVec 15) :
    (s.bitTaken b d).read16 (s.recordAt s.current + 2) =
      .ok (BitVec.ofNat 16 ((s.bitTaken b d).eacc.toNat / 16)) := by
  have he := (h.keep_bitTaken hf ht b d).readElapsed_current (by rw [h.frames_bitTaken hf]; exact hf)
  rw [h.current_bitTaken hf, h.record_bitTaken hf] at he
  exact he

theorem readByte_bitTaken (b : Bool) (d : BitVec 15) : (s.bitTaken b d).read8 s.bitAddr = .ok (s.bitByte b) := by
  have hk : s.bitsAt s.current / 8 < ceil8 ((s.bitTaken b d).bitsAt s.current) := by
    rw [h.bitsAt_bitTaken hf ht]; unfold ceil8; omega
  have hlast : s.current < (s.bitTaken b d).frames := by rw [h.frames_bitTaken hf]; exact State.current_lt hf
  have hread := (h.keep_bitTaken hf ht b d).readPayload hlast hk
  rw [h.record_bitTaken hf, h.payloadAt_bitTaken hf ht, if_pos rfl] at hread
  exact hread

end StoreInv

/-- Settles O24. -/
theorem bitAppended : Obligations.BitAppended := by
  intro dur b s f p kb hinv hs hfmt hd hb hp hkb hdata
  have h := hinv.store_of_running (.inr hs)
  have hf := h.openFrame hs
  obtain rfl := h.recordAt_of_currentFrame hf hp
  obtain rfl := halfAt_of_read16 hkb
  have hexec : exec (sampleOf (s.table.descriptor f).infoEdge dur) s =
      s.conclude (s.symbolStep b (shortDuration dur)) := by
    rw [exec_infoEdge hinv hs hfmt hd, infoStep_of_symbolBit ((toNat_shortDuration hd).symm ▸ hb)]
  refine ⟨fun hover => ?_, fun hn hroom => ?_⟩
  · rw [hexec, h.symbolStep_of_overflow hf hdata hover, conclude_session]
    rfl
  · have ht : s.TakesBit := ⟨hdata, hn, hroom⟩
    refine ⟨(s.bitTaken b (shortDuration dur)).continued 0, if s.bitsAt s.current % 8 = 0 then 0 else s.byteAt s.bitAddr,
      ?_, ?_, fun hz => if_pos hz, fun hz => ?_, ?_, ?_, ?_, fun a ha hne => ?_⟩
    · rw [hexec, h.symbolStep_of_takesBit hf ht, conclude_ok]
    · rw [← toNat_shortDuration hd]
      exact congrArg (State.continued · 0) (bitTaken_eq s b (shortDuration dur))
    · rw [if_neg (show s.bitsAt s.current % 8 ≠ 0 from hz)]
      exact h.read8 (h.bitAddr_lt hf ht.room)
    · rw [← bitAt_eq_shiftLeft b (Nat.mod_lt _ (by decide))]
      rw [read8_continued]
      exact h.readByte_bitTaken hf ht b _
    · rw [read16_continued]
      exact h.readKb_bitTaken hf ht b _
    · rw [read16_continued, State.continued_eacc, h.readElapsed_bitTaken hf ht]
    · rw [State.continued_buf]
      exact h.read_bitTaken_other hf b _ ha hne

end Sys2Proof.Machine
end

section
/-! PROOF. The packing of bits (43_frame_store.md R165): the byte of `pack` that one more bit changes, and how. -/

namespace Sys2Proof.Machine

/-- Byte k of `pack bits` (R165). -/
def packByte (bits : List Bool) (k : Nat) : Byte := packFrom 0 ((bits.drop (8 * k)).take 8)

theorem pack_eq_map_packByte (bits : List Bool) :
    pack bits = (List.range (ceil8 bits.length)).map (packByte bits) := rfl

/-- The bits of one byte are set independently, each at its place. -/
theorem packFrom_append (j : Nat) (bs cs : List Bool) :
    packFrom j (bs ++ cs) = packFrom j bs ||| packFrom (j + bs.length) cs := by
  induction bs generalizing j with
  | nil => simp [packFrom]
  | cons b bs ih =>
    rw [List.cons_append, packFrom, packFrom, ih, BitVec.or_assoc, List.length_cons, Nat.add_right_comm, Nat.add_assoc]

theorem packFrom_singleton (j : Nat) (b : Bool) : packFrom j [b] = bitAt b j := by
  simp [packFrom]

/-- Past the last bit a byte is 0. -/
theorem packByte_of_length_le {bits : List Bool} {k : Nat} (hk : bits.length ≤ 8 * k) : packByte bits k = 0 := by
  rw [packByte, List.drop_eq_nil_of_le hk]
  rfl

/-- A full byte is not changed by one more bit. -/
theorem packByte_concat_of_lt {bits : List Bool} {k : Nat} (hk : k < bits.length / 8) (b : Bool) :
    packByte (bits ++ [b]) k = packByte bits k := by
  rw [packByte, List.drop_append_of_le_length (by omega),
    List.take_append_of_le_length (by rw [List.length_drop]; omega), packByte]

/-- One more bit goes to the byte that is not full yet, at its place in it. -/
theorem packByte_concat_last (bits : List Bool) (b : Bool) :
    packByte (bits ++ [b]) (bits.length / 8) = packByte bits (bits.length / 8) ||| bitAt b (bits.length % 8) := by
  have hlen : (bits.drop (8 * (bits.length / 8))).length = bits.length % 8 := by rw [List.length_drop]; omega
  rw [packByte, packByte, List.drop_append_of_le_length (by omega), List.take_of_length_le (l := _ ++ _),
    List.take_of_length_le, packFrom_append, packFrom_singleton, hlen, Nat.zero_add]
  · omega
  · rw [List.length_append, List.length_singleton]; omega

end Sys2Proof.Machine
end

section
/-! PROOF. A run of bits (42_bits.md R143, R144; 43_frame_store.md R165): a Data frame that holds some bits, packed, holds
one more after the two samples of a bit sent at its format's nominal durations. The statement O57. -/

namespace Sys2Proof.Machine

/-! A response changes no view of the Frame Store. -/

section Views

variable (s : State) (d : Half) (i k : Nat)

@[simp] theorem current_continued : (s.continued d).current = s.current := rfl
@[simp] theorem recordAt_continued : (s.continued d).recordAt i = s.recordAt i := rfl
@[simp] theorem kindAt_continued : (s.continued d).kindAt i = s.kindAt i := rfl
@[simp] theorem bitsAt_continued : (s.continued d).bitsAt i = s.bitsAt i := rfl
@[simp] theorem payloadAt_continued : (s.continued d).payloadAt i k = s.payloadAt i k := rfl

end Views

/-- A bit and its elapsed time are writes of the Frame Store (R163, R167). -/
theorem StoreInv.storeWrite_bitTaken {s : State} (h : StoreInv s) (hf : 1 ≤ s.frames) (ht : s.TakesBit) (b : Bool)
    (d : BitVec 15) : StoreWrite s (s.bitTaken b d) := by
  have hbit : s.writeBit b = .ok (s.bitWritten b) := by rw [h.writeBit_eq hf, if_neg ht.not_overflow]
  have htime := (h.keep_bitWritten_of_takesBit hf ht b).addElapsed_eq (h.one_le_frames_bitWritten hf b) d
  exact (StoreWrite.of_writeBit hbit).trans (.of_addElapsed htime)

/-! The frame between two samples. -/

/-- A frame in assembly that holds `bits`, packed, in a session of format `f` whose descriptor is `D`. -/
structure HoldsBits (f : Format) (D : Descriptor) (bits : List Bool) (s : State) : Prop where
  inv : Inv s
  st : s.st = .assemble
  format : s.formatByte = f.code
  row : s.table.descriptor f = D
  data : s.kindAt s.current = FrameKind.data.code
  count : s.bitsAt s.current = bits.length
  payload : ∀ k < ceil8 bits.length, s.payloadAt s.current k = packByte bits k

/-- `t` has the current frame of `s`, at the same place, and the same capacity. -/
structure SameFrame (s t : State) : Prop where
  cap : t.cap = s.cap
  current : t.current = s.current
  record : t.recordAt t.current = s.recordAt s.current

/-- The current record has room for n bits: the bit count can say so and their bytes lie below CAP (R59, R163). -/
structure State.RoomFor (s : State) (n : Nat) : Prop where
  count : n ≤ Config.maxBitCount
  bytes : s.recordAt s.current + Config.recHdr + ceil8 n ≤ s.cap.toNat

theorem State.RoomFor.mono {s : State} {m n : Nat} (h : s.RoomFor n) (hmn : m ≤ n) : s.RoomFor m := by
  have hbytes : ceil8 m ≤ ceil8 n := by unfold ceil8; omega
  exact ⟨hmn.trans h.count, (Nat.add_le_add_left hbytes _).trans h.bytes⟩

theorem SameFrame.refl (s : State) : SameFrame s s := ⟨rfl, rfl, rfl⟩

theorem SameFrame.trans {s t u : State} (h : SameFrame s t) (h' : SameFrame t u) : SameFrame s u :=
  ⟨h'.cap.trans h.cap, h'.current.trans h.current, h'.record.trans h.record⟩

theorem SameFrame.roomFor {s t : State} {n : Nat} (h : SameFrame s t) (hr : s.RoomFor n) : t.RoomFor n :=
  ⟨hr.count, by rw [h.record, h.cap]; exact hr.bytes⟩

namespace HoldsBits

variable {f : Format} {D : Descriptor} {bits : List Bool} {s : State} (h : HoldsBits f D bits s)
include h

theorem store : StoreInv s := h.inv.store_of_running (.inr h.st)

theorem one_le_frames : 1 ≤ s.frames := h.store.openFrame h.st

/-- A frame that holds its bits packed shows them packed to a reader. -/
theorem payloadOf_eq : s.payloadOf s.current = pack bits := by
  rw [State.payloadOf, if_neg (kind_ne_sameAsFirst_of_data h.data), h.count, pack_eq_map_packByte]
  exact List.map_congr_left fun k hk => h.payload k (List.mem_range.1 hk)

/-- One more bit fits. -/
theorem takesBit (hroom : s.RoomFor (bits.length + 1)) : s.TakesBit where
  data := h.data
  notFull := by rw [h.count]; exact Nat.ne_of_lt hroom.count
  room := fun hz => by
    have hbytes := hroom.bytes
    rw [h.count] at hz
    rw [ceil8_succ, if_pos hz, ceil8_eq_div8 hz] at hbytes
    rw [State.bitAddr, h.count]
    omega

/-- The byte that the next bit goes to, with the bit (R163, R165). -/
theorem bitByte_eq (b : Bool) : s.bitByte b = packByte (bits ++ [b]) (bits.length / 8) := by
  rw [State.bitByte, h.count, packByte_concat_last]
  congr 1
  split
  · next hz => rw [packByte_of_length_le (by omega)]
  · next hz =>
    rw [← h.payload _ (div8_lt_ceil8 hz), State.bitAddr, h.count, State.payloadAt]

/-- A sample that writes the current record only leaves a frame that holds what that record then shows. -/
theorem of_written {u : State} {i : Instr} {bits' : List Bool} (hexec : exec i s = .next (u.continued 0))
    (hu : StoreWrite s u) (format : u.formatByte = s.formatByte) (current : u.current = s.current)
    (data : u.kindAt s.current = FrameKind.data.code) (count : u.bitsAt s.current = bits'.length)
    (payload : ∀ k < ceil8 bits'.length, u.payloadAt s.current k = packByte bits' k) :
    HoldsBits f D bits' (u.continued 0) where
  inv := (exec_effect hexec).keeps_inv h.inv
  st := by rw [State.continued_st, hu.st, h.st]
  format := by rw [formatByte_continued, format, h.format]
  row := by rw [State.continued_table, hu.table, h.row]
  data := by rw [current_continued, current, kindAt_continued, data]
  count := by rw [current_continued, current, bitsAt_continued, count]
  payload := fun k hk => by rw [current_continued, current, payloadAt_continued, payload k hk]

/-- R141: a sync pulse at a duration that is long enough keeps the bits. -/
theorem after_sync {e : Edge} {dur : BitVec 24} (he : e ≠ D.infoEdge) (hd : dur.toNat ≤ Config.maxDuration)
    (hlo : D.symbol0.lo ≤ dur.toNat) :
    ∃ t, exec (sampleOf e dur) s = .next t ∧ HoldsBits f D bits t ∧ SameFrame s t := by
  obtain rfl := h.row
  have hstore := h.store
  have hf := h.one_le_frames
  have hu := StoreWrite.of_addElapsed (hstore.addElapsed_eq hf (shortDuration dur))
  have hcur := hstore.current_elapsedAdded hf (shortDuration dur)
  have hkb := hstore.kbAt_elapsedAdded hf (shortDuration dur)
  have hexec : exec (sampleOf e dur) s = .next ((s.elapsedAdded (shortDuration dur)).continued 0) := by
    rw [exec_syncEdge h.inv h.st h.format hd he, hstore.syncStep_eq hf, toNat_shortDuration hd,
      if_neg (Nat.not_lt.2 hlo), conclude_ok]
  refine ⟨_, hexec, h.of_written hexec hu (hstore.formatByte_elapsedAdded hf _) hcur ((kindAt_of_kbAt hkb).trans h.data)
    ((bitsAt_of_kbAt hkb).trans h.count) fun k hk => (hstore.payloadAt_elapsedAdded hf _ k).trans (h.payload k hk), ?_⟩
  exact ⟨hu.cap, hcur, hstore.currentRecord_elapsedAdded hf _⟩

/-- R143, R144: a bit that fits is added to the bits. -/
theorem after_symbol {dur : BitVec 24} {b : Bool} (ht : s.TakesBit) (hd : dur.toNat ≤ Config.maxDuration)
    (hb : SymbolBit D dur.toNat b) :
    ∃ t, exec (sampleOf D.infoEdge dur) s = .next t ∧ HoldsBits f D (bits ++ [b]) t ∧ SameFrame s t := by
  obtain rfl := h.row
  have hstore := h.store
  have hf := h.one_le_frames
  have hu := hstore.storeWrite_bitTaken hf ht b (shortDuration dur)
  have hcur := hstore.current_bitTaken hf b (shortDuration dur)
  have hrec := hstore.record_bitTaken hf b (shortDuration dur)
  have hlen : (bits ++ [b]).length = bits.length + 1 := List.length_append
  have hexec : exec (sampleOf (s.table.descriptor f).infoEdge dur) s =
      .next ((s.bitTaken b (shortDuration dur)).continued 0) := by
    rw [exec_infoEdge h.inv h.st h.format hd, infoStep_of_symbolBit ((toNat_shortDuration hd).symm ▸ hb),
      hstore.symbolStep_of_takesBit hf ht, conclude_ok]
  refine ⟨_, hexec, h.of_written hexec hu (hstore.formatByte_bitTaken hf b _) hcur (hstore.kindAt_bitTaken hf ht b _)
    (by rw [hstore.bitsAt_bitTaken hf ht, h.count, hlen]) fun k hk => ?_, hu.cap, hcur, ?_⟩
  · rw [hstore.payloadAt_bitTaken hf ht, h.count]
    rw [hlen] at hk
    split
    · next hlast => rw [hlast, h.bitByte_eq]
    · next hlast =>
      have hfull : k < bits.length / 8 := by unfold ceil8 at hk; omega
      rw [packByte_concat_of_lt hfull, h.payload k (by unfold ceil8; omega)]
  · rw [recordAt_continued, current_continued, hcur, hrec]

end HoldsBits

/-! Commands one after another (R65). -/

theorem runAll_cons_of_next {i : Instr} {s t : State} (h : exec i s = .next t) (is : List Instr) :
    runAll (i :: is) s = runAll is t := by
  rw [runAll, h]

theorem runAll_pair {i j : Instr} {s t u : State} (hi : exec i s = .next t) (hj : exec j t = .next u) :
    runAll [i, j] s = .next u := by
  rw [runAll_cons_of_next hi, runAll_cons_of_next hj, runAll]

theorem runAll_append_of_next {is : List Instr} {s t : State} (h : runAll is s = .next t) (js : List Instr) :
    runAll (is ++ js) s = runAll js t := by
  induction is generalizing s with
  | nil => cases h; rfl
  | cons i is ih =>
    obtain ⟨u, hu⟩ : ∃ u, exec i s = .next u := by
      rw [runAll] at h
      split at h
      · next u hu => exact ⟨u, hu⟩
      · cases h
      · cases h
    rw [runAll_cons_of_next hu] at h
    rw [List.cons_append, runAll_cons_of_next hu, ih h]

/-! A bit as it is sent (R89). -/

/-- The nominal duration of a bit on the informative edge. -/
def bitNominal (D : Descriptor) (b : Bool) : Nat := if b then D.symbol1.nominal else D.symbol0.nominal

/-- A bit is two samples: a sync pulse at symbol0's nominal and the bit's own, in the order of the format's edges. -/
theorem exists_bitInstrs_eq (D : Descriptor) (b : Bool) :
    ∃ e, e ≠ D.infoEdge ∧
      (bitInstrs D b =
          [sampleOf e (BitVec.ofNat 24 D.symbol0.nominal), sampleOf D.infoEdge (BitVec.ofNat 24 (bitNominal D b))] ∨
        bitInstrs D b =
          [sampleOf D.infoEdge (BitVec.ofNat 24 (bitNominal D b)), sampleOf e (BitVec.ofNat 24 D.symbol0.nominal)]) := by
  unfold bitInstrs
  cases D.infoEdge with
  | space => exact ⟨.mark, nofun, .inl rfl⟩
  | mark => exact ⟨.space, nofun, .inr rfl⟩

/-- The nominal durations of the symbols are representable, and symbol1's is not read as symbol0 (R122, R142). -/
structure Sendable (D : Descriptor) : Prop where
  symbol0 : D.symbol0.nominal ≤ Config.maxDuration
  symbol1 : D.symbol1.nominal ≤ Config.maxDuration
  apart : inR D.symbol1.nominal D.symbol0 = false

theorem Sendable.bitNominal_le {D : Descriptor} (hD : Sendable D) (b : Bool) : bitNominal D b ≤ Config.maxDuration := by
  cases b with
  | false => exact hD.symbol0
  | true => exact hD.symbol1

/-- R104, R142: a bit sent at its nominal duration is read as that bit. -/
theorem Sendable.symbolBit {D : Descriptor} (hD : Sendable D) (b : Bool) : SymbolBit D (bitNominal D b) b := by
  cases b with
  | false => exact .inl ⟨rfl, inR_nominal D.symbol0⟩
  | true => exact .inr ⟨rfl, inR_nominal D.symbol1, hD.apart⟩

theorem toNat_nominal {n : Nat} (hn : n ≤ Config.maxDuration) : (BitVec.ofNat 24 n).toNat = n := by
  simp only [Config.maxDuration] at hn
  rw [BitVec.toNat_ofNat]
  omega

namespace HoldsBits

variable {f : Format} {D : Descriptor} {bits : List Bool} {s : State} (h : HoldsBits f D bits s) (hD : Sendable D)
include h hD

theorem after_nominal_sync {e : Edge} (he : e ≠ D.infoEdge) :
    ∃ t, exec (sampleOf e (BitVec.ofNat 24 D.symbol0.nominal)) s = .next t ∧ HoldsBits f D bits t ∧ SameFrame s t := by
  have hd := toNat_nominal hD.symbol0
  have hlo : D.symbol0.lo ≤ D.symbol0.nominal := (inR_iff_bounds.1 (inR_nominal D.symbol0)).1
  exact h.after_sync he (hd.symm ▸ hD.symbol0) (hd.symm ▸ hlo)

theorem after_nominal_symbol (b : Bool) (hroom : s.RoomFor (bits.length + 1)) :
    ∃ t, exec (sampleOf D.infoEdge (BitVec.ofNat 24 (bitNominal D b))) s = .next t ∧
      HoldsBits f D (bits ++ [b]) t ∧ SameFrame s t := by
  have hd := toNat_nominal (hD.bitNominal_le b)
  exact h.after_symbol (h.takesBit hroom) (hd.symm ▸ hD.bitNominal_le b) (hd.symm ▸ hD.symbolBit b)

/-- The two samples of a bit add it to the frame, in either order of the edges. -/
theorem after_bit (b : Bool) (hroom : s.RoomFor (bits.length + 1)) :
    ∃ t, runAll (bitInstrs D b) s = .next t ∧ HoldsBits f D (bits ++ [b]) t ∧ SameFrame s t := by
  obtain ⟨e, he, hsend | hsend⟩ := exists_bitInstrs_eq D b
  · obtain ⟨t, hst, ht, hframe⟩ := h.after_nominal_sync hD he
    obtain ⟨u, htu, hu, hframe'⟩ := ht.after_nominal_symbol hD b (hframe.roomFor hroom)
    exact ⟨u, hsend ▸ runAll_pair hst htu, hu, hframe.trans hframe'⟩
  · obtain ⟨t, hst, ht, hframe⟩ := h.after_nominal_symbol hD b hroom
    obtain ⟨u, htu, hu, hframe'⟩ := ht.after_nominal_sync hD he
    exact ⟨u, hsend ▸ runAll_pair hst htu, hu, hframe.trans hframe'⟩

/-- Bits sent one after another are added to the frame in their order. -/
theorem after_bits (more : List Bool) (hroom : s.RoomFor (bits.length + more.length)) :
    ∃ t, runAll (more.flatMap (bitInstrs D)) s = .next t ∧ HoldsBits f D (bits ++ more) t ∧ SameFrame s t := by
  induction more generalizing bits s with
  | nil => exact ⟨s, rfl, (List.append_nil bits).symm ▸ h, .refl s⟩
  | cons b more ih =>
    rw [List.length_cons] at hroom
    obtain ⟨t, hst, ht, hframe⟩ := h.after_bit hD b (hroom.mono (by omega))
    have hroom' : t.RoomFor ((bits ++ [b]).length + more.length) :=
      (hframe.roomFor hroom).mono (by rw [List.length_append, List.length_singleton]; omega)
    obtain ⟨u, htu, hu, hframe'⟩ := ih ht hroom'
    refine ⟨u, ?_, ?_, hframe.trans hframe'⟩
    · rw [List.flatMap_cons, runAll_append_of_next hst, htu]
    · rw [List.append_cons]; exact hu

end HoldsBits

/-- Settles O57: a fresh frame holds no bits, and every bit sent is added to those it holds. -/
theorem transmittedBitsAreStored : Obligations.TransmittedBitsAreStored := by
  intro s f bits hinv hs hfmt h0 h1 hapart hkind hzero hlen hcap
  have fresh : HoldsBits f (s.table.descriptor f) [] s := ⟨hinv, hs, hfmt, rfl, hkind, hzero, nofun⟩
  have hroom : s.RoomFor (([] : List Bool).length + bits.length) :=
    ⟨by rw [List.length_nil, Nat.zero_add]; exact hlen, by rw [List.length_nil, Nat.zero_add]; exact hcap⟩
  obtain ⟨t, hrun, ht, hframe⟩ := fresh.after_bits ⟨h0, h1, hapart⟩ bits hroom
  exact ⟨t, hrun, ht.st, hframe.current, ht.data, ht.count, ht.payloadOf_eq⟩

end Sys2Proof.Machine
end

section
/-! PROOF. What the host reads of a frame that is no longer being assembled (43_frame_store.md R164, R168): its place, its
header and its payload lie below the end of its record, and no command but INIT writes there. The statement O49. -/

namespace Sys2Proof.Machine

/-- What the host reads of frame j is the same in `t` as in `s` (R197). -/
structure SameFrameRead (s t : State) (j : Nat) : Prop where
  record : t.recordAt j = s.recordAt j
  kb : t.kbAt j = s.kbAt j
  elapsed : t.elapsedAt j = s.elapsedAt j
  payload : t.payloadOf j = s.payloadOf j

/-- The host reads BUF only. -/
theorem SameFrameRead.of_buf_eq {s t : State} (hbuf : t.buf = s.buf) (j : Nat) : SameFrameRead s t j := by
  have byte : ∀ a, t.byteAt a = s.byteAt a := fun a => by rw [State.byteAt, State.byteAt, hbuf]
  have half : ∀ a, t.halfAt a = s.halfAt a := fun a => halfAt_congr (byte a) (byte (a + 1))
  have record : ∀ i, t.recordAt i = s.recordAt i := fun i => by rw [State.recordAt, State.recordAt, half]
  have kb : t.kbAt j = s.kbAt j := by rw [State.kbAt, State.kbAt, record, half]
  have payload : ∀ i, t.payloadAt i = s.payloadAt i := fun i =>
    funext fun k => by rw [State.payloadAt, State.payloadAt, record, byte]
  exact {
    record := record j
    kb := kb
    elapsed := by rw [State.elapsedAt, State.elapsedAt, record, half]
    payload := by rw [State.payloadOf, State.payloadOf, kindAt_of_kbAt kb, bitsAt_of_kbAt kb, payload] }

theorem SameFrameRead.trans {s t u : State} {j : Nat} (h : SameFrameRead s t j) (h' : SameFrameRead t u j) :
    SameFrameRead s u j :=
  ⟨h'.record.trans h.record, h'.kb.trans h.kb, h'.elapsed.trans h.elapsed, h'.payload.trans h.payload⟩

/-- The frame whose payload bytes a reader of frame j takes: frame 0 where frame j is SameAsFirst (R164, R194). -/
def State.payloadOwner (s : State) (j : Nat) : Nat := if s.kindAt j = FrameKind.sameAsFirst.code then 0 else j

theorem State.payloadOf_eq (s : State) (j : Nat) :
    s.payloadOf j = (List.range (ceil8 (s.bitsAt j))).map (s.payloadAt (s.payloadOwner j)) := rfl

theorem payloadOwner_of_same {s : State} {j : Nat} (hk : s.kindAt j = FrameKind.sameAsFirst.code) :
    s.payloadOwner j = 0 := if_pos hk

theorem payloadOwner_of_ne_same {s : State} {j : Nat} (hk : s.kindAt j ≠ FrameKind.sameAsFirst.code) :
    s.payloadOwner j = j := if_neg hk

theorem payloadOwner_of_kbAt {s t : State} {j : Nat} (hk : t.kbAt j = s.kbAt j) :
    t.payloadOwner j = s.payloadOwner j := by
  rw [State.payloadOwner, State.payloadOwner, kindAt_of_kbAt hk]

namespace StoreInv

variable {s t : State} (h : StoreInv s) {j : Nat} (hj : j < s.frames)
include h hj

/-- The owner's record holds the bytes that a reader of the frame takes, and does not end after the frame's record. -/
theorem payloadOwner_holds :
    s.payloadOwner j < s.frames ∧
      s.recordAt (s.payloadOwner j) + 4 + ceil8 (s.bitsAt j) ≤ s.recordAt j + recordSize (s.kbAt j) := by
  by_cases hk : s.kindAt j = FrameKind.sameAsFirst.code
  · have hf : 0 < s.frames := Nat.zero_lt_of_lt hj
    have hne : 0 < j := Nat.pos_of_ne_zero fun hz => h.firstKind hf (hz ▸ hk)
    have hin := h.payload_in_record hf (h.firstKind hf)
    have hbefore := h.record_before hne hj
    rw [payloadOwner_of_same hk, h.duplicateCount j hj hk]
    exact ⟨hf, by omega⟩
  · rw [payloadOwner_of_ne_same hk]
    exact ⟨hj, h.payload_in_record hj hk⟩

/-- What the host reads of frame j depends on where the records lie and on the record bytes up to the end of frame j's. -/
theorem sameFrameRead_of_low {L : Nat} (hL : s.recordAt j + recordSize (s.kbAt j) ≤ L)
    (record : ∀ i < s.frames, t.recordAt i = s.recordAt i)
    (low : ∀ c, 22 ≤ c → c < L → t.byteAt c = s.byteAt c) : SameFrameRead s t j := by
  have hge := h.record_ge hj
  have hsize := recordSize_ge (s.kbAt j)
  simp only [Config.recHdr] at hsize
  have half : ∀ a, 22 ≤ a → a + 1 < L → t.halfAt a = s.halfAt a := fun a h22 ha =>
    halfAt_congr (low a h22 (by omega)) (low (a + 1) (by omega) ha)
  have kb : t.kbAt j = s.kbAt j := by
    rw [State.kbAt, State.kbAt, record j hj, half _ hge (by omega)]
  obtain ⟨howner, hend⟩ := h.payloadOwner_holds hj
  have hownerGe := h.record_ge howner
  have payload : ∀ k < ceil8 (s.bitsAt j), t.payloadAt (s.payloadOwner j) k = s.payloadAt (s.payloadOwner j) k := by
    intro k hk
    rw [State.payloadAt, State.payloadAt, record _ howner]
    exact low _ (by omega) (by simp only [Config.recHdr]; omega)
  exact {
    record := record j hj
    kb := kb
    elapsed := by rw [State.elapsedAt, State.elapsedAt, record j hj, half _ (by omega) (by omega)]
    payload := by
      rw [State.payloadOf_eq, State.payloadOf_eq, payloadOwner_of_kbAt kb, bitsAt_of_kbAt kb]
      exact List.map_congr_left fun k hk => payload k (List.mem_range.1 hk) }

/-- R161: a new record starts after every record there is. -/
theorem sameFrameRead_frameOpened (f : Format) (k : FrameKind) (e : BitVec 20) (hn : s.frames < 10) :
    SameFrameRead s (s.frameOpened f k e) j := by
  refine h.sameFrameRead_of_low hj (h.record_before_next hj)
    (fun i hi => h.recordAt_frameOpened_other f k e (by omega) (by omega)) fun c h22 hc => ?_
  exact byteAt_frameOpened_other f k e (by simp only [formatAddr]; omega) (by simp only [countAddr]; omega)
    (by simp only [offsetAddr]; omega) (by simp only [offsetAddr]; omega) (.inl hc)

theorem sameFrameRead_acceptLeader {d : BitVec 15} (hx : s.acceptLeader d = .ok t) : SameFrameRead s t j := by
  obtain ⟨f, k, -, hn, -, rfl⟩ := h.eq_frameOpened_of_acceptLeader hx
  exact (h.sameFrameRead_frameOpened hj f k _ hn).trans (.of_buf_eq (State.continued_buf _ 0) j)

omit hj in
/-- R168: a sample in ASSEMBLE writes nothing below the current record, which starts after every earlier one. -/
theorem sameFrameRead_frameStep (hst : s.st = .assemble) (hj : j < s.current) {e : Edge} {d : BitVec 15}
    (hx : s.frameStep e d = .ok t) : SameFrameRead s t j := by
  have hcur := State.current_lt (h.openFrame hst)
  have h10 := h.frames_le
  have low : ∀ c < s.recordAt s.current, t.byteAt c = s.byteAt c := fun c hc => h.byteAt_frameStep hst hx hc
  exact h.sameFrameRead_of_low (hj.trans hcur) (h.record_before hj hcur)
    (fun i hi => recordAt_low low (h.record_ge hcur) (by omega)) fun c _ hc => low c hc

end StoreInv

/-- No command but INIT changes what the host reads of a frame that is sealed or that a later frame follows. -/
theorem Effect.sameFrameRead {i : Instr} {s t : State} (he : Effect s i t) (hi : ∀ c, i ≠ .init c) (h : Inv s) {j : Nat}
    (hj : j < s.frames) (hdone : j < s.current ∨ s.st ≠ .assemble) : SameFrameRead s t j := by
  cases he with
  | answered | raised | latched | rejected => exact .of_buf_eq (by rfl) j
  | initFailed | started => exact absurd rfl (hi _)
  | opened hs _ _ _ hx =>
    have hread := ((h.store_of_running (.inl hs)).keep_pairSpace _).sameFrameRead_acceptLeader hj hx
    exact (SameFrameRead.of_buf_eq (State.pairSpace_buf s _) j).trans hread
  | assembled hs _ hx | sealed hs _ _ hx =>
    exact (h.store_of_running (.inr hs)).sameFrameRead_frameStep hs (hdone.resolve_right (not_not_intro hs)) hx

/-- Settles O49. -/
theorem sealedFramesNeverChange : Obligations.SealedFramesNeverChange := by
  intro i s t hinv _ hi hexec j hj hdone
  obtain ⟨record, kb, elapsed, payload⟩ := (exec_effect hexec).sameFrameRead hi hinv hj hdone
  exact ⟨record, kb, elapsed, payload⟩

end Sys2Proof.Machine
end

section
/-! PROOF. A leader pair that finds no room in the Frame Store (43_frame_store.md R161, R162). The statement O22. -/

namespace Sys2Proof.Machine

/-- R128, R162: the pair matches the session's format, and the index is full or the header would pass CAP. -/
theorem StoreInv.acceptLeader_of_no_room {s : State} (h : StoreInv s) {d : BitVec 15} {f : Format} {k : FrameKind}
    (hm : matchLeader s.table s.lm.toNat d.toNat = some (f, k)) (hfmt : s.formatByte = 0 ∨ s.formatByte = f.code)
    (hfull : s.frames = 10 ∨ s.cap.toNat < s.nextOffset + 4) :
    s.acceptLeader d = .error (.session .bufferOverflow) := by
  have hmatches : ¬ (s.formatByte ≠ 0 ∧ s.formatByte ≠ f.code) := fun ⟨h0, hf⟩ => hfmt.elim h0 hf
  rw [h.acceptLeader_eq, hm]
  dsimp only
  rw [if_neg hmatches, if_pos hfull]

/-- Settles O22: the pair's two writes leave the Frame Store as it was, so it is as full as the statement says. -/
theorem noRoomForFrame : Obligations.NoRoomForFrame := by
  intro dur s f k off hinv hs hv hd hm hfmt hfull
  have h := (hinv.store_of_running (.inl hs)).keep_pairSpace (shortDuration dur)
  have hroom : (s.pairSpace (shortDuration dur)).frames = 10 ∨
      (s.pairSpace (shortDuration dur)).cap.toNat < (s.pairSpace (shortDuration dur)).nextOffset + 4 := by
    rcases hfull with hn | ⟨hoff, hcap⟩
    · exact .inl hn
    · obtain rfl := Except.ok.inj (h.nextRecord_eq.symm.trans hoff)
      exact .inr hcap
  rw [← shortDuration_eq]
  exact exec_space_of_rejected hs hv hd (h.acceptLeader_of_no_room (toNat_shortDuration hd ▸ hm) hfmt hroom)

end Sys2Proof.Machine
end

section
/-! PROOF. The packing of bits and its inverse (43_frame_store.md R165), and that a bit written keeps the payload packed (R163,
R166). The statements O55 and O56. -/

namespace Sys2Proof.Machine

/-! Unpacking (R165). -/

theorem pack_length (bits : List Bool) : (pack bits).length = ceil8 bits.length := by
  rw [pack_eq_map_packByte, List.length_map, List.length_range]

theorem pack_getD {bits : List Bool} {k : Nat} (hk : k < ceil8 bits.length) :
    (pack bits).getD k 0 = packByte bits k := by
  rw [pack_eq_map_packByte, List.getD_eq_getElem _ _ (by rw [List.length_map, List.length_range]; exact hk),
    List.getElem_map, List.getElem_range]

/-- A bit is at its own place of the byte and nowhere else (R54). -/
theorem getLsbD_bitAt (b : Bool) (j : Nat) {i : Nat} (hi : i < 8) :
    (bitAt b j).getLsbD (7 - i) = (b && decide (i = j)) := by
  cases b with
  | false => simp [bitAt]
  | true =>
    have htop : 0x80#8 = BitVec.twoPow 8 7 := rfl
    rw [bitAt, if_pos rfl, htop, BitVec.getLsbD_ushiftRight, BitVec.getLsbD_twoPow, Bool.true_and,
      decide_eq_true (by decide), Bool.true_and, decide_eq_decide]
    omega

/-- Bits put from place j on: place i holds bit i - j, and the places before j hold 0. -/
theorem getLsbD_packFrom (bits : List Bool) (j : Nat) {i : Nat} (hi : i < 8) :
    (packFrom j bits).getLsbD (7 - i) = (decide (j ≤ i) && bits.getD (i - j) false) := by
  induction bits generalizing j with
  | nil => simp [packFrom]
  | cons b bits ih =>
    rw [packFrom, BitVec.getLsbD_or, getLsbD_bitAt b j hi, ih]
    rcases Nat.lt_trichotomy i j with hlt | rfl | hgt
    · simp [show ¬ j ≤ i by omega, show ¬ j + 1 ≤ i by omega, show i ≠ j by omega]
    · simp
    · simp [show j ≤ i by omega, show j + 1 ≤ i by omega, show i ≠ j by omega,
        show i - j = i - (j + 1) + 1 by omega]

/-- Bit j of the bits is in byte j / 8 of the packing, at place j % 8. -/
theorem getLsbD_packByte {bits : List Bool} {j : Nat} (hj : j < bits.length) :
    (packByte bits (j / 8)).getLsbD (7 - j % 8) = bits[j] := by
  have hmod : j % 8 < 8 := Nat.mod_lt _ (by decide)
  have hidx : 8 * (j / 8) + j % 8 = j := Nat.div_add_mod j 8
  have hlen : j % 8 < ((bits.drop (8 * (j / 8))).take 8).length := by
    rw [List.length_take, List.length_drop]; omega
  rw [packByte, getLsbD_packFrom _ 0 hmod, Nat.sub_zero, List.getD_eq_getElem _ _ hlen, List.getElem_take,
    List.getElem_drop]
  simp [hidx]

theorem unpack_pack (bits : List Bool) : unpack (pack bits) bits.length = bits := by
  refine List.ext_getElem (by rw [unpack, List.length_map, List.length_range]) fun j _ hj => ?_
  simp only [unpack, List.getElem_map, List.getElem_range]
  rw [pack_getD (by unfold ceil8; omega), getLsbD_packByte hj]

/-- Settles O55. -/
theorem unpackInvertsPack : Obligations.UnpackInvertsPack := fun bits => ⟨pack_length bits, unpack_pack bits⟩

/-! A bit written (R163, R166). -/

/-- The payload bytes of the current frame are the packing of `bits`, and its bit count is theirs. -/
structure State.Packs (s : State) (bits : List Bool) : Prop where
  count : s.bitsAt s.current = bits.length
  payload : ∀ k < ceil8 bits.length, s.payloadAt s.current k = packByte bits k

theorem State.Packs.payload_eq {s : State} {bits : List Bool} (h : s.Packs bits) :
    (List.range (ceil8 (s.bitsAt s.current))).map (s.payloadAt s.current) = pack bits := by
  rw [h.count, pack_eq_map_packByte]
  exact List.map_congr_left fun k hk => h.payload k (List.mem_range.1 hk)

theorem State.Packs.of_payload_eq {s : State} {bits : List Bool} (hlen : bits.length = s.bitsAt s.current)
    (hpay : (List.range (ceil8 (s.bitsAt s.current))).map (s.payloadAt s.current) = pack bits) : s.Packs bits where
  count := hlen.symm
  payload := fun k hk => by
    rw [pack_eq_map_packByte, ← hlen] at hpay
    exact List.map_inj_left.1 hpay k (List.mem_range.2 hk)

/-- The byte that the next bit goes to, with the bit: a new byte starts at 0, a started one keeps its bits. -/
theorem State.Packs.bitByte_eq {s : State} {bits : List Bool} (h : s.Packs bits) (b : Bool) :
    s.bitByte b = packByte (bits ++ [b]) (bits.length / 8) := by
  rw [State.bitByte, h.count, packByte_concat_last]
  congr 1
  by_cases hz : bits.length % 8 = 0
  · rw [if_pos hz, packByte_of_length_le (by omega)]
  · rw [if_neg hz, ← h.payload _ (div8_lt_ceil8 hz), State.bitAddr, h.count, State.payloadAt]

theorem StoreInv.packs_bitWritten {s : State} (h : StoreInv s) (hf : 1 ≤ s.frames) {bits : List Bool}
    (hp : s.Packs bits) (hn : s.bitsAt s.current ≠ Config.maxBitCount) (b : Bool) : (s.bitWritten b).Packs (bits ++ [b]) where
  count := by
    rw [h.current_bitWritten hf, h.bitsAt_bitWritten hf b hn, hp.count, List.length_append, List.length_singleton]
  payload := fun k hk => by
    rw [List.length_append, List.length_singleton] at hk
    rw [h.current_bitWritten hf, h.payloadAt_bitWritten hf, hp.count]
    by_cases hlast : k = bits.length / 8
    · rw [if_pos hlast, hlast, hp.bitByte_eq]
    · have hfull : k < bits.length / 8 := by unfold ceil8 at hk; omega
      rw [if_neg hlast, packByte_concat_of_lt hfull, hp.payload k (by unfold ceil8; omega)]

/-- writeBit succeeds only where the bit count is not full, and then the bit is written (R163). -/
theorem StoreInv.eq_bitWritten_of_writeBit {s t : State} (h : StoreInv s) (hf : 1 ≤ s.frames) {b : Bool}
    (hw : s.writeBit b = .ok t) : s.bitsAt s.current ≠ Config.maxBitCount ∧ t = s.bitWritten b := by
  rw [h.writeBit_eq hf] at hw
  split at hw
  · cases hw
  · next hroom => exact ⟨fun hfull => hroom (.inl hfull), (Except.ok.inj hw).symm⟩

/-- Settles O56. -/
theorem writeBitKeepsPacking : Obligations.WriteBitKeepsPacking := by
  intro s t b bits h hs _ hlen hpay hw
  have hf := h.openFrame hs
  obtain ⟨hn, rfl⟩ := h.eq_bitWritten_of_writeBit hf hw
  have packed := h.packs_bitWritten hf (.of_payload_eq hlen hpay) hn b
  refine ⟨h.current_bitWritten hf b, ?_, packed.payload_eq⟩
  rw [packed.count, List.length_append, List.length_singleton]

end Sys2Proof.Machine
end

section
/-! PROOF. The finalizer (44_finalizer.md R180 to R183): what a boundary sample leaves of the frame it seals, and the
evidence every frame's kind has come from. The statements O25 and O51. -/

namespace Sys2Proof.Machine

/-! Sealing (R145, R146). -/

/-- The registers a sealing sample leaves (R146). -/
theorem sealedBy_eq (s : State) (dur : BitVec 24) :
    s.sealedBy (shortDuration dur) =
      { s with st := .await, lm := BitVec.ofNat 15 dur.toNat, lmValid := true, resp := some 0x10000000 } := by
  rw [← shortDuration_eq]; rfl

theorem read16_setHalf_same {s : State} {a : Nat} {v : Half} (ha : a + 1 < Config.bufBytes) :
    (s.setHalf a v).read16 a = .ok v := by
  have low : (s.setHalf a v).buf.read a = some (lowByte v) := by
    rw [State.setHalf_buf, Memory.read_write_other _ _ _ _ (Nat.ne_of_lt a.lt_succ_self), Memory.read_write_same]
  have high : (s.setHalf a v).buf.read (a + 1) = some (highByte v) := Memory.read_write_same _ _ _
  exact read16_eq_ok.2 ⟨_, _, read8_eq_ok.2 ⟨Nat.lt_of_succ_lt ha, low⟩, read8_eq_ok.2 ⟨ha, high⟩,
    (joinBytes_low_high v).symm⟩

/-- Marking a frame SameAsFirst changes its KB halfword only, specified bytes or not (R180). -/
theorem read_markedSame_other {s : State} {i c : Nat} (h0 : c ≠ s.recordAt i) (h1 : c ≠ s.recordAt i + 1) :
    (s.markedSame i).buf.read c = s.buf.read c := read_setHalf_other h0 h1

namespace StoreInv

variable {s : State} (h : StoreInv s)
include h

/-- R180's comparison, as the model reads the two records. -/
theorem duplicatesFirst_iff {i : Nat} (hi : i < s.frames) :
    s.duplicatesFirst i ↔ s.kindAt i = FrameKind.data.code ∧ s.bitsAt i = s.bitsAt 0 ∧
      ∀ k < ceil8 (s.bitsAt i),
        s.read8 (s.recordAt i + Config.recHdr + k) = s.read8 (s.recordAt 0 + Config.recHdr + k) := by
  refine and_congr_right fun _ => and_congr_right fun hbits => forall₂_congr fun k hk => ?_
  rw [h.readPayload hi hk, h.readPayload (Nat.zero_lt_of_lt hi) (hbits ▸ hk), Except.ok.injEq]

variable (hf : 1 ≤ s.frames)
include hf

/-- R145: beyond both symbol ranges, at a byte boundary, in the format's leaderMark range. -/
theorem infoStep_of_boundary {D : Descriptor} {d : BitVec 15} (h0 : inR d.toNat D.symbol0 = false)
    (h1 : inR d.toNat D.symbol1 = false) (above0 : D.symbol0.hi < d.toNat) (above1 : D.symbol1.hi < d.toNat)
    (whole : s.bitsAt s.current % 8 = 0) (mark : inR d.toNat D.leaderMark = true) :
    s.infoStep D d = s.sealFrame d := by
  unfold State.infoStep
  rw [if_neg (by simp [h0]), if_neg (by simp [h1]), h.isBoundary_eq hf, ok_bind,
    if_pos (by simp [above0, above1, whole, mark])]

/-- KB of a frame marked SameAsFirst, as the model reads it (R180). -/
theorem readKb_markedSame :
    (s.markedSame s.current).read16 (s.recordAt s.current) =
      .ok (makeKb FrameKind.sameAsFirst.code (s.bitsAt s.current)) := by
  have hfit := h.record_fits (State.current_lt hf)
  have hcap := s.cap_lt
  exact read16_setHalf_same (by omega)

end StoreInv

/-- Settles O25: what is compared is the current frame and frame 0, so the statement's case is finalize's. -/
theorem frameSealed : Obligations.FrameSealed := by
  intro dur s f p q kb kq hinv hs hfmt hd h0 h1 hp hkb hq hkq above0 above1 whole mark
  have h := hinv.store_of_running (.inr hs)
  have hf := h.openFrame hs
  have hlast := State.current_lt hf
  obtain rfl := h.recordAt_of_currentFrame hf hp
  obtain rfl : s.recordAt 0 = q := Except.ok.inj ((h.offset (by omega)).symm.trans hq)
  obtain rfl := halfAt_of_read16 hkb
  obtain rfl := halfAt_of_read16 hkq
  have hlater : s.frames ≠ 1 ↔ s.current ≠ 0 := by unfold State.current; omega
  have hdup := and_congr hlater (h.duplicatesFirst_iff hlast).symm
  rw [← toNat_shortDuration hd] at h0 h1 above0 above1 mark
  rw [exec_infoEdge hinv hs hfmt hd, h.infoStep_of_boundary hf h0 h1 above0 above1 whole mark]
  rcases h.sealFrame_eq hf (shortDuration dur) with ⟨hne, hsame, hx⟩ | ⟨hnot, hx⟩
  · rw [hx]
    exact ⟨(s.markedSame s.current).sealedBy (shortDuration dur), conclude_ok s _, sealedBy_eq _ dur,
      fun _ => ⟨h.readKb_markedSame hf, fun a => read_markedSame_other⟩,
      fun hkept => absurd (hdup.2 ⟨hne, hsame⟩) hkept⟩
  · rw [hx]
    exact ⟨s.sealedBy (shortDuration dur), conclude_ok s _, sealedBy_eq s dur,
      fun hmarked => absurd (hdup.1 hmarked) hnot, fun _ => rfl⟩

/-! The evidence of a frame's kind (R182, R183). -/

/-- Where the kind of frame j in `t` comes from, after command `i` in `s`. -/
inductive KindSource (s : State) (i : Instr) (t : State) (j : Nat) : Prop
  /-- R168: a kind that stands. -/
  | kept (hj : j < s.frames) (hk : t.kindAt j = s.kindAt j)
  /-- R180, R182: the current frame, at its sealing. -/
  | finalized (hj : j = s.current) (hk : t.kindAt j = FrameKind.sameAsFirst.code)
      (hresp : t.resp = some (respWord .frameBoundary 0 0))
  /-- R126, R128: a new frame, by its leader pair. -/
  | leader {dur : BitVec 24} {f : Format} {k : FrameKind} (hj : j = s.frames) (hk : t.kindAt j = k.code)
      (hi : i = .space dur) (hm : matchLeader s.table s.lm.toNat dur.toNat = some (f, k))

theorem SameFrameRead.kind {s t : State} {j : Nat} (h : SameFrameRead s t j) : t.kindAt j = s.kindAt j :=
  kindAt_of_kbAt h.kb

namespace StoreInv

variable {s t : State} (h : StoreInv s)
include h

/-- R128: an accepted leader pair has opened a frame of the kind that the pair's match gives. -/
theorem kindAt_acceptLeader {d : BitVec 15} (hx : s.acceptLeader d = .ok t) :
    ∃ f k, matchLeader s.table s.lm.toNat d.toNat = some (f, k) ∧ t.kindAt s.frames = k.code := by
  have hle := h.frames_le
  rw [h.acceptLeader_eq] at hx
  split at hx
  · cases hx
  · next f k hm =>
    split at hx
    · cases hx
    split at hx
    · cases hx
    · next hroom =>
      simp only [Config.maxFrames, Config.recHdr, not_or, Nat.not_lt] at hroom
      obtain ⟨hn, hcap⟩ := hroom
      cases hx
      refine ⟨f, k, hm, ?_⟩
      rw [kindAt_continued, State.kindAt, h.kbAt_frameOpened f k _ (by omega) hcap, kindOf_makeKb]

/-- A sample in ASSEMBLE changes no kind, but that of a frame it seals. -/
theorem kindSource_frameStep (hst : s.st = .assemble) {e : Edge} {d : BitVec 15} (hx : s.frameStep e d = .ok t)
    (i : Instr) {j : Nat} (hj : j < s.frames) : KindSource s i t j := by
  have hf := h.openFrame hst
  by_cases hcur : j = s.current
  · subst hcur
    have ho := h.frameStep_outcome hst e d
    rw [hx] at ho
    cases ho with
    | timed => exact .kept hj (kindAt_of_kbAt (h.kbAt_elapsedAdded hf d))
    | bit b hn hcap hkind =>
      have keep := h.keep_bitWritten hf b hn hcap hkind (h.openKind hst)
      have htime := keep.kbAt_elapsedAdded (h.one_le_frames_bitWritten hf b) d
      rw [h.current_bitWritten hf] at htime
      exact .kept hj ((kindAt_of_kbAt htime).trans (h.kindAt_bitWritten hf b))
    | sealedSame =>
      exact .finalized rfl ((congrArg kindOf (h.kbAt_markedSame hf)).trans (kindOf_makeKb _ _)) rfl
    | sealed => exact .kept hj rfl
  · have hlt : j < s.current := by unfold State.current at hcur ⊢; omega
    exact .kept hj (h.sameFrameRead_frameStep hst hlt hx).kind

end StoreInv

/-- Every frame's kind after a command other than INIT has its source. -/
theorem Effect.kindSource {i : Instr} {s t : State} (he : Effect s i t) (hi : ∀ c, i ≠ .init c) (hinv : Inv s) {j : Nat}
    (hj : j < t.frames) : KindSource s i t j := by
  cases he with
  | answered | raised | latched | rejected => exact .kept hj (SameFrameRead.of_buf_eq (by rfl) j).kind
  | initFailed | started => exact absurd rfl (hi _)
  | @opened dur _ hs hv hd hu hx =>
    have h := (hinv.store_of_running (.inl hs)).keep_pairSpace (shortDuration dur)
    rw [(h.frames_formatByte_of_acceptLeader hx).1] at hj
    rcases Nat.lt_succ_iff_lt_or_eq.1 hj with hold | rfl
    · have hread := h.sameFrameRead_acceptLeader hold hx
      exact .kept hold ((SameFrameRead.of_buf_eq (State.pairSpace_buf s _) j).trans hread).kind
    · obtain ⟨f, k, hm, hk⟩ := h.kindAt_acceptLeader hx
      exact .leader rfl hk rfl (toNat_shortDuration hd ▸ hm)
  | assembled hs _ hx | sealed hs _ _ hx =>
    have h := hinv.store_of_running (.inr hs)
    rw [(h.frames_formatByte_of_frameStep hs hx).1] at hj
    exact h.kindSource_frameStep hs hx _ hj

/-- Settles O51: a kept kind was one already, finalize gives SameAsFirst only, and a leader pair never gives it. -/
theorem kindsComeFromTheirEvidence : Obligations.KindsComeFromTheirEvidence := by
  intro i s t hinv _ hi hexec j hj
  cases (exec_effect hexec).kindSource hi hinv hj with
  | kept hold hk => rw [hk]; exact ⟨fun h1 => .inl ⟨hold, h1⟩, fun h2 => .inl ⟨hold, h2⟩⟩
  | finalized hcur hk hresp => rw [hk]; exact ⟨fun _ => .inr ⟨hcur, hresp⟩, nofun⟩
  | @leader dur f k hnew hk hspace hm =>
    rw [hk]
    cases k with
    | data => exact ⟨nofun, nofun⟩
    | sameAsFirst => exact absurd rfl (matchLeader_ne_same hm)
    | repeater => exact ⟨nofun, fun _ => .inr ⟨hnew, dur, f, hspace, hm⟩⟩

end Sys2Proof.Machine
end

section
/-! PROOF. INIT (45_host_commands.md R190, R191): a session in a zeroed buffer where CAP holds a header, no session where it
does not. The statements O12 and O13. -/

namespace Sys2Proof.Machine

theorem execInit_of_lt {c : BitVec 16} (hc : c.toNat < Config.hdrSize) (s : State) : execInit c s = .next s.initFail :=
  if_pos hc

theorem execInit_of_ge {c : BitVec 16} (hc : Config.hdrSize ≤ c.toNat) (s : State) :
    execInit c s = .next (s.startSession c) := if_neg (Nat.not_lt.2 hc)

/-- The registers and the response of a new session (R190). -/
theorem startSession_eq (s : State) (c : BitVec 16) :
    s.startSession c = { s with
      buf := s.buf.zeroBelow c.toNat, cap := c, st := .await, errKind := 0, lm := 0, ls := 0, lmValid := false, eacc := 0,
      resp := some 0x00000000 } := by
  have hword : respWord .continued 0 0 = 0x00000000 := by decide
  rw [← hword]
  rfl

/-- What `initFail()` writes, and the word that answers BufferTooSmall (R191). -/
theorem initFail_eq (s : State) :
    s.initFail = { s with st := .uninit, cap := 0, errKind := 7, lmValid := false, resp := some 0x27000000 } := by
  have hword : respWord .sessionError bufferTooSmallCode 0 = 0x27000000 := by decide
  rw [← hword]
  rfl

/-- Settles O13. -/
theorem initTooSmall : Obligations.InitTooSmall := by
  intro c s hc
  rw [← initFail_eq]
  exact execInit_of_lt hc s

/-- Settles O12: the next state is `startSession`'s, whose buffer reads 0 below CAP and as before from CAP on. -/
theorem initStartsSession : Obligations.InitStartsSession := by
  intro c s hc
  refine ⟨s.startSession c, execInit_of_ge hc s, startSession_eq s c, fun a ha => ?_, untouched_startSession s c⟩
  rw [State.startSession_buf, Memory.read_zeroBelow, if_pos ha]

end Sys2Proof.Machine
end

section
/-! PROOF. The read commands (45_host_commands.md R192 to R198): what each one answers, from the reads of BUF it makes. The
statements O27 to O31. -/

namespace Sys2Proof.Machine

/-! The answers as words (R86). -/

/-- The response of a read: DATA below sixteen zeros. -/
theorem respWord_continued (d : Half) : respWord .continued 0 d = 0#16 ++ d := rfl

theorem toNat_zero_append {w : Nat} (m : Nat) (x : BitVec w) : (0#m ++ x).toNat = x.toNat := by
  simp [BitVec.toNat_append]

theorem continued_eq (s : State) (d : Half) : s.continued d = { s with resp := some (0#16 ++ d) } := by
  rw [← respWord_continued]
  rfl

/-- A byte answered as DATA (R193, R196). -/
theorem continued_byte (s : State) (b : Byte) : s.continued (b.setWidth 16) = { s with resp := some (0#24 ++ b) } := by
  have hword : 0#16 ++ b.setWidth 16 = 0#24 ++ b := BitVec.eq_of_toNat_eq <| by
    rw [toNat_zero_append, toNat_zero_append, BitVec.toNat_setWidth_of_le (by decide)]
  rw [continued_eq, hword]

/-- A latch answered as DATA (R198). -/
theorem continued_latch (s : State) (d : BitVec 15) :
    s.continued (d.setWidth 16) = { s with resp := some (0#17 ++ d) } := by
  have hword : 0#16 ++ d.setWidth 16 = 0#17 ++ d := BitVec.eq_of_toNat_eq <| by
    rw [toNat_zero_append, toNat_zero_append, BitVec.toNat_setWidth_of_le (by decide)]
  rw [continued_eq, hword]

theorem raiseCommand_notInitialized (s : State) :
    s.raiseCommand .notInitialized = { s with resp := some 0x38000000 } := by
  have hword : respWord .commandError CommandErrorKind.notInitialized.code 0 = 0x38000000 := by decide
  rw [← hword]
  rfl

theorem raiseCommand_outOfRange (s : State) : s.raiseCommand .outOfRange = { s with resp := some 0x3A000000 } := by
  have hword : respWord .commandError CommandErrorKind.outOfRange.code 0 = 0x3A000000 := by decide
  rw [← hword]
  rfl

/-! Each command (R192 to R198). -/

section Reads

variable {s : State}

/-- R192: RDCOUNT, RDFRAME and RDBYTE are refused in UNINIT before they read anything. -/
theorem readCommand_of_uninit (hs : s.st = .uninit) (read : Except Raised State) :
    s.readCommand read = .next { s with resp := some 0x38000000 } := by
  rw [← raiseCommand_notInitialized]
  exact if_pos hs

/-- R193. -/
theorem execRdcount_of_session (hs : s.st ≠ .uninit) {n : Byte} (hn : s.read8 countAddr = .ok n) :
    execRdcount s = .next (s.continued (n.setWidth 16)) := by
  rw [execRdcount, readCommand_of_session hs, hn, ok_bind, conclude_ok]

/-- R195. -/
theorem execRdframe_of_missing (hs : s.st ≠ .uninit) {n : Nat} (hn : s.frameCount = .ok n) {index : BitVec 8}
    (hi : n ≤ index.toNat) (sel : FrameSel) : execRdframe sel index s = .next (s.raiseCommand .outOfRange) := by
  rw [execRdframe, readCommand_of_session hs, hn, ok_bind, if_pos hi, conclude_ok]

/-- R194. -/
theorem execRdframe_of_field (hs : s.st ≠ .uninit) {n : Nat} (hn : s.frameCount = .ok n) {index : BitVec 8}
    (hi : index.toNat < n) {p : Nat} (hp : s.offset index.toNat = .ok p) {sel : FrameSel} {v : Half}
    (hv : s.frameField sel p = .ok v) : execRdframe sel index s = .next (s.continued v) := by
  rw [execRdframe, readCommand_of_session hs, hn, ok_bind, if_neg (Nat.not_le.2 hi), hp, ok_bind, hv, ok_bind, conclude_ok]

/-- R194: the payload address, from the record's KB and OFFSET[0]. -/
theorem payloadAddr_of_reads {p q : Nat} {kb : Half} (hkb : s.read16 p = .ok kb) (hq : s.offset 0 = .ok q) :
    s.payloadAddr p = .ok ((if kindOf kb = FrameKind.sameAsFirst.code then q else p) + Config.recHdr) := by
  rw [State.payloadAddr, hkb, ok_bind, hq]
  split
  · rfl
  · rfl

/-- R196. -/
theorem execRdbyte_of_ge_cap (hs : s.st ≠ .uninit) {addr : BitVec 16} (ha : s.cap.toNat ≤ addr.toNat) :
    execRdbyte addr s = .next (s.raiseCommand .outOfRange) := by
  rw [execRdbyte, readCommand_of_session hs, if_pos (BitVec.le_def.2 ha), conclude_ok]

/-- R196. -/
theorem execRdbyte_of_lt_cap (hs : s.st ≠ .uninit) {addr : BitVec 16} (ha : addr.toNat < s.cap.toNat) {b : Byte}
    (hb : s.read8 addr.toNat = .ok b) : execRdbyte addr s = .next (s.continued (b.setWidth 16)) := by
  rw [execRdbyte, readCommand_of_session hs, if_neg (BitVec.not_le.2 ha), hb, ok_bind, conclude_ok]

/-- R198. -/
theorem execRdstatus_of_register {sel : StatusSel} {v : Half} (hv : s.readRegister sel = .ok v) :
    execRdstatus sel s = .next (s.continued v) := by
  rw [execRdstatus, hv, ok_bind, conclude_ok]

/-- R32: the fields of the status word that are kept in BUF read 0 in UNINIT. -/
theorem readStatus_of_uninit (hs : s.st = .uninit) :
    s.readStatus = .ok (statusWord 0 s.errKind s.lmValid 0 0) := by
  rw [State.readStatus, if_pos hs, hs]
  rfl

/-- R32. -/
theorem readStatus_of_session (hs : s.st ≠ .uninit) {fmt nfr : Byte} (hfmt : s.read8 formatAddr = .ok fmt)
    (hnfr : s.read8 countAddr = .ok nfr) :
    s.readStatus = .ok (statusWord (nfr.extractLsb' 0 4) s.errKind s.lmValid (fmt.extractLsb' 0 2) s.st.code) := by
  rw [State.readStatus, if_neg hs, hfmt, ok_bind, hnfr, ok_bind]

end Reads

/-- The response that carries a status word, field by field (R32, R86). -/
theorem zero_append_statusWord (nfr err : BitVec 4) (lmv : Bool) (fmt st : BitVec 2) :
    0#16 ++ statusWord nfr err lmv fmt st = 0#16 ++ nfr ++ err ++ 0#3 ++ BitVec.ofBool lmv ++ fmt ++ st := by
  refine BitVec.eq_of_getLsbD_eq fun i _ => ?_
  simp only [statusWord, BitVec.getLsbD_append]
  grind

/-- The response that carries the status word of UNINIT (R32, R86). -/
theorem zero_append_statusWord_uninit (err : BitVec 4) (lmv : Bool) :
    0#16 ++ statusWord 0 err lmv 0 0 = 0#20 ++ err ++ 0#3 ++ BitVec.ofBool lmv ++ 0#4 := by
  revert err lmv; decide

/-- Settles O27: a read's only write is the response, three of the four are refused in UNINIT, and no command stops under
`Inv`. -/
theorem readsChangeNothing : Obligations.ReadsChangeNothing := by
  intro i s hi
  refine ⟨fun t ht => ?_, fun hs hne => ?_, fun hinv => hinv.exists_exec i⟩
  · have hanswer : ∃ o k d, t = s.respond o k d := by
      rcases hi with rfl | ⟨sel, index, rfl⟩ | ⟨a, rfl⟩ | ⟨sel, rfl⟩
      · exact rdcount_answers ht
      · exact rdframe_answers ht
      · exact rdbyte_answers ht
      · exact rdstatus_answers ht
    obtain ⟨o, k, d, rfl⟩ := hanswer
    rfl
  · rcases hi with rfl | ⟨sel, index, rfl⟩ | ⟨a, rfl⟩ | ⟨sel, rfl⟩
    · exact readCommand_of_uninit hs _
    · exact readCommand_of_uninit hs _
    · exact readCommand_of_uninit hs _
    · exact absurd rfl (hne sel)

/-- Settles O28. -/
theorem countRead : Obligations.CountRead := by
  refine fun s n => ⟨fun hs => readCommand_of_uninit hs _, fun hs hn => ?_⟩
  rw [← continued_byte]
  exact execRdcount_of_session hs hn

/-- Settles O29: once FRAME_COUNT admits the index, the answer is the selected field of the record at its OFFSET. -/
theorem frameFieldRead : Obligations.FrameFieldRead := by
  intro index s
  refine ⟨fun hs sel => readCommand_of_uninit hs _, fun n hs hn hi sel => ?_, fun n p q kb el hs hn hi hp hkb hel hq => ?_⟩
  · rw [← raiseCommand_outOfRange]
    exact execRdframe_of_missing hs hn hi sel
  have answers : ∀ {sel v}, s.frameField sel p = .ok v →
      exec (.rdframe sel index) s = .next { s with resp := some (0#16 ++ v) } := fun hv => by
    rw [← continued_eq]
    exact execRdframe_of_field hs hn hi hp hv
  refine ⟨answers hkb, answers hel, answers ?_, answers rfl⟩
  rw [State.frameField, payloadAddr_of_reads hkb hq, ok_bind]
  rfl

/-- Settles O30. -/
theorem byteRead : Obligations.ByteRead := by
  intro addr s
  refine ⟨fun hs => readCommand_of_uninit hs _, fun hs ha => ?_, fun b hs ha hb => ?_⟩
  · rw [← raiseCommand_outOfRange]
    exact execRdbyte_of_ge_cap hs ha
  · rw [← continued_byte]
    exact execRdbyte_of_lt_cap hs ha hb

/-- Settles O31. -/
theorem statusRead : Obligations.StatusRead := by
  intro s
  refine ⟨?_, ?_, ?_, fun hs => ?_, fun fmt nfr hs hfmt hnfr => ?_⟩
  · rw [← continued_latch]; exact execRdstatus_of_register rfl
  · rw [← continued_latch]; exact execRdstatus_of_register rfl
  · rw [← continued_eq]; exact execRdstatus_of_register rfl
  · rw [← zero_append_statusWord_uninit, ← continued_eq]
    exact execRdstatus_of_register (sel := .status) (readStatus_of_uninit hs)
  · refine (execRdstatus_of_register (sel := .status) (readStatus_of_session hs hfmt hnfr)).trans ?_
    rw [continued_eq, zero_append_statusWord]
    cases s.st <;> rfl

end Sys2Proof.Machine
end

section
/-! PROOF. The host's procedure for reading a frame (45_host_commands.md R197), run command by command: the answers are the
fields that BUF holds. The statement O32. -/

namespace Sys2Proof.Machine

/-- DATA of a response that goes on (R86). -/
theorem responseData_continued (d : Half) : responseData (respWord .continued 0 d) = some d := by
  rw [responseData, respWord_outcome, if_pos rfl, respWord_data]

/-- The host takes DATA from a read that goes on (R197). -/
theorem readAnswer_of_continued {s : State} {i : Instr} {d : Half} (h : exec i s = .next (s.continued d)) :
    readAnswer s i = some d := by
  rw [readAnswer, h]
  exact responseData_continued d

/-- Reads that all answer give the list of their answers. -/
theorem mapM_eq_some_map {α β : Type} {f : α → Option β} {g : α → β} {l : List α} (h : ∀ x ∈ l, f x = some (g x)) :
    l.mapM f = some (l.map g) := by
  induction l with
  | nil => rfl
  | cons x l ih =>
    rw [List.mapM_cons, h x List.mem_cons_self, ih fun y hy => h y (List.mem_cons_of_mem x hy)]
    rfl

namespace StoreInv

variable {s : State} (h : StoreInv s) (hs : s.st ≠ .uninit)
include h

/-- R194: RDFRAME's payload address, by the frame whose bytes a reader takes. -/
theorem frameField_payload {i : Nat} (hi : i < s.frames) :
    s.frameField .payload (s.recordAt i) = .ok (BitVec.ofNat 16 (s.recordAt (s.payloadOwner i) + Config.recHdr)) := by
  rw [State.frameField, h.payloadAddr_eq hi, ok_bind, State.payloadOwner, apply_ite s.recordAt]

/-- R197: the payload bytes a reader of frame i takes lie below CAP. -/
theorem payload_le_cap {i : Nat} (hi : i < s.frames) :
    s.recordAt (s.payloadOwner i) + Config.recHdr + ceil8 (s.bitsAt i) ≤ s.cap.toNat := by
  obtain ⟨-, howner⟩ := h.payloadOwner_holds hi
  have hsize : recordSize (s.kbAt i) ≤ Config.recHdr + ceil8 (s.bitsAt i) := recordSize_le (s.kbAt i)
  have hfits := h.recordFits i hi
  simp only [Config.recHdr] at hsize hfits ⊢
  omega

include hs

/-- R194, R197 steps 2 to 5. -/
theorem readAnswer_rdframe {i : BitVec 8} (hi : i.toNat < s.frames) {sel : FrameSel} {v : Half}
    (hv : s.frameField sel (s.recordAt i.toNat) = .ok v) : readAnswer s (.rdframe sel i) = some v := by
  have hoffset := h.offset (Nat.lt_of_lt_of_le hi h.frames_le)
  exact readAnswer_of_continued (execRdframe_of_field hs h.frameCount hi hoffset hv)

/-- R196, R197 step 6. -/
theorem readAnswer_rdbyte {a : BitVec 16} (ha : a.toNat < s.cap.toNat) :
    readAnswer s (.rdbyte a) = some ((s.byteAt a.toNat).setWidth 16) :=
  readAnswer_of_continued (execRdbyte_of_lt_cap hs ha (h.read8 ha))

end StoreInv

/-- R197 step 6: the bytes from address a on, none of which wraps around. -/
theorem readPayload_of_le_cap {s : State} (h : StoreInv s) (hs : s.st ≠ .uninit) {a n : Nat} (ha : a + n ≤ s.cap.toNat) :
    readPayload s (BitVec.ofNat 16 a) n = some ((List.range n).map fun k => s.byteAt (a + k)) := by
  refine mapM_eq_some_map fun k hk => ?_
  have hk' := List.mem_range.1 hk
  have hcap := s.cap.isLt
  have haddr : (BitVec.ofNat 16 a + BitVec.ofNat 16 k).toNat = a + k := by
    rw [← BitVec.ofNat_add, BitVec.toNat_ofNat, Nat.mod_eq_of_lt (by omega)]
  rw [h.readAnswer_rdbyte hs (by omega), haddr, Option.map_some, BitVec.setWidth_setWidth_of_le _ (by decide),
    BitVec.setWidth_eq]

/-- Settles O32: each of the procedure's reads answers the field that the views of BUF show. -/
theorem hostReadsFrame : Obligations.HostReadsFrame := by
  intro s i hinv hs hi
  have h := hinv.store hs
  have hkb := h.readAnswer_rdframe hs hi (sel := .kb) (h.readKb hi)
  have hel := h.readAnswer_rdframe hs hi (sel := .elapsed) (h.readElapsed hi)
  have haddr := h.readAnswer_rdframe hs hi (h.frameField_payload hi)
  have hbytes := readPayload_of_le_cap h hs (h.payload_le_cap hi)
  simp only [readFrame, hkb, hel, haddr, Option.bind_eq_bind, Option.bind_some]
  rw [show bitCountOf (s.kbAt i.toNat) = s.bitsAt i.toNat from rfl, hbytes]
  rfl

end Sys2Proof.Machine
end

section
/-! PROOF. Errors (60_exceptions.md R211 to R214): what a sample leaves when it ends the session, and that a command error is
named by its kind and writes the response alone. The statements O33 and O34. -/

namespace Sys2Proof.Machine

/-! Session errors (R212). -/

/-- An operation that begins with one that raises nothing raises what the rest of it raises. -/
theorem of_bind_eq_session {α β : Type} {x : Except Raised α} {f : α → Except Raised β} {k : SessionErrorKind}
    (hx : x ≠ .error (.session k)) (h : (x >>= f) = .error (.session k)) : ∃ a, f a = .error (.session k) := by
  rcases bind_eq_error.1 h with h | ⟨a, -, ha⟩
  · exact absurd h hx
  · exact ⟨a, ha⟩

/-- R161, R162: a full index or a header past CAP. -/
theorem kind_of_appendFrame {s : State} {kind : FrameKind} {e : BitVec 20} {k : SessionErrorKind}
    (h : s.appendFrame kind e = .error (.session k)) : k = .bufferOverflow := by
  obtain ⟨n, h⟩ := of_bind_eq_session frameCount_ne_session h
  split at h
  · cases h; rfl
  · obtain ⟨off, h⟩ := of_bind_eq_session nextRecord_ne_session h
    split at h
    · cases h; rfl
    · exact absurd h writeRecord_ne_session

/-- R129, R130, R162: the three ways to reject a leader pair. -/
theorem kind_of_acceptLeader {s : State} {d : BitVec 15} {k : SessionErrorKind}
    (h : s.acceptLeader d = .error (.session k)) :
    k = .unrecognizedLeader ∨ k = .formatMismatch ∨ k = .bufferOverflow := by
  unfold State.acceptLeader at h
  split at h
  · cases h; exact .inl rfl
  · obtain ⟨fmt, h⟩ := of_bind_eq_session read8_ne_session h
    split at h
    · cases h; exact .inr (.inl rfl)
    · rcases bind_eq_error.1 h with h | ⟨s1, -, h⟩
      · exact .inr (.inr (kind_of_appendFrame h))
      · obtain ⟨s2, h⟩ := of_bind_eq_session fixFormat_ne_session h
        cases h

/-- A leader pair that ends the session has been rejected for one of those three reasons. -/
theorem errKind_of_rejected {s t : State} {dur : BitVec 24} (hs : s.st = .await) (hv : s.lmValid = true)
    (hd : dur.toNat ≤ Config.maxDuration) (h : exec (.space dur) s = .next t) (ht : t.st = .error) :
    t.errKind = 2 ∨ t.errKind = 3 ∨ t.errKind = 6 := by
  rw [exec_space_of_latched hs hv hd] at h
  rcases conclude_eq_next.1 h with hx | ⟨k, hx, rfl⟩
  · obtain ⟨u, -, rfl⟩ := acceptLeader_effect hx
    cases ht
  · rcases kind_of_acceptLeader hx with rfl | rfl | rfl
    · exact .inl rfl
    · exact .inr (.inl rfl)
    · exact .inr (.inr rfl)

/-- R212: a sample that ends the session takes the error from the state before it or, where it rejects a leader pair, from
that state with the pair's two writes (R127). -/
theorem raised_of_sample_enters_error {s t : State} {e : Edge} {dur : BitVec 24} (hs : s.st = .await ∨ s.st = .assemble)
    (h : exec (sampleOf e dur) s = .next t) (ht : t.st = .error) :
    (∃ k, t = s.raiseSession k) ∨
      (s.st = .await ∧ e = .space ∧ s.lmValid = true ∧ dur.toNat ≤ Config.maxDuration ∧
        ∃ k, t = (s.pairSpace (shortDuration dur)).raiseSession k) := by
  have hne : s.st ≠ .error := fun he => by rw [he] at hs; exact absurd hs (by decide)
  generalize hi : sampleOf e dur = i at h
  cases exec_effect h with
  | answered => exact absurd ht hne
  | initFailed => cases ht
  | started => cases ht
  | raised _ k => exact .inl ⟨k, rfl⟩
  | latched => exact absurd ht hne
  | rejected hawait hv hd k =>
    cases e with
    | mark => cases hi
    | space => cases hi; exact .inr ⟨hawait, rfl, hv, hd, k, rfl⟩
  | opened => cases ht
  | assembled _ hu => exact absurd (hu.st.symm.trans ht) hne
  | sealed => cases ht

/-- R211: the codes of the session errors. -/
theorem SessionErrorKind.code_bounds (k : SessionErrorKind) : 1 ≤ k.code.toNat ∧ k.code.toNat ≤ 6 := by
  cases k <;> decide

/-- Settles O33: the error's state is one of two, and a rejected pair's kind is known. -/
theorem sessionErrorsArePrecise : Obligations.SessionErrorsArePrecise := by
  intro e dur s t hs h ht
  rcases raised_of_sample_enters_error hs h ht with ⟨k, rfl⟩ | ⟨hawait, rfl, hv, hd, k, rfl⟩
  · obtain ⟨hlo, hhi⟩ := k.code_bounds
    exact ⟨hlo, hhi, congrArg some (respWord_sessionError k), .inl rfl⟩
  · obtain ⟨hlo, hhi⟩ := k.code_bounds
    have hkind := errKind_of_rejected hawait hv hd h ht
    refine ⟨hlo, hhi, congrArg some (respWord_sessionError k), .inr ⟨hawait, rfl, hv, hd, hkind, ?_⟩⟩
    rw [← shortDuration_eq]
    rfl

/-! Command errors (R214). -/

/-- OUTCOME tells a command error from every other answer (R86). -/
theorem outcome_of_code {o : RespOutcome} {k : BitVec 4} {d : Half} (h : (respWord o k d).extractLsb' 28 4 = 3#4) :
    o = .commandError := by
  rw [respWord_outcome] at h
  cases o with
  | commandError => rfl
  | continued | frameBoundary | sessionError => cases h

/-- R214: a command that answers COMMAND_ERROR has written its response and nothing else. -/
theorem Effect.eq_of_commandError {i : Instr} {s t : State} (he : Effect s i t) {r : Word} (hr : t.resp = some r)
    (ho : r.extractLsb' 28 4 = 3#4) : t = { s with resp := some r } := by
  cases he with
  | answered => rw [← hr]; rfl
  | initFailed | started | raised | latched | rejected | opened | assembled | sealed =>
    cases hr; exact nomatch outcome_of_code ho

/-- A command error in the answer is one of R211's, with no data. -/
def State.NamesCommandError (s : State) : Prop :=
  ∀ r, s.resp = some r → r.extractLsb' 28 4 = 3#4 → ∃ k : CommandErrorKind, r = respWord .commandError k.code 0

namespace State.NamesCommandError

theorem raiseCommand (s : State) (k : CommandErrorKind) : (s.raiseCommand k).NamesCommandError :=
  fun _ hr _ => ⟨k, (Option.some.inj hr).symm⟩

/-- Any other answer names none. -/
theorem of_resp {s : State} {o : RespOutcome} {k : BitVec 4} {d : Half} (hr : s.resp = some (respWord o k d))
    (ho : o ≠ .commandError) : s.NamesCommandError := by
  intro r hr' h3
  rw [hr] at hr'
  cases hr'
  exact absurd (outcome_of_code h3) ho

theorem continued (s : State) (d : Half) : (s.continued d).NamesCommandError := of_resp rfl nofun

theorem of_conclude {s t : State} {x : Except Raised State} (hx : ∀ u, x = .ok u → u.NamesCommandError)
    (h : s.conclude x = .next t) : t.NamesCommandError := by
  rcases conclude_eq_next.1 h with h | ⟨k, -, rfl⟩
  · exact hx t h
  · exact of_resp rfl nofun

/-- R192. -/
theorem of_readCommand {s t : State} {x : Except Raised State} (hx : ∀ u, x = .ok u → u.NamesCommandError)
    (h : s.readCommand x = .next t) : t.NamesCommandError := by
  unfold State.readCommand at h
  split at h
  · cases h; exact raiseCommand s _
  · exact of_conclude hx h

/-- A read that takes a value and goes on with it. -/
theorem of_bind_continued {α : Type} {s : State} {x : Except Raised α} {f : α → Half} (u : State)
    (h : (do let a ← x; .ok (s.continued (f a))) = .ok u) : u.NamesCommandError := by
  obtain ⟨a, -, ha⟩ := bind_eq_ok.1 h
  cases ha
  exact continued s (f a)

end State.NamesCommandError

/-- R120: the one command error of a sample is NotInitialized. -/
theorem SampleAnswer.namesCommandError {s t : State} (h : SampleAnswer s t.resp) : t.NamesCommandError := by
  generalize hr : t.resp = r at h
  cases h with
  | notInitialized =>
    intro r hr' _
    rw [hr] at hr'
    exact ⟨_, (Option.some.inj hr').symm⟩
  | continued | sealed | raised | failed => exact .of_resp hr nofun

/-- R193. -/
theorem execRdcount_namesCommandError {s t : State} (h : execRdcount s = .next t) : t.NamesCommandError :=
  .of_readCommand .of_bind_continued h

/-- R194, R195. -/
theorem execRdframe_namesCommandError {s t : State} {sel : FrameSel} {index : BitVec 8}
    (h : execRdframe sel index s = .next t) : t.NamesCommandError := by
  refine .of_readCommand (fun u hu => ?_) h
  obtain ⟨n, -, hu⟩ := bind_eq_ok.1 hu
  split at hu
  · cases hu; exact .raiseCommand s _
  · obtain ⟨p, -, hu⟩ := bind_eq_ok.1 hu
    exact .of_bind_continued u hu

/-- R196. -/
theorem execRdbyte_namesCommandError {s t : State} {addr : BitVec 16} (h : execRdbyte addr s = .next t) :
    t.NamesCommandError := by
  refine .of_readCommand (fun u hu => ?_) h
  split at hu
  · cases hu; exact .raiseCommand s _
  · exact .of_bind_continued u hu

/-- R211: every command names the command error it answers. -/
theorem exec_namesCommandError {i : Instr} {s t : State} (h : exec i s = .next t) : t.NamesCommandError := by
  cases i with
  | init c =>
    rcases init_answer h with hr | hr <;> exact .of_resp hr nofun
  | mark dur => exact (sample_answer (e := .mark) h).namesCommandError
  | space dur => exact (sample_answer (e := .space) h).namesCommandError
  | rdcount => exact execRdcount_namesCommandError h
  | rdframe sel index => exact execRdframe_namesCommandError h
  | rdbyte addr => exact execRdbyte_namesCommandError h
  | rdstatus sel => exact .of_conclude .of_bind_continued h

/-- R86, R211: the words that report a command error. -/
theorem respWord_commandError (k : CommandErrorKind) :
    respWord .commandError k.code 0 = 0x38000000 ∨ respWord .commandError k.code 0 = 0x39000000 ∨
      respWord .commandError k.code 0 = 0x3A000000 := by
  cases k with
  | notInitialized => exact .inl (by decide)
  | illegalCommand => exact .inr (.inl (by decide))
  | outOfRange => exact .inr (.inr (by decide))

/-- Settles O34: ILLEGAL has one answer, and a command's answer is its own effect. -/
theorem commandErrorsChangeNothing : Obligations.CommandErrorsChangeNothing := by
  intro w r s t h hr ho
  rcases hdec : decode w with e | i
  · rw [runWord_of_decode_error hdec, execIllegal_eq] at h
    cases h
    cases hr
    exact ⟨rfl, .inr (.inl rfl)⟩
  · rw [runWord_of_decode_ok hdec] at h
    obtain ⟨k, rfl⟩ := exec_namesCommandError h r hr ho
    exact ⟨(exec_effect h).eq_of_commandError hr ho, respWord_commandError k⟩

end Sys2Proof.Machine
end

section
/-! PROOF. Hardware reset as a step (70_reset_and_hazards.md R230, R231): statement O10. -/

namespace Sys2Proof.Machine

/-- R230, R231: a hardware reset keeps the Format Table, BUF and the port, and every other field takes its reset value. -/
theorem State.hardReset_eq (s : State) :
    s.hardReset =
      { table := s.table, st := .uninit, cap := 0, errKind := 0, lm := 0, ls := 0, lmValid := false, eacc := 0,
        buf := s.buf, port := s.port, resp := none } := rfl

/-- Settles O10: the reset is taken from the port, which changes nothing else, and then resets the state left. -/
theorem hardwareResetClearsRegisters : Obligations.HardwareResetClearsRegisters := by
  intro s rest hport
  rw [step_of_port_reset hport, State.hardReset_eq]
  rfl

end Sys2Proof.Machine
end
